-- ==== Sys2Proof/Word.lean ====
section
/-! DEFINITION. The word types of the block: 32-bit words, bytes, and binary32 encodings (00_scope R10, R11). -/

namespace Sys2Proof

/-- A 32-bit word of a port, a register or a memory (20_memory R105). -/
abbrev Word := BitVec 32

/-- One byte of the `PAYLOAD` memory (20_memory R100). -/
abbrev Byte := BitVec 8

/-- A sample or a real-valued register: the 32-bit encoding of an IEEE 754 binary32 value (00_scope R11, 20_memory R105). -/
abbrev F32 := BitVec 32

end Sys2Proof
end

