-- ==== Sys2Proof/Config.lean ====
section
/-! DEFINITION. The synthesis parameters of 00_scope R7, with the spec's defaults, and the values the spec leaves free. -/

namespace Sys2Proof

/-- The synthesis parameters of 00_scope R7.
One value of this type is one instance of the block; a machine state carries it and no step changes it (log entry 1).
The legal ranges are `Config.Legal` in WellFormed.lean. -/
structure Config where
  /-- `CAP`, ring-buffer capacity in samples -/
  cap : Nat := 8192
  /-- `K_DESC`, descriptor-ring length -/
  kDesc : Nat := 16
  /-- `PAYLOAD_MAX`, payload memory size in bytes -/
  payloadMax : Nat := 256
  /-- `Q`, resampler tap count -/
  taps : Nat := 5
  /-- `S`, resampler phase resolution -/
  phases : Nat := 10
  /-- `TAU`, pre-emphasis time constant, binary32 of 75e-6 -/
  tau : F32 := 0x389D4952#32
  /-- `MUX_GAIN`, binary32 of 0.9 -/
  muxGain : F32 := 0x3F666666#32
  /-- `PILOT_GAIN`, binary32 of 0.1 -/
  pilotGain : F32 := 0x3DCCCCCD#32
  /-- `ENC_GAIN`, binary32 of 0.05 -/
  encGain : F32 := 0x3D4CCCCD#32
  /-- `ENC_ALPHA`, binary32 of 0.99 -/
  encAlpha : F32 := 0x3F7D70A4#32
  /-- `ENC_BETA`, binary32 of 0.01 -/
  encBeta : F32 := 0x3C23D70A#32
  /-- `ENC_PERIOD`, symbol period in samples -/
  encPeriod : Nat := 384
  /-- `ENC_HALF`, length of the first Manchester half -/
  encHalf : Nat := 192
  /-- `DIV_N`, divider-table entries -/
  divN : Nat := 1024
  /-- `CENTER`, divider-table index of the carrier -/
  center : Nat := 512
  /-- `PIPE_LAT`, pacing-pipeline latency, binary32 of 2.3 -/
  pipeLat : F32 := 0x40133333#32
  /-- `DIV_STEP`, offset of the two clock-write indices of a slot -/
  divStep : Nat := 1
  deriving DecidableEq, Repr

/-- `IV_MIN = -(CENTER - 1)` (00_scope R7, derived constants). -/
def Config.ivMin (c : Config) : Int := -((c.center : Int) - 1)

/-- `IV_MAX = DIV_N - 2 - CENTER` (00_scope R7, derived constants). -/
def Config.ivMax (c : Config) : Int := (c.divN : Int) - 2 - c.center

/-- FREE VALUE: what entry `i` of the `FIFO` memory holds after reset number `g` while no ring write has written it.
70_reset_and_hazards R423: "unspecified after reset and a model may give them any value" (log entry 4). -/
opaque Config.fifoUnwritten (g i : Nat) : BitVec 32

/-- FREE VALUE: `floor` of an infinity or a NaN, which 00_scope R14 does not define (log entry 5). -/
opaque Config.floorNonFinite (x : BitVec 32) : Int

/-- FREE VALUE: `round` of an infinity or a NaN, which 00_scope R14 does not define (log entry 5). -/
opaque Config.roundNonFinite (x : BitVec 32) : Int

/-- OPEN PARAMETER: the 4096-byte page the platform places the CSR window at (20_memory R104, 92 D10; log entry 16). -/
opaque Config.csrPage : Nat

end Sys2Proof
end

