-- ==== Sys2Proof/Machine/Float.lean ====
section
/-! DEFINITION. IEEE 754 binary32 arithmetic as 00_scope R12 to R14 use it: one rounding to nearest, ties to even, per
operation, subnormals kept, signed zeros, and the canonical quiet NaN for every NaN result.
Every finite binary32 value is an integer number of units of `2^-149` (the least subnormal), so an operation is computed
exactly on such integers (or on a quotient of two) and rounded once, in `fPack`. -/

namespace Sys2Proof.Machine

/-- The canonical quiet NaN (00_scope R13). -/
def qNaN : F32 := 0x7FC00000#32

/-- `+0.0` -/
def fZero : F32 := 0x00000000#32

/-- `1.0` -/
def fOne : F32 := 0x3F800000#32

/-- `-1.0` -/
def fNegOne : F32 := 0xBF800000#32

/-- `0.5` -/
def fHalf : F32 := 0x3F000000#32

/-- `2.0` -/
def fTwo : F32 := 0x40000000#32

/-- The sign, bit 31 (20_memory R105). -/
def fSign (x : F32) : Bool := x.getLsbD 31

/-- The biased exponent, bits [30:23]. -/
def fExp (x : F32) : Nat := x.toNat / 2 ^ 23 % 256

/-- The fraction, bits [22:0]. -/
def fFrac (x : F32) : Nat := x.toNat % 2 ^ 23

/-- Neither an infinity nor a NaN. -/
def fFinite (x : F32) : Bool := fExp x != 255

def fIsNaN (x : F32) : Bool := fExp x == 255 && fFrac x != 0

def fIsInf (x : F32) : Bool := fExp x == 255 && fFrac x == 0

/-- `+0.0` or `-0.0`. -/
def fIsZero (x : F32) : Bool := x.toNat % 2 ^ 31 == 0

/-- The magnitude of a finite value, in units of `2^-149`; the bits of an infinity read as `2^128`, the next value after the
largest finite one. -/
def fMag (x : F32) : Nat := if fExp x = 0 then fFrac x else (2 ^ 23 + fFrac x) * 2 ^ (fExp x - 1)

/-- A value with its sign, in units of `2^-149`. -/
def fUnits (x : F32) : Int := if fSign x then -(fMag x : Int) else (fMag x : Int)

/-- The encoding with the given sign and the given exponent and fraction bits. -/
def fBits (neg : Bool) (bits : Nat) : F32 := BitVec.ofNat 32 ((if neg then 2 ^ 31 else 0) + bits)

/-- The exponent and fraction bits of the binary32 value nearest, ties to even, to `num / den` units of `2^-149`.
`sh` is the number of low bits a 24-bit significand drops; the sum carries a significand that rounds up to `2^24` into the
next exponent, and everything from `2^128` on is the infinity. -/
def fNearest (num den : Nat) : Nat :=
  let sh := (num / den).log2 - 23
  let d := den * 2 ^ sh
  let m := num / d
  let r := num % d
  let up := if d < 2 * r ∨ (2 * r = d ∧ m % 2 = 1) then 1 else 0
  min (sh * 2 ^ 23 + (m + up)) 0x7F800000

/-- Round a signed exact quotient `num / den` (in units of `2^-149`) once (00_scope R12). -/
def fPack (neg : Bool) (num den : Nat) : F32 := fBits neg (fNearest num den)

/-- The value with the other sign. -/
def fNeg (x : F32) : F32 := x ^^^ 0x80000000#32

/-- `fl(a + b)` (00_scope R12). -/
def flAdd (a b : F32) : F32 :=
  if fIsNaN a || fIsNaN b then qNaN
  else if fIsInf a then (if fIsInf b && (fSign a != fSign b) then qNaN else a)
  else if fIsInf b then b
  else if fUnits a + fUnits b = 0 then fBits (fSign a && fSign b) 0
  else fPack (decide (fUnits a + fUnits b < 0)) (fUnits a + fUnits b).natAbs 1

/-- `fl(a - b)`. -/
def flSub (a b : F32) : F32 := flAdd a (fNeg b)

/-- `fl(a × b)`. -/
def flMul (a b : F32) : F32 :=
  if fIsNaN a || fIsNaN b then qNaN
  else if fIsInf a || fIsInf b then
    (if fIsZero a || fIsZero b then qNaN else fBits (fSign a != fSign b) 0x7F800000)
  else fPack (fSign a != fSign b) (fMag a * fMag b) (2 ^ 149)

/-- `fl(a / b)`. -/
def flDiv (a b : F32) : F32 :=
  if fIsNaN a || fIsNaN b then qNaN
  else if fIsInf a then (if fIsInf b then qNaN else fBits (fSign a != fSign b) 0x7F800000)
  else if fIsInf b then fBits (fSign a != fSign b) 0
  else if fIsZero b then (if fIsZero a then qNaN else fBits (fSign a != fSign b) 0x7F800000)
  else fPack (fSign a != fSign b) (fMag a * 2 ^ 149) (fMag b)

/-- `fl32(n)`: the binary32 value nearest the integer `n`, ties to even (00_scope R12). -/
def fl32 (n : Int) : F32 := fPack (decide (n < 0)) (n.natAbs * 2 ^ 149) 1

/-- `a < b` on binary32 values; false when either is a NaN. The bits of an infinity read as `2^128`, beyond every finite
value. -/
def fLt (a b : F32) : Bool := !fIsNaN a && !fIsNaN b && decide (fUnits a < fUnits b)

/-- `a <= b` on binary32 values; false when either is a NaN. -/
def fLe (a b : F32) : Bool := !fIsNaN a && !fIsNaN b && decide (fUnits a ≤ fUnits b)

/-- `floor(x)` (00_scope R14); a free value where the spec defines none. -/
def fFloor (x : F32) : Int :=
  if fFinite x then fUnits x / 2 ^ 149 else Config.floorNonFinite x

/-- `round(x)`, halves away from zero (00_scope R14); a free value where the spec defines none. -/
def fRound (x : F32) : Int :=
  if fFinite x then
    (if fSign x then -(((fMag x + 2 ^ 148) / 2 ^ 149 : Nat) : Int) else ((fMag x + 2 ^ 148) / 2 ^ 149 : Nat))
  else Config.roundNonFinite x

end Sys2Proof.Machine
end

