-- ==== Sys2Proof/Syntax.lean ====
section
/-! DEFINITION. The operations of the block (30_encoding R140 to R153), one constructor per row of the opcode table,
with the names their operands use: channels, ports and registers. -/

namespace Sys2Proof

/-- The channel operand `c` of `PRE_STEP` and `RSM_PUSH` (30_encoding R147): 0 is left, 1 is right. -/
inductive Chan where
  | ch0
  | ch1
  deriving DecidableEq, Repr

/-- The two host ports (47_host_interface R340). -/
inductive Port where
  | control
  | audio
  deriving DecidableEq, Repr

/-- The control and status registers of 10_state R42, by name. -/
inductive Csr where
  | id | ctrl | status | irqEn | cause | occ | cap | delay | chunk | srcRate | ratio | cps | modIndex
  | payloadLen | payloadAddr | payloadData | slotPtr | ovrCnt | unrCnt | satCnt
  | paramQ | paramS | paramK | paramPmax | paramDivn | paramCenter | blklen
  /-- the reserved offsets `0x06C`-`0xFFC` (10_state R63) -/
  | reserved
  deriving DecidableEq, Repr

/-- The operations of 30_encoding R153. Operand fields are unsigned integers read from their bits (R149). -/
inductive Instr where
  /-- `CSR_RD OFFSET` -/
  | csrRd (offset : BitVec 12)
  /-- `CSR_WR OFFSET` with its one data word -/
  | csrWr (offset : BitVec 12) (data : Word)
  /-- `PUSH N`; its `N × nch` data words stay on the audio port, because `nch` is read when the `PUSH` takes effect (R145) -/
  | push (n : Nat)
  /-- `CONS_READ` -/
  | consRead
  /-- `MOD_STEP` -/
  | modStep
  /-- `PRE_STEP c` -/
  | preStep (c : Chan)
  /-- `RSM_PUSH c` -/
  | rsmPush (c : Chan)
  /-- `MUX_STEP` -/
  | muxStep
  /-- `MONO_STEP` -/
  | monoStep
  /-- `ENC_STEP` -/
  | encStep
  /-- `FIFO_WRITE m` -/
  | fifoWrite (m : Nat)
  /-- `START_CHECK` -/
  | startCheck
  /-- `DMA_ADV` -/
  | dmaAdv
  /-- `HW_RESET` -/
  | hwReset
  deriving DecidableEq, Repr

end Sys2Proof
end

