-- ==== Sys2Proof/WellFormed.lean ====
section
/-! DEFINITION. Which operations the encoding admits, and which parameter values are legal. -/

namespace Sys2Proof

open Machine

/-- The operands of an operation fit their fields (30_encoding R145 `N` has 16 bits, R147 `m` has 24).
`OFFSET`, the data word and the channel have exactly the values their fields have. -/
abbrev Instr.WellFormed : Instr → Prop
  | .push n => n < 2 ^ 16
  | .fifoWrite m => m < 2 ^ 24
  | _ => True

/-- The legal range of the sizes of the memories (00_scope R7). -/
abbrev Config.LegalSizes (c : Config) : Prop :=
  2 ≤ c.cap ∧ c.cap ≤ 2 ^ 24 ∧ c.kDesc % 4 = 0 ∧ 8 ≤ c.kDesc ∧ c.kDesc ≤ 2 ^ 16 ∧
    1 ≤ c.payloadMax ∧ c.payloadMax ≤ 2 ^ 16 ∧ 1 ≤ c.taps ∧ c.taps ≤ 16 ∧ 1 ≤ c.phases ∧ c.phases ≤ 256

/-- The legal range of the real-valued parameters (00_scope R7). -/
abbrev Config.LegalReals (c : Config) : Prop :=
  fFinite c.tau ∧ fLt fZero c.tau ∧ fFinite c.muxGain ∧ fFinite c.pilotGain ∧ fFinite c.encGain ∧
    fFinite c.encAlpha ∧ fFinite c.encBeta ∧ fFinite c.pipeLat

/-- The legal range of the encoder's period and of the divider table's layout (00_scope R7). -/
abbrev Config.LegalTables (c : Config) : Prop :=
  2 ≤ c.encPeriod ∧ c.encPeriod ≤ 2 ^ 16 ∧ c.encPeriod % 8 = 0 ∧ c.encHalf = c.encPeriod / 2 ∧
    4 ≤ c.divN ∧ c.divN ≤ 2 ^ 16 ∧ 1 ≤ c.center ∧ c.center + 3 ≤ c.divN ∧ c.divStep ≤ 1

/-- Every parameter lies in the legal range of 00_scope R7. -/
abbrev Config.Legal (c : Config) : Prop := c.LegalSizes ∧ c.LegalReals ∧ c.LegalTables

end Sys2Proof
end

