-- ==== Sys2Proof/Decode.lean ====
section
/-! DEFINITION. Decoding of operation words on the two ports and of the words that name internal steps
(30_encoding R142 to R151), and the encoder, written from the same rules. -/

namespace Sys2Proof

/-- The field of bits `hi` down to `lo`, as an unsigned integer (00_scope R10, 30_encoding R149). -/
def field (w : Word) (hi lo : Nat) : Nat := w.toNat / 2 ^ lo % 2 ^ (hi - lo + 1)

/-- `CLASS`, bits [31:28] (R142). -/
def classOf (w : Word) : Nat := field w 31 28

/-- `OP`, bits [27:24] (R142). -/
def opOf (w : Word) : Nat := field w 27 24

/-- `ARG`, bits [23:0] (R142). -/
def argOf (w : Word) : Nat := field w 23 0

/-- What an `ILLEGAL` word is framed as (R150). -/
inductive Framing where
  | none
  | csrRd
  | csrWr
  | push
  deriving DecidableEq, Repr

/-- The verdict of R150 on one word of a port. -/
inductive Verdict where
  | csrRd (offset : BitVec 12)
  | csrWr (offset : BitVec 12)
  | push (n : Nat)
  | illegal (k : Framing)
  deriving DecidableEq, Repr

/-- `decode(port, w)` of R150. -/
def decodePort (p : Port) (w : Word) : Verdict :=
  match p with
  | .control =>
    if classOf w = 0x1 ∧ opOf w = 0x0 then
      (if field w 23 12 ≠ 0 then .illegal .csrRd else .csrRd (BitVec.ofNat 12 (field w 11 0)))
    else if classOf w = 0x1 ∧ opOf w = 0x1 then
      (if field w 23 12 ≠ 0 then .illegal .csrWr else .csrWr (BitVec.ofNat 12 (field w 11 0)))
    else .illegal .none
  | .audio =>
    if classOf w = 0x2 ∧ opOf w = 0x0 then
      (if field w 23 16 ≠ 0 then .illegal .push else .push (field w 15 0))
    else .illegal .none

/-- Why a word is no operation. -/
inductive Reject where
  /-- there is no word -/
  | noWord
  /-- a `CSR_WR` word without its data word -/
  | noData
  /-- a reserved `CLASS` (R143) -/
  | reservedClass
  /-- a reserved `OP` of its class (R144 to R148) -/
  | reservedOp
  /-- reserved `ARG` bits that are not 0 (R151) -/
  | reservedArg
  deriving DecidableEq, Repr

/-- The operation named by a word of class 8, 9 or E, which no port carries (R146 to R148). -/
def decodeInternal (w : Word) : Except Reject Instr :=
  let plain (i : Instr) : Except Reject Instr := if argOf w = 0 then .ok i else .error .reservedArg
  let perChan (f : Chan → Instr) : Except Reject Instr :=
    if field w 23 1 ≠ 0 then .error .reservedArg
    else .ok (f (if field w 0 0 = 0 then .ch0 else .ch1))
  if classOf w = 0x8 then
    (if opOf w = 0x0 then plain .consRead
     else if opOf w = 0x1 then plain .modStep
     else .error .reservedOp)
  else if classOf w = 0x9 then
    (if opOf w = 0x0 then perChan .preStep
     else if opOf w = 0x1 then perChan .rsmPush
     else if opOf w = 0x2 then plain .muxStep
     else if opOf w = 0x3 then plain .monoStep
     else if opOf w = 0x4 then plain .encStep
     else if opOf w = 0x5 then .ok (.fifoWrite (argOf w))
     else if opOf w = 0x6 then plain .startCheck
     else .error .reservedOp)
  else if classOf w = 0xE then
    (if opOf w = 0x0 then plain .dmaAdv
     else if opOf w = 0x1 then plain .hwReset
     else .error .reservedOp)
  else .error .reservedClass

/-- The operation a verdict of a port stands for, with the words after it. -/
def fromVerdict (w : Word) (rest : List Word) : Verdict → Except Reject (Instr × List Word)
  | .csrRd off => .ok (.csrRd off, rest)
  | .csrWr off =>
    match rest with
    | [] => .error .noData
    | d :: rest' => .ok (.csrWr off d, rest')
  | .push n => .ok (.push n, rest)
  | .illegal .none => .error (if classOf w = 0x1 ∨ classOf w = 0x2 then .reservedOp else .reservedClass)
  | .illegal _ => .error .reservedArg

/-- The operation at the head of a list of words, whatever agent takes it, with the words after it: the port of a word of
class 1 or 2 is the one that carries that class (R143). The data words of a `PUSH` are among the words after it. -/
def decode : List Word → Except Reject (Instr × List Word)
  | [] => .error .noWord
  | w :: rest =>
    if classOf w = 0x1 then fromVerdict w rest (decodePort .control w)
    else if classOf w = 0x2 then fromVerdict w rest (decodePort .audio w)
    else (decodeInternal w).map fun i => (i, rest)

/-- An operation word from its three fields (R142). -/
def opWord (cls op arg : Nat) : Word := BitVec.ofNat 32 (cls * 2 ^ 28 + op * 2 ^ 24 + arg)

/-- The number a channel has in `ARG[0]` (R147). -/
def Chan.toNat : Chan → Nat
  | .ch0 => 0
  | .ch1 => 1

/-- The words of an operation (R144 to R148), without the data words of a `PUSH`. -/
def encode : Instr → List Word
  | .csrRd off => [opWord 0x1 0x0 off.toNat]
  | .csrWr off d => [opWord 0x1 0x1 off.toNat, d]
  | .push n => [opWord 0x2 0x0 n]
  | .consRead => [opWord 0x8 0x0 0]
  | .modStep => [opWord 0x8 0x1 0]
  | .preStep c => [opWord 0x9 0x0 c.toNat]
  | .rsmPush c => [opWord 0x9 0x1 c.toNat]
  | .muxStep => [opWord 0x9 0x2 0]
  | .monoStep => [opWord 0x9 0x3 0]
  | .encStep => [opWord 0x9 0x4 0]
  | .fifoWrite m => [opWord 0x9 0x5 m]
  | .startCheck => [opWord 0x9 0x6 0]
  | .dmaAdv => [opWord 0xE 0x0 0]
  | .hwReset => [opWord 0xE 0x1 0]

/-- A row of the opcode map of R153: a word matches it when `(word & mask) = pattern`. -/
structure OpcodeRow where
  mnemonic : String
  pattern : Word
  mask : Word
  deriving DecidableEq, Repr

/-- The opcode map (R153). -/
def opcodeMap : List OpcodeRow :=
  [⟨"CSR_RD", 0x10000000#32, 0xFFFFF000#32⟩,
   ⟨"CSR_WR", 0x11000000#32, 0xFFFFF000#32⟩,
   ⟨"PUSH", 0x20000000#32, 0xFFFF0000#32⟩,
   ⟨"CONS_READ", 0x80000000#32, 0xFFFFFFFF#32⟩,
   ⟨"MOD_STEP", 0x81000000#32, 0xFFFFFFFF#32⟩,
   ⟨"PRE_STEP", 0x90000000#32, 0xFFFFFFFE#32⟩,
   ⟨"RSM_PUSH", 0x91000000#32, 0xFFFFFFFE#32⟩,
   ⟨"MUX_STEP", 0x92000000#32, 0xFFFFFFFF#32⟩,
   ⟨"MONO_STEP", 0x93000000#32, 0xFFFFFFFF#32⟩,
   ⟨"ENC_STEP", 0x94000000#32, 0xFFFFFFFF#32⟩,
   ⟨"FIFO_WRITE", 0x95000000#32, 0xFF000000#32⟩,
   ⟨"START_CHECK", 0x96000000#32, 0xFFFFFFFF#32⟩,
   ⟨"DMA_ADV", 0xE0000000#32, 0xFFFFFFFF#32⟩,
   ⟨"HW_RESET", 0xE1000000#32, 0xFFFFFFFF#32⟩]

/-- The mnemonic of an operation (R153). -/
def Instr.mnemonic : Instr → String
  | .csrRd _ => "CSR_RD"
  | .csrWr _ _ => "CSR_WR"
  | .push _ => "PUSH"
  | .consRead => "CONS_READ"
  | .modStep => "MOD_STEP"
  | .preStep _ => "PRE_STEP"
  | .rsmPush _ => "RSM_PUSH"
  | .muxStep => "MUX_STEP"
  | .monoStep => "MONO_STEP"
  | .encStep => "ENC_STEP"
  | .fifoWrite _ => "FIFO_WRITE"
  | .startCheck => "START_CHECK"
  | .dmaAdv => "DMA_ADV"
  | .hwReset => "HW_RESET"

/-- The bytes of a word on a platform bus: byte `b` is bits `[8b+7:8b]` (20_memory R105). -/
def wordBytes (w : Word) : List Byte :=
  [w.extractLsb' 0 8, w.extractLsb' 8 8, w.extractLsb' 16 8, w.extractLsb' 24 8]

/-- The words of a list of bytes in the byte order of 20_memory R105; a last group of fewer than four bytes is no word. -/
def bytesWords : List Byte → List Word
  | b0 :: b1 :: b2 :: b3 :: rest => (b3 ++ b2 ++ b1 ++ b0) :: bytesWords rest
  | _ => []

/-- The operation in a list of bytes, as a platform bus lays its words out (20_memory R105). -/
def decodeBytes (bs : List Byte) : Except Reject (Instr × List Word) := decode (bytesWords bs)

/-- The two words whose bits the opcode table numbers from bit 0 of the first word on, the bits from `nbits` on zero. -/
def tableWords (nbits w : Nat) : List Word :=
  [BitVec.ofNat 32 (w % 2 ^ nbits), BitVec.ofNat 32 (w % 2 ^ nbits / 2 ^ 32)]

/-- The operation this decoder reads from the bits `w` of the opcode table's numbering. -/
def decodeTableWord (nbits w : Nat) : Option Instr :=
  match decodeBytes ((tableWords nbits w).flatMap wordBytes) with
  | .ok (i, _) => some i
  | .error _ => none

end Sys2Proof
end

