-- ==== Sys2Proof/Machine/State.lean ====
section
/-! DEFINITION. The state of the block (10_state), of its environment (46_modulator R324, 47_host_interface R340), and its
value at reset (70_reset_and_hazards R422). -/

namespace Sys2Proof.Machine

/-- The per-channel state of the pre-emphasis filter and of the resampler (10_state R32, R33). -/
structure Channel where
  /-- `S.last[c]`, the channel's last input sample -/
  last : F32
  /-- `S.hist[c][0..Q-1]`, the newest last -/
  hist : List F32
  /-- `S.t[c]`, the time-to-next-output accumulator -/
  t : F32
  deriving DecidableEq, Repr

/-- The datapath state (10_state R32 to R35): what an accepted change of `CTRL[3:0]` reinitialises (47_host_interface R345). -/
structure Datapath where
  ch0 : Channel
  ch1 : Channel
  /-- `S.mux_state`, 3 bits -/
  muxState : Fin 8
  /-- `S.enc_phase`, in `[0, ENC_PERIOD)` -/
  encPhase : Nat
  /-- `S.cursor`, in `[0, 8 × PAYLOAD_MAX)` -/
  cursor : Nat
  /-- `S.sym`, 1 bit -/
  sym : Bool
  /-- `S.level` -/
  level : F32
  deriving DecidableEq, Repr

/-- The ring buffer (10_state R36): cursors in `[0, CAP)` and the `FIFO` memory.
The memory lists exactly the entries a ring write has written since reset, addresses rising. -/
structure Ring where
  ipos : Nat
  opos : Nat
  fifo : List (Nat × F32)
  deriving DecidableEq, Repr

/-- `S.cphase` (10_state R38). -/
inductive Phase where
  | idle
  | proc
  deriving DecidableEq, Repr

/-- The consumer sequencer (10_state R38). -/
structure Consumer where
  phase : Phase
  /-- `S.cidx` -/
  cidx : Nat
  /-- `S.clen` -/
  clen : Nat
  /-- `S.cbuf[0..CAP-2]`: the entries that are not `+0.0`, addresses rising -/
  cbuf : List (Nat × F32)
  deriving DecidableEq, Repr

/-- The modulator (10_state R39) and the `SLOT` memory (10_state R40). -/
structure Modulator where
  /-- `S.ferr` -/
  ferr : F32
  /-- `S.te` -/
  te : F32
  /-- `S.slot_ptr`, a multiple of 4 in `[0, K_DESC)` -/
  slotPtr : Nat
  /-- the words of `SLOT` that are not 0, addresses rising -/
  slot : List (Nat × Word)
  deriving DecidableEq, Repr

/-- The stored bits of `CTRL` (10_state R44). Bits [30:6] are reserved and bit 31 reads 0. -/
structure Ctrl where
  stereoEn : Bool
  resampEn : Bool
  encEn : Bool
  nch2 : Bool
  cal : Bool
  run : Bool
  deriving DecidableEq, Repr

/-- The stored bits of `STATUS` (10_state R45). Bits 2 and 6 are views of `S.started` and `S.cphase`. -/
structure Status where
  ovr : Bool
  unr : Bool
  modSat : Bool
  cfgErr : Bool
  fatal : Bool
  deriving DecidableEq, Repr

/-- The stored control and status registers (10_state R42), each with the bits it holds. -/
structure Csrs where
  ctrl : Ctrl
  status : Status
  irqEn : BitVec 7
  cause : Word
  delay : BitVec 24
  chunk : BitVec 24
  srcRate : Word
  ratio : F32
  cps : F32
  modIndex : F32
  payloadLen : BitVec 17
  payloadAddr : Word
  ovrCnt : Word
  unrCnt : Word
  satCnt : Word
  deriving DecidableEq, Repr

/-- The response of a port operation (30_encoding R152). -/
structure Response where
  err : Bool
  data : Word
  deriving DecidableEq, Repr

/-- Whose turn comes next in the total order (20_memory R112; log entry 2). -/
inductive Turn where
  /-- the control port takes the next operation of its word stream -/
  | control
  /-- the audio port takes the next operation of its word stream -/
  | audio
  /-- the consumer, the datapath, the DMA environment or reset takes the step this word names (30_encoding R140) -/
  | internal (w : Word)
  deriving DecidableEq, Repr

/-- What stands outside the block: the DMA controller's place, the words the hosts have put on the ports, the order of turns,
the last responses, and the operand and result latches of a datapath operation that runs as a step of its own. -/
structure Env where
  /-- `DMA_CUR` (46_modulator R324) -/
  dmaCur : Nat
  /-- the turns still to come, the next one first (log entry 2) -/
  sched : List Turn
  /-- the words waiting on the control port, the next one first -/
  ctlIn : List Word
  /-- the words waiting on the audio port, the next one first -/
  audIn : List Word
  /-- the response to the latest control-port operation -/
  ctlOut : Option Response
  /-- the response to the latest audio-port operation -/
  audOut : Option Response
  /-- the operands handed to a class-9 operation: operand `j` of it, `+0.0` where not listed (log entry 3) -/
  args : List (Nat × F32)
  /-- the result samples of the latest class-9 operation (log entry 3) -/
  res : List F32
  /-- the result of the latest `FIFO_WRITE` that ran as a step of its own: true is `DROPPED` (log entry 3) -/
  dropped : Bool
  /-- how many resets there have been: it only makes the unspecified `FIFO` contents fresh at each one (log entry 4) -/
  resets : Nat
  deriving DecidableEq, Repr

/-- The machine: the instance's parameters, the block's state, and its environment. -/
structure State where
  /-- the parameters of this instance (00_scope R7), which no step changes (log entry 1) -/
  cfg : Config
  dp : Datapath
  ring : Ring
  /-- `S.started` (10_state R37) -/
  started : Bool
  /-- `S.latched_n`, 0 when no length is latched (10_state R37) -/
  latchedN : Nat
  cons : Consumer
  mod : Modulator
  csr : Csrs
  /-- the bytes of `PAYLOAD` that are not 0, addresses rising (20_memory R100) -/
  payload : List Host.Cell
  env : Env
  deriving DecidableEq, Repr

/-- The ways the machine stops on a state that no run of the block reaches (log entry 11). -/
inductive Fault where
  /-- `MOD_STEP` would read `S.cbuf` at or past its `CAP - 1` entries. 10_state R64 item 6 rules it out. Safe. -/
  | cbufRange
  /-- `MOD_STEP` would write past the `K_DESC` words of `SLOT`. 10_state R64 item 4 rules it out. Safe. -/
  | slotRange
  /-- `ENC_STEP`, alone or within a `PUSH`, would start outside its precondition `S.cursor < 8 × PAYLOAD_LEN` with
  `PAYLOAD_LEN <= PAYLOAD_MAX` (44_data_encoder R260). 10_state R64 item 5 rules it out. Safe. -/
  | cursorRange
  deriving DecidableEq, Repr

/-- The ways the model gives no meaning. -/
inductive Refusal where
  /-- raised by `exec` for an operation without a meaning; no operation of this model is one. Safe. -/
  | notModelled (mnemonic : String)
  /-- raised by `step` when a turn names an internal step by a word that names none: 30_encoding R143 and R146 to R148 give
  such a word no operation, and no port carries it (log entry 18). Safe. -/
  | noSuchStep (w : Word)
  deriving DecidableEq, Repr

/-- A channel at reset (70_reset_and_hazards R422). -/
def Channel.reset (cfg : Config) : Channel :=
  { last := 0x00000000#32, hist := List.replicate cfg.taps 0x00000000#32, t := 0x3F800000#32 }

/-- The datapath state at reset and after a change of `CTRL[3:0]` (70_reset_and_hazards R422, 47_host_interface R345). -/
def Datapath.reset (cfg : Config) : Datapath :=
  { ch0 := Channel.reset cfg, ch1 := Channel.reset cfg, muxState := 0, encPhase := 0, cursor := 0, sym := false,
    level := 0x00000000#32 }

def Ring.reset : Ring := { ipos := 0, opos := 0, fifo := [] }

def Consumer.reset : Consumer := { phase := .idle, cidx := 0, clen := 0, cbuf := [] }

def Modulator.reset : Modulator := { ferr := 0x00000000#32, te := 0x00000000#32, slotPtr := 0, slot := [] }

/-- The registers at reset (10_state R42, reset column). -/
def Csrs.reset : Csrs :=
  { ctrl := ⟨false, false, false, false, false, false⟩, status := ⟨false, false, false, false, false⟩, irqEn := 0, cause := 0,
    delay := 0, chunk := 1, srcRate := 0, ratio := 0x3F800000#32, cps := 0x00000000#32, modIndex := 0x3F800000#32,
    payloadLen := 0, payloadAddr := 0, ovrCnt := 0, unrCnt := 0, satCnt := 0 }

/-- The environment before anything has been asked of the block. -/
def Env.reset : Env :=
  { dmaCur := 0, sched := [], ctlIn := [], audIn := [], ctlOut := none, audOut := none, args := [], res := [],
    dropped := false, resets := 0 }

/-- Every element of the block at its reset value (70_reset_and_hazards R422), beside a given environment. -/
def State.resetBlock (cfg : Config) (env : Env) : State :=
  { cfg := cfg, dp := Datapath.reset cfg, ring := Ring.reset, started := false, latchedN := 0, cons := Consumer.reset,
    mod := Modulator.reset, csr := Csrs.reset, payload := [], env := env }

/-- The block of any parameters right after power-on reset. -/
def State.resetOf (cfg : Config) : State := State.resetBlock cfg Env.reset

/-- The block of the default parameters right after power-on reset (70_reset_and_hazards R422). -/
def State.reset : State := State.resetOf {}

end Sys2Proof.Machine
end

