-- ==== Sys2Proof/Machine/Ops.lean ====
section
/-! DEFINITION. The named operations over memories, events, responses and resets that the meanings are built from.
The block has no exceptions (60_exceptions R383): what takes their place, recording an event, refusing an operation and
halting, is here, each once. -/

namespace Sys2Proof.Machine

variable {α : Type}

/-! ### Memories: lists of (address, element) pairs, addresses strictly rising (20_memory R101) -/

/-- The element listed at address `i`. -/
def Memory.get? : List (Nat × α) → Nat → Option α
  | [], _ => none
  | (j, v) :: m, i => if i = j then some v else Memory.get? m i

/-- List `v` at address `i`. -/
def Memory.put : List (Nat × α) → Nat → α → List (Nat × α)
  | [], i, v => [(i, v)]
  | (j, u) :: m, i, v =>
    if i < j then (i, v) :: (j, u) :: m
    else if i = j then (i, v) :: m
    else (j, u) :: Memory.put m i v

/-- List nothing at address `i`. -/
def Memory.del : List (Nat × α) → Nat → List (Nat × α)
  | [], _ => []
  | (j, u) :: m, i => if i = j then m else (j, u) :: Memory.del m i

/-- `MemRead` of a memory whose unlisted addresses read as `d`. -/
def Memory.read (d : α) (m : List (Nat × α)) (i : Nat) : α := (Memory.get? m i).getD d

/-- `MemWrite` of a memory whose unlisted addresses read as `d`: writing `d` takes the entry out of the list. -/
def Memory.write [DecidableEq α] (d : α) (m : List (Nat × α)) (i : Nat) (v : α) : List (Nat × α) :=
  if v = d then Memory.del m i else Memory.put m i v

/-- The listed addresses rise strictly, all of them above `lo` when one is given. -/
def Memory.rising : Option Nat → List (Nat × α) → Bool
  | _, [] => true
  | lo, (j, _) :: m => lo.all (· < j) && Memory.rising (some j) m

/-- The canonical form: addresses rise strictly, and no entry equals what an unlisted address reads as (`none` where an
unlisted address holds nothing that a write could equal, as in the `FIFO` memory). -/
def Memory.wf [DecidableEq α] (d : Option α) (m : List (Nat × α)) : Bool :=
  Memory.rising none m && m.all fun e => d ≠ some e.2

/-- `MemWrite(space, (base + i) mod size, v[i])` for the elements of a list in turn, each listed as written. -/
def Memory.putRing (size : Nat) : List (Nat × α) → Nat → List α → List (Nat × α)
  | m, _, [] => m
  | m, base, v :: vs => Memory.putRing size (Memory.put m (base % size) v) (base + 1) vs

/-- `MemWrite(space, base + i, v[i])` for the elements of a list in turn. -/
def Memory.writeFrom [DecidableEq α] (d : α) : List (Nat × α) → Nat → List α → List (Nat × α)
  | m, _, [] => m
  | m, base, v :: vs => Memory.writeFrom d (Memory.write d m base v) (base + 1) vs

/-- Entry `i` of the `FIFO` memory; a free value where no ring write has written it since reset
(70_reset_and_hazards R423, log entry 4). -/
def fifoRead (s : State) (i : Nat) : F32 := Memory.read (Config.fifoUnwritten s.env.resets i) s.ring.fifo i

/-- Byte `i` of the `PAYLOAD` memory (20_memory R106). -/
def payloadRead (payload : List Host.Cell) (i : Nat) : Byte := Memory.read 0x00#8 payload i

/-- Word `i` of the `SLOT` memory (10_state R40). -/
def slotRead (s : State) (i : Nat) : Word := Memory.read 0#32 s.mod.slot i

/-- Entry `i` of `S.cbuf` (10_state R38). -/
def cbufRead (s : State) (i : Nat) : F32 := Memory.read fZero s.cons.cbuf i

/-! ### The ring's occupancy (45_fifo R280) -/

/-- `occ = (S.ipos - S.opos) mod CAP`. -/
def occupancy (s : State) : Nat := (((s.ring.ipos : Int) - s.ring.opos) % s.cfg.cap).toNat

/-- `free = CAP - 1 - occ`. -/
def freeSpace (s : State) : Nat := s.cfg.cap - 1 - occupancy s

/-! ### A stage over a block, one sample at a time -/

/-- Run a one-sample stage over a list in order, its state passed along; the results in order, and the last state. -/
def mapState {σ α β : Type} (f : σ → α → β × σ) : σ → List α → List β × σ
  | st, [] => ([], st)
  | st, x :: xs =>
    match f st x with
    | (y, st1) =>
      match mapState f st1 xs with
      | (ys, st2) => (y :: ys, st2)

/-! ### Events (60_exceptions) -/

/-- The cause codes of 60_exceptions R380. -/
inductive Code where
  | overrun | underrun | modSat | cfgIllegal | cfgLocked | fatalRate | fatalBlocklen | busMisaligned | illegalOp
  | pushNotRunning | pushBadLen | halted
  deriving DecidableEq, Repr

/-- The number of a code (60_exceptions R380). -/
def codeNum : Code → Nat
  | .overrun => 1
  | .underrun => 2
  | .modSat => 3
  | .cfgIllegal => 4
  | .cfgLocked => 5
  | .fatalRate => 6
  | .fatalBlocklen => 7
  | .busMisaligned => 8
  | .illegalOp => 9
  | .pushNotRunning => 10
  | .pushBadLen => 11
  | .halted => 12

/-- A code as the data of a response. -/
def codeWord (c : Code) : Word := BitVec.ofNat 32 (codeNum c)

/-- What `CAUSE` holds after an event: `(zext_32(info[15:0]) << 16) | code` (60_exceptions R382). -/
def causeWord (code : Code) (info : Nat) : Word := BitVec.ofNat 16 info ++ BitVec.ofNat 16 (codeNum code)

/-- `raise Event(code, info)` (60_exceptions R382). -/
def raiseEvent (code : Code) (info : Nat) (s : State) : State :=
  { s with csr := { s.csr with cause := causeWord code info } }

/-- An event counter after one more event (10_state R60). -/
def satInc (n : Word) : Word := if n = 0xFFFFFFFF#32 then n else n + 1#32

/-- Give a port's operation its response (30_encoding R152). -/
def respond (p : Port) (err : Bool) (data : Word) (s : State) : State :=
  match p with
  | .control => { s with env := { s.env with ctlOut := some ⟨err, data⟩ } }
  | .audio => { s with env := { s.env with audOut := some ⟨err, data⟩ } }

/-- Record a refusal: `CFG_ERR` and `CAUSE`, unless the block is halted (60_exceptions R381, R389). -/
def recordRefusal (code : Code) (info : Nat) (s : State) : State :=
  if s.csr.status.fatal then s
  else raiseEvent code info { s with csr := { s.csr with status := { s.csr.status with cfgErr := true } } }

/-- Refuse a port's operation: no effect but the recording, and the response `ERR = 1, DATA = code` (60_exceptions R388). -/
def refuse (p : Port) (code : Code) (info : Nat) (s : State) : State :=
  respond p true (codeWord code) (recordRefusal code info s)

/-- `halt(code, info)` (60_exceptions R389). -/
def halt (code : Code) (info : Nat) (s : State) : State :=
  raiseEvent code info
    { s with csr := { s.csr with status := { s.csr.status with fatal := true }, ctrl := { s.csr.ctrl with run := false } } }

/-- Enter the halted state for a port's operation, with the response `ERR = 1, DATA = code` (47_host_interface R348, R352). -/
def fatalStop (p : Port) (code : Code) (info : Nat) (s : State) : State :=
  respond p true (codeWord code) (halt code info s)

/-! ### Resets (70_reset_and_hazards) -/

/-- The soft reset: every element of the block at its reset value, `DMA_CUR` as it is (70_reset_and_hazards R421). -/
def softReset (s : State) : State := State.resetBlock s.cfg { s.env with resets := s.env.resets + 1 }

/-- The platform reset: the soft reset and `DMA_CUR <- 0` (70_reset_and_hazards R420). -/
def hardReset (s : State) : State := State.resetBlock s.cfg { s.env with resets := s.env.resets + 1, dmaCur := 0 }

/-- The datapath reinitialisation of 47_host_interface R345. -/
def reinitDatapath (s : State) : State := { s with dp := Datapath.reset s.cfg }

end Sys2Proof.Machine
end

