-- ==== Sys2Proof/Machine/Flags.lean ====
section
/-! DEFINITION. `CTRL`, `STATUS` and the interrupt line: the words software reads, and the flag updates (10_state R44 to R46,
60_exceptions R392). -/

namespace Sys2Proof.Machine

/-- `CTRL` as it reads: bits [5:0] as stored, the rest 0 (10_state R44, 47_host_interface R342). -/
def ctrlWord (c : Ctrl) : Word :=
  BitVec.zero 26 ++ BitVec.ofBool c.run ++ BitVec.ofBool c.cal ++ BitVec.ofBool c.nch2 ++ BitVec.ofBool c.encEn
    ++ BitVec.ofBool c.resampEn ++ BitVec.ofBool c.stereoEn

/-- The bits a write of `w` stores in `CTRL`: `CTRL[5:0] <- w[5:0]` (47_host_interface R345). -/
def ctrlOf (w : Word) : Ctrl :=
  { stereoEn := w.getLsbD 0, resampEn := w.getLsbD 1, encEn := w.getLsbD 2, nch2 := w.getLsbD 3, cal := w.getLsbD 4,
    run := w.getLsbD 5 }

/-- `CTRL[3:0]`, the datapath configuration (10_state R44). -/
def ctrlLow (c : Ctrl) : Bool × Bool × Bool × Bool := (c.stereoEn, c.resampEn, c.encEn, c.nch2)

/-- The number of channels of a `PUSH` (30_encoding R145). -/
def channels (c : Ctrl) : Nat := if c.nch2 then 2 else 1

/-- `STATUS.CONS_BUSY` (10_state R38). -/
def consBusy (s : State) : Bool := s.cons.phase == .proc

/-- Bit `i` of `STATUS` (10_state R45). -/
def statusBit (s : State) (i : Fin 7) : Bool :=
  #v[s.csr.status.ovr, s.csr.status.unr, s.started, s.csr.status.modSat, s.csr.status.cfgErr, s.csr.status.fatal,
     consBusy s][i]

/-- `STATUS` as it reads (10_state R45). -/
def statusWord (s : State) : Word :=
  BitVec.zero 25 ++ BitVec.ofBool (statusBit s 6) ++ BitVec.ofBool (statusBit s 5) ++ BitVec.ofBool (statusBit s 4)
    ++ BitVec.ofBool (statusBit s 3) ++ BitVec.ofBool (statusBit s 2) ++ BitVec.ofBool (statusBit s 1)
    ++ BitVec.ofBool (statusBit s 0)

/-- The stored bits of `STATUS` after a write of `w`: bits 0, 1, 3 and 4 clear on 1, the others stay (47_host_interface R345). -/
def statusClear (st : Status) (w : Word) : Status :=
  { st with
    ovr := st.ovr && !w.getLsbD 0
    unr := st.unr && !w.getLsbD 1
    modSat := st.modSat && !w.getLsbD 3
    cfgErr := st.cfgErr && !w.getLsbD 4 }

/-- The interrupt output: the OR of the enabled status bits (60_exceptions R392). -/
def irq (s : State) : Bool := (List.finRange 7).any fun i => statusBit s i && s.csr.irqEn.getLsbD i

end Sys2Proof.Machine
end

