-- ==== Sys2Proof/Machine/Operands.lean ====
section
/-! DEFINITION. The operand forms of the operations: register offsets, the legality of register values, the data words of a
`PUSH`, and the operands handed to a datapath operation. -/

namespace Sys2Proof.Machine

/-! ### Register offsets -/

/-- The register map (10_state R42): offset and register. -/
def csrMap : List (Nat × Csr) :=
  [(0x000, .id), (0x004, .ctrl), (0x008, .status), (0x00C, .irqEn), (0x010, .cause), (0x014, .occ), (0x018, .cap),
   (0x01C, .delay), (0x020, .chunk), (0x024, .srcRate), (0x028, .ratio), (0x02C, .cps), (0x030, .modIndex),
   (0x034, .payloadLen), (0x038, .payloadAddr), (0x03C, .payloadData), (0x040, .slotPtr), (0x044, .ovrCnt),
   (0x048, .unrCnt), (0x04C, .satCnt), (0x050, .paramQ), (0x054, .paramS), (0x058, .paramK), (0x05C, .paramPmax),
   (0x060, .paramDivn), (0x064, .paramCenter), (0x068, .blklen)]

/-- The register at an aligned offset; every offset the map does not name is reserved (10_state R63). -/
def csrAt (offset : BitVec 12) : Csr := Memory.read Csr.reserved csrMap offset.toNat

/-- An offset that is a multiple of 4 (20_memory R107). -/
def aligned (offset : BitVec 12) : Bool := offset.toNat % 4 == 0

/-- The base of the CSR window, a multiple of 4096 the platform chooses (20_memory R104). -/
def csrBase : Nat := 4096 * Config.csrPage

/-- The bus address of a register (20_memory R104). -/
def csrAddress (offset : BitVec 12) : Nat := csrBase + offset.toNat

/-- The offset of a bus address inside the CSR window; outside it the block has no register (20_memory R100, R104). -/
def csrOffset (addr : Nat) : Option (BitVec 12) :=
  if csrBase ≤ addr ∧ addr < csrBase + 4096 then some (BitVec.ofNat 12 (addr - csrBase)) else none

/-! ### Legal register values (47_host_interface R345, R347) -/

/-- `2^-7` -/
def fRatioMin : F32 := 0x3C000000#32

/-- `2^7` -/
def fRatioMax : F32 := 0x43000000#32

/-- `2^24` -/
def fCpsMax : F32 := 0x4B800000#32

def legalCtrl (w : Word) : Bool := !w.getLsbD 0 || w.getLsbD 3

def legalDelay (cfg : Config) (w : Word) : Bool := decide (w.toNat ≤ cfg.cap - 1)

def legalChunk (cfg : Config) (w : Word) : Bool := decide (1 ≤ w.toNat ∧ w.toNat ≤ cfg.cap - 1)

/-- A finite binary32 value from `2^-7` to `2^7` (10_state R53). -/
def legalRatio (w : Word) : Bool := fFinite w && fLe fRatioMin w && fLe w fRatioMax

/-- A finite binary32 value from `1.0` to `2^24` (10_state R54). -/
def legalCps (w : Word) : Bool := fFinite w && fLe fOne w && fLe w fCpsMax

/-- Any finite binary32 value (10_state R55). -/
def legalModIndex (w : Word) : Bool := fFinite w

def legalPayloadLen (cfg : Config) (w : Word) : Bool := decide (w.toNat ≤ cfg.payloadMax)

/-! ### The data words of a `PUSH` (30_encoding R145) -/

/-- How many data words follow a `PUSH` of `n` frames: `N × nch`. -/
def pushWords (s : State) (n : Nat) : Nat := n * channels s.csr.ctrl

/-- The samples of channel 0: the first `n` data words. -/
def pushLeft (s : State) (n : Nat) : List F32 := s.env.audIn.take n

/-- The samples of channel 1: the next `n` data words, when there are two channels. -/
def pushRight (s : State) (n : Nat) : List F32 := (s.env.audIn.take (pushWords s n)).drop n

/-- The state after a `PUSH` has consumed its data words, which it does even when refused (47_host_interface R350). -/
def dropPushWords (s : State) (n : Nat) : State :=
  { s with env := { s.env with audIn := s.env.audIn.drop (pushWords s n) } }

/-! ### The operands and results of a datapath operation that runs as a step of its own (log entry 3) -/

/-- Operand `j`. -/
def arg (s : State) (j : Nat) : F32 := Memory.read fZero s.env.args j

/-- The first `m` operands. -/
def argList (s : State) (m : Nat) : List F32 := (List.range m).map (arg s)

/-- The state with the result samples of the operation. -/
def setResult (res : List F32) (s : State) : State := { s with env := { s.env with res := res } }

/-- The state of one channel. -/
def chanOf (dp : Datapath) : Chan → Channel
  | .ch0 => dp.ch0
  | .ch1 => dp.ch1

/-- The datapath with one channel's state replaced. -/
def setChan (dp : Datapath) (c : Chan) (ch : Channel) : Datapath :=
  match c with
  | .ch0 => { dp with ch0 := ch }
  | .ch1 => { dp with ch1 := ch }

end Sys2Proof.Machine
end

