-- ==== Sys2Proof/Machine/Rom.lean ====
section
/-! DEFINITION. The read-only tables of 10_state R41: `PILOT`, `DOUBLE`, `SUB` and the sinc table `LUT`. No operation writes
them (20_memory R103), so they are functions of the parameters and no part of the state. -/

namespace Sys2Proof.Machine

/-- `sin(2π·s/8)` for `s = 0 .. 7` (43_stereo_mux R241, 44_data_encoder R262). -/
def sineTable : Vector F32 8 :=
  #v[0x00000000#32, 0x3F3504F3#32, 0x3F800000#32, 0x3F3504F3#32,
     0x00000000#32, 0xBF3504F3#32, 0xBF800000#32, 0xBF3504F3#32]

/-- `PILOT[s]`, the pilot sine (43_stereo_mux R241). -/
def pilot (s : Fin 8) : F32 := sineTable[s]

/-- `SUB[p]`, the data-subcarrier sine, entry for entry equal to `PILOT` (44_data_encoder R262). -/
def sub (p : Fin 8) : F32 := sineTable[p]

/-- `DOUBLE[s]`, the double-frequency sine `sin(2π·2s/8)` (43_stereo_mux R241). -/
def double (s : Fin 8) : F32 :=
  #v[0x00000000#32, 0x3F800000#32, 0x00000000#32, 0xBF800000#32,
     0x00000000#32, 0x3F800000#32, 0x00000000#32, 0xBF800000#32][s]

/-- `LUT[row]` for the default `Q = 5`, `S = 10`: the table printed in 42_resampler R226 (a row past 9 is never read). -/
def lutDefault (row : Nat) : List F32 :=
  match row with
  | 0 => [0x00000000#32, 0x00000000#32, 0x3F800000#32, 0x00000000#32, 0x00000000#32]
  | 1 => [0x3D3FDAE2#32, 0xBDB72263#32, 0x3F7BCF49#32, 0x3DDFD4B2#32, 0xBD540CDF#32]
  | 2 => [0x3DAE2BCD#32, 0xBE1FA827#32, 0x3F6F7C3A#32, 0x3E6F7C3A#32, 0xBDD4E033#32]
  | 3 => [0x3DE54D97#32, 0xBE4AD854#32, 0x3F5BBFB0#32, 0x3EBC5B29#32, 0xBE1B1DE6#32]
  | 4 => [0x3E012A44#32, 0xBE5D6D06#32, 0x3F41BF66#32, 0x3F012A44#32, 0xBE41BF66#32]
  | 5 => [0x3E026136#32, 0xBE594CAF#32, 0x3F22F983#32, 0x3F22F983#32, 0xBE594CAF#32]
  | 6 => [0x3DEE7569#32, 0xBE41BF66#32, 0x3F012A44#32, 0x3F41BF66#32, 0xBE5D6D06#32]
  | 7 => [0x3DC3550F#32, 0xBE1B1DE6#32, 0x3EBC5B29#32, 0x3F5BBFB0#32, 0xBE4AD854#32]
  | 8 => [0x3D88D946#32, 0xBDD4E033#32, 0x3E6F7C3A#32, 0x3F6F7C3A#32, 0xBE1FA827#32]
  | _ => [0x3D0AEDF3#32, 0xBD540CDF#32, 0x3DDFD4B2#32, 0x3F7BCF49#32, 0xBDB72263#32]

/-- `floor(π · 2^192)`, the digits of π (log entry 8). -/
def piFixed : Nat := 0x3243f6a8885a308d313198a2e03707344a4093822299f31d0

/-- The series of `sin` in fixed point with 192 fraction bits: `n` further terms from the term `term`, which is
`y^(k-1) / (k-1)!`, with `y2 = y²`; the terms alternate in sign. -/
def sinSeries (y2 : Nat) : Nat → Nat → Nat → Int
  | 0, _, _ => 0
  | n + 1, k, term => (term : Int) - sinSeries y2 n (k + 2) (term * y2 / 2 ^ 192 / (k * (k + 1)))

/-- `sin(π · num / den)` for `0 < num < den`, in fixed point with 192 fraction bits.
The angle is folded to `[0, π/2]`; 40 terms leave an error far below one unit. -/
def sinPiFixed (num den : Nat) : Nat :=
  let g := min num (den - num)
  let y := piFixed * g / den
  (sinSeries (y * y / 2 ^ 192) 40 2 y).toNat

/-- The binary32 value nearest `sinc(π·x)` for `x = num / den`, `den > 0` (42_resampler R226): 1 at 0, `+0.0` at the other
integers, and otherwise `sin(πx)/(πx)`, which is even in `x` and changes sign with each integer `|x|` passes (log entry 8). -/
def sincPi (num : Int) (den : Nat) : F32 :=
  let n := num.natAbs
  if n = 0 then fOne
  else if n % den = 0 then fZero
  else fPack (n / den % 2 == 1) (sinPiFixed (n % den) den * den * 2 ^ 149) (piFixed * n)

/-- `LUT[s][q] = sinc(π·x)` with `x = (Q - 1)/2 + s/S - q`, from the formula of 42_resampler R226. -/
def lutFormula (taps phases row tap : Nat) : F32 :=
  sincPi (((taps : Int) - 1) * phases + 2 * row - 2 * tap * phases) (2 * phases)

/-- `LUT[row]`, the `Q` entries of one row of the sinc table (10_state R41, 42_resampler R226): the printed table at the
default sizes, the formula at any other. -/
def lut (cfg : Config) (row : Nat) : List F32 :=
  if cfg.taps = 5 ∧ cfg.phases = 10 then lutDefault row
  else (List.range cfg.taps).map (lutFormula cfg.taps cfg.phases row)

end Sys2Proof.Machine
end

