-- ==== Sys2Proof/Machine/DataEncoder.lean ====
section
/-! DEFINITION. The subcarrier data encoder: `ENC_STEP` (44_data_encoder). -/

namespace Sys2Proof.Machine

/-- The encoder is active: `ENC_EN = 1` and `PAYLOAD_LEN >= 1` (44_data_encoder R261). -/
def encActive (csr : Csrs) : Bool := csr.ctrl.encEn && csr.payloadLen != 0

/-- The precondition of `ENC_STEP`: the cursor is inside the payload, and the payload inside its memory
(44_data_encoder R260, 10_state R56). -/
def encReady (cfg : Config) (csr : Csrs) (dp : Datapath) : Bool :=
  decide (csr.payloadLen.toNat ≤ cfg.payloadMax ∧ dp.cursor < 8 * csr.payloadLen.toNat)

/-- Payload bit `n`: bit `7 - (n mod 8)` of byte `floor(n / 8)` (20_memory R106). -/
def payloadBit (payload : List Host.Cell) (n : Nat) : Bool := (payloadRead payload (n / 8)).getLsbD (7 - n % 8)

/-- The bit fetch at phase 0; at every other phase the cursor and the symbol bit stay (44_data_encoder R260). -/
def encFetch (payload : List Host.Cell) (len : Nat) (dp : Datapath) : Datapath :=
  if dp.encPhase = 0 then
    { dp with cursor := (dp.cursor + 1) % (8 * len), sym := dp.sym ^^ payloadBit payload dp.cursor }
  else dp

/-- The symbol value of a phase: the symbol bit in the first Manchester half, its complement in the second; 1 is `+1.0` and 0
is `-1.0` (44_data_encoder R260). -/
def encSymbol (cfg : Config) (phase : Nat) (sym : Bool) : F32 :=
  if (if phase < cfg.encHalf then sym else !sym) then fOne else fNegOne

/-- The smoothed level after a symbol value (44_data_encoder R260, R265). -/
def encLevel (cfg : Config) (level sv : F32) : F32 := flAdd (flMul cfg.encAlpha level) (flMul cfg.encBeta sv)

/-- The composite sample with the subcarrier of a phase added (44_data_encoder R260). -/
def encAdd (cfg : Config) (phase : Nat) (level x : F32) : F32 :=
  flAdd x (flMul (flMul cfg.encGain level) (sub (Fin.ofNat 8 phase)))

/-- One composite sample (44_data_encoder R260). -/
def encStep (cfg : Config) (payload : List Host.Cell) (len : Nat) (dp : Datapath) (x : F32) : F32 × Datapath :=
  let f := encFetch payload len dp
  let level := encLevel cfg dp.level (encSymbol cfg dp.encPhase f.sym)
  (encAdd cfg dp.encPhase level x, { f with level := level, encPhase := (dp.encPhase + 1) % cfg.encPeriod })

/-- `ENC_STEP` as a step of its own, on operand 0 (44_data_encoder R260, log entry 3). While the encoder is not active the
sample passes unchanged and the encoder does not move (R261). -/
def execEncStep (s : State) : Host.Outcome State Fault Refusal :=
  if !encActive s.csr then .next (setResult [arg s 0] s)
  else if !encReady s.cfg s.csr s.dp then .fault .cursorRange
  else
    match encStep s.cfg s.payload s.csr.payloadLen.toNat s.dp (arg s 0) with
    | (y, dp) => .next (setResult [y] { s with dp := dp })

end Sys2Proof.Machine
end

