-- ==== Sys2Proof/Machine/PreEmphasis.lean ====
section
/-! DEFINITION. The pre-emphasis filter: `PRE_STEP` (41_preemphasis). -/

namespace Sys2Proof.Machine

/-- `den = fl(1.0 - k)` with `k = fl(fl32(SRC_RATE) × TAU)` (41_preemphasis R200). -/
def preDen (cfg : Config) (srcRate : Word) : F32 := flSub fOne (flMul (fl32 srcRate.toNat) cfg.tau)

/-- One sample of one channel: `y = fl(x + fl(fl(last - x) / den))`, and `last` becomes the input (41_preemphasis R200, R201). -/
def preStep (cfg : Config) (srcRate : Word) (ch : Channel) (x : F32) : F32 × Channel :=
  (flAdd x (flDiv (flSub ch.last x) (preDen cfg srcRate)), { ch with last := x })

/-- `PRE_STEP c` as a step of its own, on operand 0 (41_preemphasis R200, log entry 3). -/
def execPreStep (c : Chan) (s : State) : Host.Outcome State Fault Refusal :=
  match preStep s.cfg s.csr.srcRate (chanOf s.dp c) (arg s 0) with
  | (y, ch) => .next (setResult [y] { s with dp := setChan s.dp c ch })

end Sys2Proof.Machine
end

