-- ==== Sys2Proof/Machine/Resampler.lean ====
section
/-! DEFINITION. The sample-rate converter: `RSM_PUSH` (42_resampler). -/

namespace Sys2Proof.Machine

/-- The history after a new input: shifted left, the input last (42_resampler R220, R221). -/
def rsmShift (hist : List F32) (x : F32) : List F32 := hist.drop 1 ++ [x]

/-- The table row of a counter value: `min(max(floor(p), 0), S - 1)` with `p = fl(t × fl32(S))` (42_resampler R220, R223). -/
def rsmRow (cfg : Config) (t : F32) : Nat :=
  (min (max (fFloor (flMul t (fl32 cfg.phases))) 0) ((cfg.phases : Int) - 1)).toNat

/-- The dot product, one rounded product added at a time in increasing `q` (42_resampler R220, R224). -/
def rsmDot : F32 → List F32 → List F32 → F32
  | acc, h :: hs, l :: ls => rsmDot (flAdd acc (flMul h l)) hs ls
  | acc, _, _ => acc

/-- The most passes the loop of R220 makes from every counter and ratio the block can hold (42_resampler R222, log entry 6). -/
def rsmPasses : Nat := 128

/-- The loop of 42_resampler R220, `while t < 1.0`, cut after `n` passes: the outputs in order, and the last counter.
R222 gives at most 128 passes from every counter and ratio the block can hold (log entry 6).
DEDUCED: R222, R225 item 4 and R228 item 3 also bound the passes by `ceil(1 / RATIO)`, which fails under the rounding of R220's
additions; the pseudocode is followed (log entry 22). -/
def rsmLoop (cfg : Config) (ratio : F32) (hist : List F32) : Nat → F32 → List F32 × F32
  | 0, t => ([], t)
  | n + 1, t =>
    if fLt t fOne then
      match rsmLoop cfg ratio hist n (flAdd t ratio) with
      | (outs, t') => (rsmDot fZero hist (lut cfg (rsmRow cfg t)) :: outs, t')
    else ([], t)

/-- One input sample of one channel: its output samples, and the channel's state after it (42_resampler R220). -/
def rsmPush (cfg : Config) (ratio : F32) (ch : Channel) (x : F32) : List F32 × Channel :=
  match rsmLoop cfg ratio (rsmShift ch.hist x) rsmPasses (flSub ch.t fOne) with
  | (outs, t) => (outs, { ch with hist := rsmShift ch.hist x, t := t })

/-- `RSM_PUSH c` as a step of its own, on operand 0 (42_resampler R220, log entry 3). -/
def execRsmPush (c : Chan) (s : State) : Host.Outcome State Fault Refusal :=
  match rsmPush s.cfg s.csr.ratio (chanOf s.dp c) (arg s 0) with
  | (outs, ch) => .next (setResult outs { s with dp := setChan s.dp c ch })

end Sys2Proof.Machine
end

