-- ==== Sys2Proof/Machine/RingBuffer.lean ====
section
/-! DEFINITION. The ring buffer and the consumer's reads: `FIFO_WRITE`, `START_CHECK`, `CONS_READ` (45_fifo). -/

namespace Sys2Proof.Machine

/-- The ring after it has accepted the samples `zs` (45_fifo R281, R282). -/
def ringAccept (zs : List F32) (s : State) : State :=
  { s with
    ring :=
      { s.ring with
        ipos := (s.ring.ipos + zs.length) % s.cfg.cap
        fifo := Memory.putRing s.cfg.cap s.ring.fifo s.ring.ipos zs } }

/-- `overrun(m)` (45_fifo R283): counted always, and outside calibration flagged and recorded. -/
def overrun (m : Nat) (s : State) : State :=
  let s1 := { s with csr := { s.csr with ovrCnt := satInc s.csr.ovrCnt } }
  if s.csr.ctrl.cal then s1
  else raiseEvent .overrun (min m 0xFFFF)
    { s1 with csr := { s1.csr with status := { s1.csr.status with ovr := true } } }

/-- The ring write of a block of `m` samples, all or none: the state after it, and whether the block was dropped
(45_fifo R281). -/
def fifoWrite (m : Nat) (zs : List F32) (s : State) : State × Bool :=
  if m ≤ freeSpace s then (ringAccept zs s, false) else (overrun m s, true)

/-- The consumer's lazy start (45_fifo R285). -/
def startCheck (s : State) : State :=
  if !s.started && decide (s.csr.delay.toNat ≤ occupancy s) then { s with started := true } else s

/-- `underrun(occ)` (45_fifo R292). -/
def underrun (occ : Nat) (s : State) : State :=
  raiseEvent .underrun (min occ 0xFFFF)
    { s with csr := { s.csr with unrCnt := satInc s.csr.unrCnt, status := { s.csr.status with unr := true } } }

/-- When `CONS_READ` is enabled (45_fifo R290). -/
def consEnabled (s : State) : Bool :=
  s.cons.phase == .idle && s.csr.ctrl.run && s.started && !s.csr.status.fatal

/-- The `n` oldest samples of the ring (45_fifo R290, R291). -/
def ringOldest (n : Nat) (s : State) : List F32 :=
  (List.range n).map fun i => fifoRead s ((s.ring.opos + i) % s.cfg.cap)

/-- The ring read of `n` samples into the chunk buffer (45_fifo R290). -/
def ringRead (n : Nat) (s : State) : State :=
  { s with
    ring := { s.ring with opos := (s.ring.opos + n) % s.cfg.cap }
    cons := { s.cons with cbuf := Memory.writeFrom fZero s.cons.cbuf 0 (ringOldest n s) } }

/-- The consumer at the first sample of a chunk of `n` (45_fifo R290). -/
def beginChunk (n : Nat) (s : State) : State :=
  { s with cons := { s.cons with phase := .proc, cidx := 0, clen := n } }

/-- `FIFO_WRITE m` as a step of its own, on operands `0 .. m-1` (45_fifo R281, log entry 3). -/
def execFifoWrite (m : Nat) (s : State) : Host.Outcome State Fault Refusal :=
  match fifoWrite m (argList s m) s with
  | (t, dropped) => .next { t with env := { t.env with res := [], dropped := dropped } }

/-- `START_CHECK` as a step of its own (45_fifo R285, log entry 3). -/
def execStartCheck (s : State) : Host.Outcome State Fault Refusal := .next (setResult [] (startCheck s))

/-- `CONS_READ` (45_fifo R290): a hold when it is not enabled (60_exceptions R398). -/
def execConsRead (s : State) : Host.Outcome State Fault Refusal :=
  let n := s.csr.chunk.toNat
  if !consEnabled s then .next s
  else if n ≤ occupancy s then .next (beginChunk n (ringRead n s))
  else .next (beginChunk n (underrun (occupancy s) s))

end Sys2Proof.Machine
end

