-- ==== Sys2Proof/Machine/StereoMux.lean ====
section
/-! DEFINITION. The stereo multiplexer `MUX_STEP` and the mono path `MONO_STEP` (43_stereo_mux). -/

namespace Sys2Proof.Machine

/-- The composite sample of a frame at phase `st` (43_stereo_mux R240). -/
def muxOut (cfg : Config) (st : Fin 8) (l r : F32) : F32 :=
  let c := flMul (flSub l r) (double st)
  let h := flMul (flAdd (flAdd l r) c) fHalf
  flAdd (flMul cfg.muxGain h) (flMul cfg.pilotGain (pilot st))

/-- One frame of two channels: the composite sample, and the phase one further modulo 8 (43_stereo_mux R240, R242). -/
def muxStep (cfg : Config) (dp : Datapath) (frame : F32 × F32) : F32 × Datapath :=
  (muxOut cfg dp.muxState frame.1 frame.2, { dp with muxState := dp.muxState + 1 })

/-- One frame on the mono path (43_stereo_mux R245). -/
def monoStep (nch : Nat) (frame : F32 × F32) : F32 :=
  if nch = 1 then frame.1 else flMul (flAdd frame.1 frame.2) fHalf

/-- `MUX_STEP` as a step of its own, on operands 0 and 1 (43_stereo_mux R240, log entry 3). -/
def execMuxStep (s : State) : Host.Outcome State Fault Refusal :=
  match muxStep s.cfg s.dp (arg s 0, arg s 1) with
  | (y, dp) => .next (setResult [y] { s with dp := dp })

/-- `MONO_STEP` as a step of its own, on operands 0 and 1, with `nch` from `CTRL.NCH2` (43_stereo_mux R245, log entry 3). -/
def execMonoStep (s : State) : Host.Outcome State Fault Refusal :=
  .next (setResult [monoStep (channels s.csr.ctrl) (arg s 0, arg s 1)] s)

end Sys2Proof.Machine
end

