-- ==== Sys2Proof/Machine/BlockPush.lean ====
section
/-! DEFINITION. The block push on the audio port: `PUSH`, and what a port does with an `ILLEGAL` word
(47_host_interface R350 to R354, 30_encoding R150). -/

namespace Sys2Proof.Machine

/-- The pre-emphasis and the resampler of one channel over its block: the samples at the transmit rate, and the channel's
state (47_host_interface R350, 42_resampler R229). -/
def channelStage (s : State) (ch : Channel) (xs : List F32) : List F32 × Channel :=
  match mapState (preStep s.cfg s.csr.srcRate) ch xs with
  | (ys, ch1) =>
    if s.csr.ctrl.resampEn then
      match mapState (rsmPush s.cfg s.csr.ratio) ch1 ys with
      | (outs, ch2) => (outs.flatten, ch2)
    else (ys, ch1)

/-- The frames of a block: sample `j` of channel 0 beside sample `j` of channel 1, as many as channel 0 has.
With two channels both have the same number (10_state R64 item 3); where channel 1 has none, `+0.0` stands (log entry 12). -/
def frames : List F32 → List F32 → List (F32 × F32)
  | [], _ => []
  | l :: ls, rs => (l, rs.headD fZero) :: frames ls rs.tail

/-- The stereo multiplexer or the mono path over the frames of a block (47_host_interface R350). -/
def compositeStage (s : State) (dp : Datapath) (fs : List (F32 × F32)) : List F32 × Datapath :=
  if s.csr.ctrl.stereoEn then mapState (muxStep s.cfg) dp fs
  else (fs.map (monoStep (channels s.csr.ctrl)), dp)

/-- The data encoder over the composite samples of a block, when it is active (44_data_encoder R261). -/
def encoderStage (s : State) (dp : Datapath) (zs : List F32) : List F32 × Datapath :=
  if encActive s.csr then mapState (encStep s.cfg s.payload s.csr.payloadLen.toNat) dp zs else (zs, dp)

/-- The whole cascade of a block with channel samples `ls` and `rs`: the composite samples, and the datapath state
(47_host_interface R350). With one channel, channel 1 does not move (42_resampler R229). -/
def cascade (s : State) (ls rs : List F32) : List F32 × Datapath :=
  match channelStage s s.dp.ch0 ls with
  | (y0, c0) =>
    match (if s.csr.ctrl.nch2 then channelStage s s.dp.ch1 rs else ([], s.dp.ch1)) with
    | (y1, c1) =>
      match compositeStage s { s.dp with ch0 := c0, ch1 := c1 } (frames y0 y1) with
      | (zs, dp) => encoderStage s dp zs

/-- The data of the response to a `PUSH` that passed its checks (47_host_interface R353). -/
def pushData (dropped : Bool) (m : Nat) : Word := BitVec.ofBool dropped ++ BitVec.zero 7 ++ BitVec.ofNat 24 m

/-- A `PUSH` of `n` frames that has passed its checks (47_host_interface R350, R352): the cascade, the ring write, the lazy
start, the response. -/
def pushBlock (n : Nat) (ls rs : List F32) (s : State) : State :=
  match cascade s ls rs with
  | (zs, dp) =>
    match fifoWrite zs.length zs { s with dp := dp, latchedN := n } with
    | (t, dropped) => respond .audio false (pushData dropped zs.length) (startCheck t)

/-- The encoder can run when it is active (44_data_encoder R260, R261). -/
def encoderOk (s : State) : Bool := !encActive s.csr || encReady s.cfg s.csr s.dp

/-- `PUSH N` (47_host_interface R350), its checks in the order of R351. The data words are consumed whatever the checks say.
While fewer than `N × nch` words are on the port, the operation is not there yet and nothing happens (log entry 7). -/
def execPush (n : Nat) (s : State) : Host.Outcome State Fault Refusal :=
  let t := dropPushWords s n
  if s.env.audIn.length < pushWords s n then .next s
  else if s.csr.status.fatal then .next (refuse .audio .halted 0 t)
  else if !s.csr.ctrl.run then .next (refuse .audio .pushNotRunning 0 t)
  else if n = 0 then .next (refuse .audio .pushBadLen 0 t)
  else if s.latchedN ≠ 0 ∧ s.latchedN ≠ n then .next (fatalStop .audio .fatalBlocklen n t)
  else if !encoderOk s then .fault .cursorRange
  else .next (pushBlock n (pushLeft s n) (pushRight s n) t)

/-- How many data words an `ILLEGAL` word consumes: those of the operation it is framed as (30_encoding R150). -/
def illegalWords (s : State) (k : Framing) (w : Word) : Nat :=
  match k with
  | .none | .csrRd => 0
  | .csrWr => 1
  | .push => pushWords s (field w 15 0)

/-- An `ILLEGAL` word is refused with `ILLEGAL_OP` and `INFO = w[31:16]` (30_encoding R150). -/
def illegalOp (p : Port) (w : Word) (s : State) : State := refuse p .illegalOp (field w 31 16) s

end Sys2Proof.Machine
end

