-- ==== Sys2Proof/Machine/Modulator.lean ====
section
/-! DEFINITION. The delta-sigma FM modulator `MOD_STEP` and the DMA environment's `DMA_ADV` (46_modulator).
Each variable of the pseudocode of R310 is a function of the state the step starts in. -/

namespace Sys2Proof.Machine

/-- `v = S.cbuf[S.cidx]` -/
def modV (s : State) : F32 := cbufRead s s.cons.cidx

/-- Step 1: `fl(fl(v × MOD_INDEX) + S.ferr)`, before the test for an infinity or a NaN (R311). -/
def modVpRaw (s : State) : F32 := flAdd (flMul (modV s) s.csr.modIndex) s.mod.ferr

/-- `vp`: `+0.0` in place of an infinity or a NaN (R315 bit 0). -/
def modVp (s : State) : F32 := if fFinite (modVpRaw s) then modVpRaw s else fZero

/-- Step 2: `round(vp)`, before the clamp (R312). -/
def modIvRaw (s : State) : Int := fRound (modVp s)

/-- `n` clamped into `[lo, hi]`, the lower bound first. -/
def clampInt (lo hi n : Int) : Int :=
  if hi < (if n < lo then lo else n) then hi else (if n < lo then lo else n)

/-- `iv`: clamped into `[IV_MIN, IV_MAX]` (R315 bit 1). -/
def modIv (s : State) : Int := clampInt s.cfg.ivMin s.cfg.ivMax (modIvRaw s)

/-- Step 3: `fl(fl(fl(vp - fl32(iv)) + 1.0) × 0.5)`, before the clamp (R313). -/
def modFracRaw (s : State) : F32 := flMul (flAdd (flSub (modVp s) (fl32 (modIv s))) fOne) fHalf

/-- `frac`: clamped into `[0, 1]` (R315 bit 2). -/
def modFrac (s : State) : F32 :=
  if fLt (modFracRaw s) fZero then fZero else if fLt fOne (modFracRaw s) then fOne else modFracRaw s

/-- Step 4: `round(fl(frac × cps))`, before the clamp (R314). -/
def modFvRaw (s : State) : Int := fRound (flMul (modFrac s) s.csr.cps)

/-- Step 5: `S.te` after the step (R314). -/
def modTe (s : State) : F32 := flAdd (flSub s.mod.te (fl32 (fFloor s.mod.te))) s.csr.cps

/-- `ft = floor(S.te)` (R314). -/
def modFt (s : State) : Int := fFloor (modTe s)

/-- `fv`: at most `ft` (R315 bit 3). -/
def modFv (s : State) : Int := if modFt s < modFvRaw s then modFt s else modFvRaw s

/-- Step 6: `S.ferr` after the step (R316). -/
def modFerr (s : State) : F32 :=
  let t2 := flSub fOne (flDiv s.cfg.pipeLat s.csr.cps)
  let t4 := flDiv (flMul (fl32 (modFv s)) t2) s.csr.cps
  flMul fTwo (flSub (modFrac s) t4)

/-- The saturation mask (R315). -/
def modSat (s : State) : Nat :=
  (if fFinite (modVpRaw s) then 0 else 1)
    + (if modIvRaw s < s.cfg.ivMin ∨ s.cfg.ivMax < modIvRaw s then 2 else 0)
    + (if fLt (modFracRaw s) fZero || fLt fOne (modFracRaw s) then 4 else 0)
    + (if modFt s < modFvRaw s then 8 else 0)

/-- Step 7: the four words of the slot (R317). -/
def slotWords (s : State) : List Word :=
  [BitVec.ofInt 32 (s.cfg.center + modIv s + s.cfg.divStep), BitVec.ofInt 32 (modFv s),
   BitVec.ofInt 32 (s.cfg.center + modIv s - s.cfg.divStep), BitVec.ofInt 32 (modFt s - modFv s)]

/-- When `MOD_STEP` is enabled (R310): a chunk is being fed, the block is not halted, `CPS` has been written, and `DMA_CUR` is
outside the slot. -/
def modEnabled (s : State) : Bool :=
  s.cons.phase == .proc && !s.csr.status.fatal && fLe fOne s.csr.cps
    && !decide (s.mod.slotPtr ≤ s.env.dmaCur ∧ s.env.dmaCur ≤ s.mod.slotPtr + 3)

/-- The modulator after the step (R310, R318). -/
def modAdvance (s : State) : Modulator :=
  { ferr := modFerr s
    te := modTe s
    slotPtr := (s.mod.slotPtr + 4) % s.cfg.kDesc
    slot := Memory.writeFrom 0#32 s.mod.slot s.mod.slotPtr (slotWords s) }

/-- The consumer after a sample has been fed (R319). -/
def consAdvance (c : Consumer) : Consumer :=
  { c with cidx := c.cidx + 1, phase := if c.cidx + 1 = c.clen then .idle else c.phase }

/-- The saturation event (R315). -/
def saturated (sat : Nat) (s : State) : State :=
  raiseEvent .modSat sat
    { s with csr := { s.csr with satCnt := satInc s.csr.satCnt, status := { s.csr.status with modSat := true } } }

/-- The whole effect of an enabled `MOD_STEP` (R310). -/
def modCommit (s : State) : State :=
  let t := { s with mod := modAdvance s, cons := consAdvance s.cons }
  if modSat s = 0 then t else saturated (modSat s) t

/-- `MOD_STEP` (46_modulator R310): a hold when it is not enabled (60_exceptions R398). -/
def execModStep (s : State) : Host.Outcome State Fault Refusal :=
  if !modEnabled s then .next s
  else if s.cfg.cap - 1 ≤ s.cons.cidx then .fault .cbufRange
  else if s.cfg.kDesc < s.mod.slotPtr + 4 then .fault .slotRange
  else .next (modCommit s)

/-- `DMA_ADV` (46_modulator R325). -/
def execDmaAdv (s : State) : Host.Outcome State Fault Refusal :=
  .next { s with env := { s.env with dmaCur := (s.env.dmaCur + 1) % s.cfg.kDesc } }

/-- The word the DMA controller reads from `SLOT`: that of the descriptor `DMA_CUR` designates (20_memory R102, 46_modulator
R326, which excludes prefetch: log entry 14). -/
def dmaReads (s : State) : Word := slotRead s s.env.dmaCur

end Sys2Proof.Machine
end

