-- ==== Sys2Proof/Machine/Registers.lean ====
section
/-! DEFINITION. Register access on the control port: `CSR_RD` and `CSR_WR` (47_host_interface R341 to R349). -/

namespace Sys2Proof.Machine

/-- The value of a register as it reads (10_state R42 to R63). -/
def csrValue (r : Csr) (s : State) : Word :=
  match r with
  | .id => 0x4A50464D#32
  | .ctrl => ctrlWord s.csr.ctrl
  | .status => statusWord s
  | .irqEn => s.csr.irqEn.setWidth 32
  | .cause => s.csr.cause
  | .occ => (BitVec.ofNat 24 (occupancy s)).setWidth 32
  | .cap => BitVec.ofNat 32 s.cfg.cap
  | .delay => s.csr.delay.setWidth 32
  | .chunk => s.csr.chunk.setWidth 32
  | .srcRate => s.csr.srcRate
  | .ratio => s.csr.ratio
  | .cps => s.csr.cps
  | .modIndex => s.csr.modIndex
  | .payloadLen => s.csr.payloadLen.setWidth 32
  | .payloadAddr => s.csr.payloadAddr
  | .payloadData =>
    if s.csr.payloadAddr.toNat < s.cfg.payloadMax then
      (payloadRead s.payload s.csr.payloadAddr.toNat).setWidth 32
    else 0#32
  | .slotPtr => (BitVec.ofNat 16 s.mod.slotPtr).setWidth 32
  | .ovrCnt => s.csr.ovrCnt
  | .unrCnt => s.csr.unrCnt
  | .satCnt => s.csr.satCnt
  | .paramQ => BitVec.ofNat 32 s.cfg.taps
  | .paramS => BitVec.ofNat 32 s.cfg.phases
  | .paramK => BitVec.ofNat 32 s.cfg.kDesc
  | .paramPmax => BitVec.ofNat 32 s.cfg.payloadMax
  | .paramDivn => BitVec.ofNat 32 s.cfg.divN
  | .paramCenter => BitVec.ofNat 32 s.cfg.center
  | .blklen => (BitVec.ofNat 17 s.latchedN).setWidth 32
  | .reserved => 0#32

/-- The one read side effect: a read of `PAYLOAD_DATA` at a pointer inside the memory advances the pointer
(10_state R58, 20_memory R109). -/
def csrReadEffect (r : Csr) (s : State) : State :=
  if r = .payloadData ∧ s.csr.payloadAddr.toNat < s.cfg.payloadMax then
    { s with csr := { s.csr with payloadAddr := s.csr.payloadAddr + 1#32 } }
  else s

/-- `CSR_RD OFFSET` (47_host_interface R342). -/
def execCsrRd (offset : BitVec 12) (s : State) : Host.Outcome State Fault Refusal :=
  if !aligned offset then .next (refuse .control .busMisaligned offset.toNat s)
  else .next (respond .control false (csrValue (csrAt offset) s) (csrReadEffect (csrAt offset) s))

/-- What the row of a register in 47_host_interface R345 makes of a write. -/
inductive WriteResult where
  | accepted (s : State)
  | refused (c : Code)
  | fatal (c : Code)
  deriving DecidableEq, Repr

/-- The checks of a register that must be legal and is locked while running, in their order (R345, R346, R347). -/
def checkedWrite (legal : Bool) (locked : Bool) (t : State) : WriteResult :=
  if !legal then .refused .cfgIllegal
  else if locked then .refused .cfgLocked
  else .accepted t

/-- The checks of a rate register: legal, and fatal when it changes while running (R345, R347, R348). -/
def rateWrite (legal : Bool) (changedWhileRunning : Bool) (t : State) : WriteResult :=
  if !legal then .refused .cfgIllegal
  else if changedWhileRunning then .fatal .fatalRate
  else .accepted t

/-- A write of `CTRL` with bit 31 clear (R345): `CTRL[5:0]` is stored, and a change of `CTRL[3:0]` reinitialises the datapath. -/
def writeCtrl (w : Word) (s : State) : State :=
  let t := { s with csr := { s.csr with ctrl := ctrlOf w } }
  if ctrlLow (ctrlOf w) = ctrlLow s.csr.ctrl then t else reinitDatapath t

/-- The row of a register in 47_host_interface R345. -/
def csrWrite (r : Csr) (w : Word) (s : State) : WriteResult :=
  let run := s.csr.ctrl.run
  match r with
  | .ctrl =>
    if w.getLsbD 31 then .accepted (softReset s)
    else checkedWrite (legalCtrl w) (run && decide (ctrlLow (ctrlOf w) ≠ ctrlLow s.csr.ctrl)) (writeCtrl w s)
  | .status => .accepted { s with csr := { s.csr with status := statusClear s.csr.status w } }
  | .irqEn => .accepted { s with csr := { s.csr with irqEn := w.setWidth 7 } }
  | .cause => .accepted { s with csr := { s.csr with cause := 0#32 } }
  | .delay => checkedWrite (legalDelay s.cfg w) run { s with csr := { s.csr with delay := w.setWidth 24 } }
  | .chunk => checkedWrite (legalChunk s.cfg w) run { s with csr := { s.csr with chunk := w.setWidth 24 } }
  | .srcRate =>
    rateWrite true (run && decide (w ≠ s.csr.srcRate)) { s with csr := { s.csr with srcRate := w } }
  | .ratio =>
    rateWrite (legalRatio w) (run && decide (w ≠ s.csr.ratio)) { s with csr := { s.csr with ratio := w } }
  | .cps => checkedWrite (legalCps w) false { s with csr := { s.csr with cps := w } }
  | .modIndex => checkedWrite (legalModIndex w) false { s with csr := { s.csr with modIndex := w } }
  | .payloadLen =>
    checkedWrite (legalPayloadLen s.cfg w) run
      { s with csr := { s.csr with payloadLen := w.setWidth 17 }, dp := { s.dp with cursor := 0 } }
  | .payloadAddr => .accepted { s with csr := { s.csr with payloadAddr := w } }
  | .payloadData =>
    checkedWrite (decide (s.csr.payloadAddr.toNat < s.cfg.payloadMax)) run
      { s with
        payload := Memory.write 0x00#8 s.payload s.csr.payloadAddr.toNat (w.setWidth 8)
        csr := { s.csr with payloadAddr := s.csr.payloadAddr + 1#32 } }
  | .id | .occ | .cap | .slotPtr | .ovrCnt | .unrCnt | .satCnt | .paramQ | .paramS | .paramK | .paramPmax | .paramDivn
  | .paramCenter | .blklen | .reserved => .accepted s

/-- A `CTRL` write whose bit 31 is 1: the only write a halted block accepts (47_host_interface R341, 60_exceptions R389). -/
def isSoftReset (offset : BitVec 12) (w : Word) : Bool := csrAt offset == .ctrl && w.getLsbD 31

/-- `CSR_WR OFFSET, w` (47_host_interface R344), its checks in the order of R341. -/
def execCsrWr (offset : BitVec 12) (w : Word) (s : State) : Host.Outcome State Fault Refusal :=
  if !aligned offset then .next (refuse .control .busMisaligned offset.toNat s)
  else if s.csr.status.fatal && !isSoftReset offset w then .next (refuse .control .halted offset.toNat s)
  else
    match csrWrite (csrAt offset) w s with
    | .accepted t => .next (respond .control false 0#32 t)
    | .refused c => .next (refuse .control c offset.toNat s)
    | .fatal c => .next (fatalStop .control c offset.toNat s)

end Sys2Proof.Machine
end

