-- ==== Sys2Proof/Machine/Reset.lean ====
section
/-! DEFINITION. `HW_RESET` (70_reset_and_hazards R420). The soft reset is a `CTRL` write (Registers.lean). -/

namespace Sys2Proof.Machine

/-- `HW_RESET`: enabled in every state; no response and no event (70_reset_and_hazards R420). -/
def execHwReset (s : State) : Host.Outcome State Fault Refusal := .next (hardReset s)

end Sys2Proof.Machine
end

