-- ==== Sys2Proof/Machine/Dispatch.lean ====
section
/-! DEFINITION. The meaning of every operation of the opcode table, one arm each. -/

namespace Sys2Proof.Machine

def exec (i : Instr) (s : State) : Host.Outcome State Fault Refusal :=
  match i with
  | .csrRd offset => Sys2Proof.Machine.execCsrRd offset s
  | .csrWr offset data => Sys2Proof.Machine.execCsrWr offset data s
  | .push n => Sys2Proof.Machine.execPush n s
  | .consRead => Sys2Proof.Machine.execConsRead s
  | .modStep => Sys2Proof.Machine.execModStep s
  | .preStep c => Sys2Proof.Machine.execPreStep c s
  | .rsmPush c => Sys2Proof.Machine.execRsmPush c s
  | .muxStep => Sys2Proof.Machine.execMuxStep s
  | .monoStep => Sys2Proof.Machine.execMonoStep s
  | .encStep => Sys2Proof.Machine.execEncStep s
  | .fifoWrite m => Sys2Proof.Machine.execFifoWrite m s
  | .startCheck => Sys2Proof.Machine.execStartCheck s
  | .dmaAdv => Sys2Proof.Machine.execDmaAdv s
  | .hwReset => Sys2Proof.Machine.execHwReset s

end Sys2Proof.Machine
end

