-- ==== Sys2Proof/Machine/Fetch.lean ====
section
/-! DEFINITION. Taking the next operation of the total order (20_memory R112, 30_encoding R140 to R151): whose turn it is, the
words that agent has, and what they decode to. -/

namespace Sys2Proof.Machine

/-- What the agent whose turn it is does. -/
inductive Fetched where
  /-- it takes this operation, in this state (its words taken, its turn over) -/
  | run (i : Instr) (s : State)
  /-- its port refuses this word, in this state (the words it consumes taken, its turn over) -/
  | illegal (p : Port) (w : Word) (s : State)
  /-- its port has no complete operation yet: its turn is over, and nothing else happens (log entry 7) -/
  | idle (s : State)
  /-- the turn names an internal step by a word that names none (log entry 18) -/
  | noSuchStep (w : Word)
  deriving DecidableEq, Repr

/-- The word of the consumer sequencer's only step in its phase (45_fifo R288). -/
def consumerWord (s : State) : Word :=
  match s.cons.phase with
  | .idle => 0x80000000#32
  | .proc => 0x81000000#32

/-- An internal step named by its word. -/
def fetchInternal (w : Word) (s : State) : Fetched :=
  match decodeInternal w with
  | .ok i => .run i s
  | .error _ => .noSuchStep w

/-- The next operation of the control port. -/
def fetchControl (s : State) : Fetched :=
  match s.env.ctlIn with
  | [] => .idle s
  | w :: rest =>
    match decodePort .control w with
    | .csrRd off => .run (.csrRd off) { s with env := { s.env with ctlIn := rest } }
    | .csrWr off =>
      match rest with
      | [] => .idle s
      | d :: rest' => .run (.csrWr off d) { s with env := { s.env with ctlIn := rest' } }
    | .push _ => .idle s
    | .illegal k =>
      if rest.length < illegalWords s k w then .idle s
      else .illegal .control w { s with env := { s.env with ctlIn := rest.drop (illegalWords s k w) } }

/-- The next operation of the audio port. The data words of a `PUSH` stay on the port for its meaning to take. -/
def fetchAudio (s : State) : Fetched :=
  match s.env.audIn with
  | [] => .idle s
  | w :: rest =>
    match decodePort .audio w with
    | .push n =>
      if rest.length < pushWords s n then .idle s
      else .run (.push n) { s with env := { s.env with audIn := rest } }
    | .csrRd _ => .idle s
    | .csrWr _ => .idle s
    | .illegal k =>
      if rest.length < illegalWords s k w then .idle s
      else .illegal .audio w { s with env := { s.env with audIn := rest.drop (illegalWords s k w) } }

/-- The next operation of the total order. Once no turn is given, the consumer sequencer has every turn: an operation of it that
stays enabled is eventually taken (70_reset_and_hazards R446, log entry 2). -/
def fetch (s : State) : Fetched :=
  match s.env.sched with
  | [] => fetchInternal (consumerWord s) s
  | .control :: rest => fetchControl { s with env := { s.env with sched := rest } }
  | .audio :: rest => fetchAudio { s with env := { s.env with sched := rest } }
  | .internal w :: rest => fetchInternal w { s with env := { s.env with sched := rest } }

/-- The data words of zeros that follow the word `w` on the port that carries its class, so that it is a whole operation. -/
def zeroData (s : State) (w : Word) : List Word :=
  if classOf w = 0x2 then List.replicate (pushWords s (field w 15 0)) 0#32 else []

/-- The state with the operation in the words `w :: d :: …` put where the next step takes it (log entry 2): a word of class 1 or
2 on its port with that port's turn next, a word of class 8, 9 or E as the next internal step, any other on the control port. -/
def placeWords (s : State) (w d : Word) : State :=
  if classOf w = 0x2 then
    { s with env := { s.env with sched := .audio :: s.env.sched, audIn := w :: (zeroData s w ++ s.env.audIn) } }
  else if classOf w = 0x8 ∨ classOf w = 0x9 ∨ classOf w = 0xE then
    { s with env := { s.env with sched := .internal w :: s.env.sched } }
  else
    { s with
      env :=
        { s.env with
          sched := .control :: s.env.sched
          ctlIn := w :: ((if classOf w = 0x1 ∧ opOf w = 0x1 then [d] else []) ++ s.env.ctlIn) } }

end Sys2Proof.Machine
end

