-- ==== Sys2Proof/Machine/Step.lean ====
section
/-! DEFINITION. One step of the machine: the next operation of the total order, decoded and performed (20_memory R112). -/

namespace Sys2Proof.Machine

/-- One step: the agent whose turn it is takes its next operation, atomically (20_memory R112). -/
def step (s : State) : Host.Outcome State Fault Refusal :=
  match fetch s with
  | .run i t => exec i t
  | .illegal p w t => .next (illegalOp p w t)
  | .idle t => .next t
  | .noSuchStep w => .refused (.noSuchStep w)

/-- The state whose very next step takes the operation with the bits `w` of the opcode table's numbering (log entry 2). -/
def State.withFetchWord (s : State) (nbits w : Nat) : State :=
  placeWords s (BitVec.ofNat 32 (w % 2 ^ nbits)) (BitVec.ofNat 32 (w % 2 ^ nbits / 2 ^ 32))

end Sys2Proof.Machine
end

