-- ==== Sys2Proof/Machine/Assembler.lean ====
section
/-! DEFINITION. The assembler's names and pseudo-instructions (30_encoding R154, R155). No step reads them: a program is the
words the hosts put on the ports. -/

namespace Sys2Proof.Machine

/-- `f32(<decimal>)`: the binary32 value nearest `digits / 10^scale`, ties to even (R154). -/
def fDecimal (digits : Int) (scale : Nat) : F32 := fPack (decide (digits < 0)) (digits.natAbs * 2 ^ 149) (10 ^ scale)

/-- The assembler's mnemonic of an operation (R154). -/
def asmName : Instr → String
  | .csrRd _ => "csrr"
  | .csrWr _ _ => "csrw"
  | .push _ => "push"
  | .consRead => "cons.read"
  | .modStep => "mod.step"
  | .preStep _ => "pre.step"
  | .rsmPush _ => "rsm.push"
  | .muxStep => "mux.step"
  | .monoStep => "mono.step"
  | .encStep => "enc.step"
  | .fifoWrite _ => "fifo.write"
  | .startCheck => "start.check"
  | .dmaAdv => "dma.adv"
  | .hwReset => "hw.reset"

/-- The pseudo-instructions of R155. -/
inductive Pseudo where
  | run (cfg : Word)
  | stop (cfg : Word)
  | srst
  | clrstatus (mask : Word)
  | clrcause
  | setcps (x : F32)
  | loadpayload (bytes : List Byte)
  deriving DecidableEq, Repr

/-- The exact expansion of a pseudo-instruction (R155). -/
def expandPseudo : Pseudo → List Instr
  | .run cfg => [.csrWr 0x004#12 ((cfg &&& 0x1F#32) ||| 0x20#32)]
  | .stop cfg => [.csrWr 0x004#12 (cfg &&& 0x1F#32)]
  | .srst => [.csrWr 0x004#12 0x80000000#32]
  | .clrstatus mask => [.csrWr 0x008#12 mask]
  | .clrcause => [.csrWr 0x010#12 0#32]
  | .setcps x => [.csrWr 0x02C#12 x]
  | .loadpayload bs =>
    .csrWr 0x038#12 0#32 :: bs.map (fun b => .csrWr 0x03C#12 (b.setWidth 32))
      ++ [.csrWr 0x034#12 (BitVec.ofNat 32 bs.length)]

end Sys2Proof.Machine
end

