-- ==== Sys2Proof/Safety.lean ====
section
/-! DEFINITION. The terms claims about the machine use: the invariants of 10_state R64 with the ranges of 10_state R32 to R62,
the ring as a queue, and a `PUSH` as the datapath operations it performs. -/

namespace Sys2Proof.Machine

/-! ### Invariants -/

/-- Every listed address is below `n`: the memory has `n` elements (20_memory R100, R101). -/
abbrev Memory.below {α : Type} (n : Nat) (m : List (Nat × α)) : Prop := ∀ e ∈ m, e.1 < n

/-- Every memory is in canonical form and lists only its own addresses (20_memory R100). -/
abbrev InvMemories (s : State) : Prop :=
  Memory.wf none s.ring.fifo ∧ Memory.below s.cfg.cap s.ring.fifo ∧
    Memory.wf (some fZero) s.cons.cbuf ∧ Memory.below (s.cfg.cap - 1) s.cons.cbuf ∧
    Memory.wf (some 0#32) s.mod.slot ∧ Memory.below s.cfg.kDesc s.mod.slot ∧
    Memory.wf (some 0x00#8) s.payload ∧ Memory.below s.cfg.payloadMax s.payload

/-- The cursors of the ring (10_state R36), and R64 item 9: before the start the consumer is idle and has read nothing. -/
abbrev InvRing (s : State) : Prop :=
  s.ring.ipos < s.cfg.cap ∧ s.ring.opos < s.cfg.cap ∧
    (s.started = false → s.cons.phase = .idle ∧ s.ring.opos = 0)

/-- The consumer (10_state R38, R64 item 6): idle exactly when the whole chunk has been fed. -/
abbrev InvConsumer (s : State) : Prop :=
  s.cons.cidx ≤ s.cons.clen ∧ s.cons.clen ≤ s.cfg.cap - 1 ∧ (s.cons.phase = .idle ↔ s.cons.cidx = s.cons.clen)

/-- The slot pointer and `DMA_CUR` (10_state R39, R64 item 4, 46_modulator R324). -/
abbrev InvModulator (s : State) : Prop :=
  s.mod.slotPtr % 4 = 0 ∧ s.mod.slotPtr < s.cfg.kDesc ∧ s.env.dmaCur < s.cfg.kDesc

/-- The encoder's counters (10_state R35, R64 item 5) and the resampler's history lengths (10_state R33). -/
abbrev InvDatapath (s : State) : Prop :=
  s.dp.encPhase < s.cfg.encPeriod ∧ s.dp.cursor < 8 * s.cfg.payloadMax ∧
    (s.csr.payloadLen ≠ 0 → s.dp.cursor < 8 * s.csr.payloadLen.toNat) ∧
    s.dp.ch0.hist.length = s.cfg.taps ∧ s.dp.ch1.hist.length = s.cfg.taps

/-- The legal register values (10_state R44 to R56, R64 items 2, 7 and 8) and the latched length (10_state R37). -/
abbrev InvRegisters (s : State) : Prop :=
  (s.csr.ctrl.stereoEn = true → s.csr.ctrl.nch2 = true) ∧
    (s.csr.status.fatal = true → s.csr.ctrl.run = false) ∧
    s.csr.cause.extractLsb' 8 8 = 0#8 ∧
    s.csr.delay.toNat ≤ s.cfg.cap - 1 ∧ 1 ≤ s.csr.chunk.toNat ∧ s.csr.chunk.toNat ≤ s.cfg.cap - 1 ∧
    legalRatio s.csr.ratio = true ∧ (s.csr.cps = fZero ∨ legalCps s.csr.cps = true) ∧
    fFinite s.csr.modIndex = true ∧ s.csr.payloadLen.toNat ≤ s.cfg.payloadMax ∧ s.latchedN < 2 ^ 16

/-- What every reachable state satisfies, whatever the agents do (10_state R64 but for item 3). -/
abbrev BlockInv (s : State) : Prop :=
  s.cfg.Legal ∧ InvMemories s ∧ InvRing s ∧ InvConsumer s ∧ InvModulator s ∧ InvDatapath s ∧ InvRegisters s

/-- 10_state R64 item 3: with two channels, both resamplers have the same counter. -/
abbrev ChannelsInStep (s : State) : Prop := s.csr.ctrl.nch2 = true → s.dp.ch0.t = s.dp.ch1.t

/-- The counter of a resampler between two inputs (42_resampler R222): finite, at least `1.0`, and below `2^24`. -/
abbrev CounterInRange (t : F32) : Prop := fFinite t = true ∧ fLe fOne t = true ∧ fLt t fCpsMax = true

/-- Both resamplers' counters are in range (42_resampler R222). -/
abbrev InvCounters (s : State) : Prop := CounterInRange s.dp.ch0.t ∧ CounterInRange s.dp.ch1.t

/-- The sample-length accumulator `S.te` (46_modulator R314): finite, and from 0 to `2^24`. -/
abbrev InvAccumulator (s : State) : Prop :=
  fFinite s.mod.te = true ∧ fLe fZero s.mod.te = true ∧ fLe s.mod.te fCpsMax = true

/-- The operation is one of class 9, which only a `PUSH` performs (30_encoding R141). -/
def isDatapath : Instr → Bool
  | .preStep _ | .rsmPush _ | .muxStep | .monoStep | .encStep | .fifoWrite _ | .startCheck => true
  | _ => false

/-- The operation resets the block: `HW_RESET`, or an aligned write of `CTRL` with bit 31 set (70_reset_and_hazards R420, R421). -/
def isReset : Instr → Bool
  | .hwReset => true
  | .csrWr offset w => aligned offset && isSoftReset offset w
  | _ => false

/-- The next step is a reset (70_reset_and_hazards R420, R421). -/
def takesReset (s : State) : Bool :=
  match fetch s with
  | .run i _ => isReset i
  | _ => false

/-- The next step is a `MOD_STEP` that is enabled, and not a hold (46_modulator R310). -/
def performsModStep (s : State) : Bool :=
  match fetch s with
  | .run .modStep t => modEnabled t
  | _ => false

/-- The next turn is not a class-9 step: it is one an agent of 30_encoding R141 takes. -/
def agentTurn (s : State) : Bool :=
  match s.env.sched with
  | .internal w :: _ => classOf w != 0x9
  | _ => true

/-! ### The ring as a queue -/

/-- The samples written and not yet read, the oldest first (45_fifo R284, 20_memory R113). -/
def ringContents (s : State) : List F32 := ringOldest (occupancy s) s

/-- The first `n` entries of the chunk buffer. -/
def chunkBuffer (s : State) (n : Nat) : List F32 := (List.range n).map (cbufRead s)

/-! ### A `PUSH` as the datapath operations it performs (47_host_interface R350) -/

/-- The state with the given operands handed to a datapath operation. -/
def handArgs (xs : List F32) (s : State) : State :=
  { s with env := { s.env with args := Memory.writeFrom fZero [] 0 xs } }

/-- Perform a datapath operation on operands: its result samples, and the state after it. -/
def perform (i : Instr) (xs : List F32) (s : State) : Option (List F32 × State) :=
  match exec i (handArgs xs s) with
  | .next t => some (t.env.res, t)
  | _ => none

/-- Perform a datapath operation once for each of a list of operands, in order: all result samples, and the last state. -/
def performEach (i : Instr) : List (List F32) → State → Option (List F32 × State)
  | [], s => some ([], s)
  | xs :: rest, s =>
    match perform i xs s with
    | some (ys, t) =>
      match performEach i rest t with
      | some (zs, u) => some (ys ++ zs, u)
      | none => none
    | none => none

/-- Perform a datapath operation on each sample of a block when `b` holds, and otherwise pass the block unchanged. -/
def performIf (b : Bool) (i : Instr) (xs : List F32) (s : State) : Option (List F32 × State) :=
  if b then performEach i (xs.map fun x => [x]) s else some (xs, s)

/-- The datapath part of a `PUSH` by its operations, in the order of 47_host_interface R350: the composite samples, and the
state after the last `ENC_STEP`. -/
def cascadeByParts (ls rs : List F32) (s : State) : Option (List F32 × State) :=
  let c := s.csr.ctrl
  (performIf true (.preStep .ch0) ls s).bind fun (x0, s) =>
  (performIf c.nch2 (.preStep .ch1) (if c.nch2 then rs else []) s).bind fun (x1, s) =>
  (performIf c.resampEn (.rsmPush .ch0) x0 s).bind fun (y0, s) =>
  (performIf (c.resampEn && c.nch2) (.rsmPush .ch1) x1 s).bind fun (y1, s) =>
  (performEach (if c.stereoEn then .muxStep else .monoStep) ((frames y0 y1).map fun f => [f.1, f.2]) s).bind fun (zs, s) =>
  performIf (encActive s.csr) .encStep zs s

/-- A whole `PUSH` of `n` frames that passes its checks, by its operations (47_host_interface R350): the block's state, the
number of composite samples, and whether the ring dropped them. -/
def pushByParts (n : Nat) (ls rs : List F32) (s : State) : Option (State × Nat × Bool) :=
  (cascadeByParts ls rs { s with latchedN := n }).bind fun (zs, s) =>
  (perform (.fifoWrite zs.length) zs s).bind fun (_, s) =>
  (perform .startCheck [] s).map fun (_, t) => (t, zs.length, s.env.dropped)

/-- Two states that agree in everything but their environments. -/
def sameBlock (s t : State) : Prop := { s with env := t.env } = t

/-! ### Runs of one operation -/

/-- `ENC_STEP` performed on each sample of a list in order (44_data_encoder R264). -/
def encodeBlock (xs : List F32) (s : State) : Option (List F32 × State) := performEach .encStep (xs.map fun x => [x]) s

end Sys2Proof.Machine
end

