-- ==== Sys2Proof/Certificates/Slice0/Obligations.lean ====
section
/-! DEFINITION. The statements for the provers. Each docstring names the rules of spec/ it formalises. -/

open Sys2Proof Sys2Proof.Machine

/-! ### Encoding (30_encoding) -/

/-- 30_encoding R144 to R149: decoding the words of a well-formed operation gives the operation back, whatever words follow. -/
def Obligations.EncodedOperationsDecode : Prop :=
  ∀ (i : Instr) (rest : List Word), i.WellFormed → decode (encode i ++ rest) = .ok (i, rest)

/-- 30_encoding R144 to R149: words that decode to an operation are the operation's own words, and its operands fit their
fields: no bit of a word is dropped, and no word but an operation's own is read as it. -/
def Obligations.DecodedWordsAreTheirEncoding : Prop :=
  ∀ (ws rest : List Word) (i : Instr), decode ws = .ok (i, rest) → i.WellFormed ∧ encode i ++ rest = ws

/-- 30_encoding R144 to R148: a few words written out from their bit fields. -/
def Obligations.WrittenWordsDecode : Prop :=
  decodeTableWord 32 0x1000002C = some (.csrRd 0x02C#12) ∧
  decode [0x11000004#32, 0x80000000#32] = .ok (.csrWr 0x004#12 0x80000000#32, []) ∧
  decodeTableWord 32 0x20000200 = some (.push 512) ∧
  decodeTableWord 32 0x90000001 = some (.preStep .ch1) ∧
  decodeTableWord 32 0x95000007 = some (.fifoWrite 7) ∧
  decodeTableWord 32 0x81000000 = some .modStep ∧
  decodeTableWord 32 0xE1000000 = some .hwReset ∧
  decodeTableWord 32 0xE1000001 = none

/-- 30_encoding R153: no word matches two rows of the opcode map. -/
def Obligations.OpcodeRowsAreDisjoint : Prop :=
  opcodeMap.Pairwise fun a b => ∀ w : Word, ¬(w &&& a.mask = a.pattern ∧ w &&& b.mask = b.pattern)

/-- 30_encoding R150, R151: what each port makes of every word. An operation of the port has zero reserved bits; with other
reserved bits it is `ILLEGAL`, framed as that operation; every other word is `ILLEGAL` with no frame, words of classes 8, 9 and E
on both ports among them. -/
def Obligations.PortsRefuseOtherWords : Prop :=
  ∀ w : Word,
    let cls := w.extractLsb' 28 4
    let op := w.extractLsb' 24 4
    (cls = 0x1#4 → op = 0x0#4 → w.extractLsb' 12 12 = 0#12 → decodePort .control w = .csrRd (w.extractLsb' 0 12)) ∧
    (cls = 0x1#4 → op = 0x0#4 → w.extractLsb' 12 12 ≠ 0#12 → decodePort .control w = .illegal .csrRd) ∧
    (cls = 0x1#4 → op = 0x1#4 → w.extractLsb' 12 12 = 0#12 → decodePort .control w = .csrWr (w.extractLsb' 0 12)) ∧
    (cls = 0x1#4 → op = 0x1#4 → w.extractLsb' 12 12 ≠ 0#12 → decodePort .control w = .illegal .csrWr) ∧
    (¬(cls = 0x1#4 ∧ (op = 0x0#4 ∨ op = 0x1#4)) → decodePort .control w = .illegal .none) ∧
    (cls = 0x2#4 → op = 0x0#4 → w.extractLsb' 16 8 = 0#8 → decodePort .audio w = .push (w.extractLsb' 0 16).toNat) ∧
    (cls = 0x2#4 → op = 0x0#4 → w.extractLsb' 16 8 ≠ 0#8 → decodePort .audio w = .illegal .push) ∧
    (¬(cls = 0x2#4 ∧ op = 0x0#4) → decodePort .audio w = .illegal .none) ∧
    (∀ p, cls = 0x8#4 ∨ cls = 0x9#4 ∨ cls = 0xE#4 → decodePort p w = .illegal .none)

/-! ### One step -/

/-- 20_memory R112, 30_encoding R140 to R150: the agent whose turn it is performs the operation its words decode to; a port's
words are taken off the port (the data words of a `PUSH` by its meaning), and the turn is over. Once no turn is given the
consumer sequencer takes its only step (log entry 2). -/
def Obligations.StepRunsTheDecodedOperation : Prop :=
  ∀ (s : State) (turns : List Turn),
    (∀ off rest, s.env.sched = .control :: turns → s.env.ctlIn = encode (.csrRd off) ++ rest →
      step s = exec (.csrRd off) { s with env := { s.env with sched := turns, ctlIn := rest } }) ∧
    (∀ off d rest, s.env.sched = .control :: turns → s.env.ctlIn = encode (.csrWr off d) ++ rest →
      step s = exec (.csrWr off d) { s with env := { s.env with sched := turns, ctlIn := rest } }) ∧
    (∀ n rest, n < 2 ^ 16 → s.env.sched = .audio :: turns → s.env.audIn = encode (.push n) ++ rest →
      n * (if s.csr.ctrl.nch2 then 2 else 1) ≤ rest.length →
      step s = exec (.push n) { s with env := { s.env with sched := turns, audIn := rest } }) ∧
    (∀ i w, decodeInternal w = .ok i → s.env.sched = .internal w :: turns →
      step s = exec i { s with env := { s.env with sched := turns } }) ∧
    (s.env.sched = [] → step s = exec (if s.cons.phase = .idle then .consRead else .modStep) s)

/-- 30_encoding R150, 60_exceptions R381: an `ILLEGAL` word takes the data words of the operation it is framed as, is answered
with `ERR = 1, DATA = 9`, and records `ILLEGAL_OP` with `INFO = w[31:16]` unless the block is halted; nothing else changes.
(Whose turn it is and where words and responses stand is the model's: log entries 2 and 13.) -/
def Obligations.IllegalWordsAreRefused : Prop :=
  ∀ (s : State) (turns : List Turn) (w : Word) (rest : List Word) (k : Framing),
    let frame := s.csr.ctrl.nch2
    let words := match k with | .none => 0 | .csrRd => 0 | .csrWr => 1 | .push => field w 15 0 * (if frame then 2 else 1)
    let csr := if s.csr.status.fatal then s.csr
      else { s.csr with
        status := { s.csr.status with cfgErr := true }
        cause := BitVec.ofNat 32 (field w 31 16 * 2 ^ 16 + 9) }
    words ≤ rest.length →
    (s.env.sched = .control :: turns → s.env.ctlIn = w :: rest → decodePort .control w = .illegal k →
      step s = .next { s with
        csr := csr
        env := { s.env with sched := turns, ctlIn := rest.drop words, ctlOut := some ⟨true, 9#32⟩ } }) ∧
    (s.env.sched = .audio :: turns → s.env.audIn = w :: rest → decodePort .audio w = .illegal k →
      step s = .next { s with
        csr := csr
        env := { s.env with sched := turns, audIn := rest.drop words, audOut := some ⟨true, 9#32⟩ } })

/-! ### Pre-emphasis (41_preemphasis) -/

/-- 41_preemphasis R200: the output of `PRE_STEP`, operation by operation, the channel's last input, and nothing else; its word,
which no port takes.
(Where the operation finds its operands and leaves its results is the model's: log entry 3.) -/
def Obligations.PreStepFollowsItsFormula : Prop :=
  ∀ (c : Chan) (s : State),
    let x := Memory.read fZero s.env.args 0
    let ch := match c with | .ch0 => s.dp.ch0 | .ch1 => s.dp.ch1
    let k := flMul (fl32 s.csr.srcRate.toNat) s.cfg.tau
    let den := flSub fOne k
    let d := flSub ch.last x
    let q := flDiv d den
    let y := flAdd x q
    let dp := match c with
      | .ch0 => { s.dp with ch0 := { s.dp.ch0 with last := x } }
      | .ch1 => { s.dp with ch1 := { s.dp.ch1 with last := x } }
    let w := match c with | .ch0 => 0x90000000#32 | .ch1 => 0x90000001#32
    encode (.preStep c) = [w] ∧ (∀ p, decodePort p w = .illegal .none) ∧
    exec (.preStep c) s = .next { s with dp := dp, env := { s.env with res := [y] } }

/-- 41_preemphasis R203: a finite input equal to the previous one comes out unchanged, where `1 - k` is a number other than
zero. For `x = -0` this needs `1 - k` negative, the case the rule's remark on signs is about.
(Where the operation finds its operands and leaves its results is the model's: log entry 3.) -/
def Obligations.PreStepPassesDcUnchanged : Prop :=
  ∀ (c : Chan) (s : State),
    let x := Memory.read fZero s.env.args 0
    let ch := match c with | .ch0 => s.dp.ch0 | .ch1 => s.dp.ch1
    let den := flSub fOne (flMul (fl32 s.csr.srcRate.toNat) s.cfg.tau)
    fFinite x = true → x = ch.last → fIsNaN den = false → fIsZero den = false →
    (x = 0x80000000#32 → fSign den = true) →
    ∃ t, exec (.preStep c) s = .next t ∧ t.env.res = [x]

/-! ### Resampler (42_resampler) -/

/-- 42_resampler R220 to R224: `RSM_PUSH` shifts the history, takes 1 from the counter, and runs its loop to the loop's own
end: `ts` are the counter values the loop sees, all but the last below `1.0`, each one `RATIO` further, and every pass emits
the dot product of the history with the table row of its counter. Nothing but the channel's history and counter changes.
The passes are at most 128; the rules' bound `ceil(1/RATIO)` fails under R220's rounding and is not claimed (log entry 22).
(Where the operation finds its operands and leaves its results is the model's: log entry 3.) -/
def Obligations.RsmPushRunsItsLoopToTheEnd : Prop :=
  ∀ (c : Chan) (s : State),
    let x := Memory.read fZero s.env.args 0
    let ch := match c with | .ch0 => s.dp.ch0 | .ch1 => s.dp.ch1
    let hist := ch.hist.drop 1 ++ [x]
    let row := fun t : F32 =>
      (min (max (fFloor (flMul t (fl32 s.cfg.phases))) 0) ((s.cfg.phases : Int) - 1)).toNat
    let dot := fun l : List F32 => (hist.zip l).foldl (fun acc p => flAdd acc (flMul p.1 p.2)) fZero
    CounterInRange ch.t → legalRatio s.csr.ratio = true →
    ∃ (ts : List F32) (last : F32),
      (ts ++ [last]).head? = some (flSub ch.t fOne) ∧
      List.IsChain (fun a b => b = flAdd a s.csr.ratio) (ts ++ [last]) ∧
      (∀ t ∈ ts, fLt t fOne = true) ∧ fLt last fOne = false ∧ ts.length ≤ 128 ∧
      exec (.rsmPush c) s = .next
        { s with
          dp := (match c with
            | .ch0 => { s.dp with ch0 := { s.dp.ch0 with hist := hist, t := last } }
            | .ch1 => { s.dp with ch1 := { s.dp.ch1 with hist := hist, t := last } })
          env := { s.env with res := ts.map fun t => dot (lut s.cfg (row t)) } }

/-- 42_resampler R225 item 1: with `RATIO = 1.0` and the counter at `1.0`, every input emits exactly one output and leaves the
counter at `1.0`.
(Where the operation finds its operands and leaves its results is the model's: log entry 3.) -/
def Obligations.RatioOneEmitsOneOutput : Prop :=
  ∀ (c : Chan) (s : State), s.csr.ratio = fOne →
    (match c with | .ch0 => s.dp.ch0 | .ch1 => s.dp.ch1).t = fOne →
    ∃ t y, exec (.rsmPush c) s = .next t ∧ t.env.res = [y] ∧
      (match c with | .ch0 => t.dp.ch0 | .ch1 => t.dp.ch1).t = fOne

/-- 42_resampler R225 item 2: with `RATIO = 2.0` and the counter at `1.0`, `n` inputs emit exactly `ceil(n/2)` outputs.
(Where the operation finds its operands and leaves its results is the model's: log entry 3.) -/
def Obligations.RatioTwoEmitsHalf : Prop :=
  ∀ (c : Chan) (s : State) (xs : List F32), s.csr.ratio = fTwo →
    (match c with | .ch0 => s.dp.ch0 | .ch1 => s.dp.ch1).t = fOne →
    ∃ ys t, performEach (.rsmPush c) (xs.map fun x => [x]) s = some (ys, t) ∧ ys.length = (xs.length + 1) / 2

/-- 42_resampler R222, 10_state R33: every step keeps both resamplers' counters finite, at least `1.0` and below `2^24`. -/
def Obligations.StepKeepsCountersInRange : Prop :=
  ∀ s t : State, BlockInv s → InvCounters s → step s = .next t → InvCounters t

/-! ### Stereo multiplexer and mono path (43_stereo_mux) -/

/-- 43_stereo_mux R240, R241: the composite sample of `MUX_STEP`, operation by operation, the phase one further modulo 8, and
nothing else; its word, which no port takes.
(Where the operation finds its operands and leaves its results is the model's: log entry 3.) -/
def Obligations.MuxStepFollowsItsFormula : Prop :=
  ∀ s : State,
    let l := Memory.read fZero s.env.args 0
    let r := Memory.read fZero s.env.args 1
    let st := s.dp.muxState
    let doubleSine := match st.val with
      | 0 => 0x00000000#32 | 1 => 0x3F800000#32 | 2 => 0x00000000#32 | 3 => 0xBF800000#32
      | 4 => 0x00000000#32 | 5 => 0x3F800000#32 | 6 => 0x00000000#32 | _ => 0xBF800000#32
    let pilotSine := match st.val with
      | 0 => 0x00000000#32 | 1 => 0x3F3504F3#32 | 2 => 0x3F800000#32 | 3 => 0x3F3504F3#32
      | 4 => 0x00000000#32 | 5 => 0xBF3504F3#32 | 6 => 0xBF800000#32 | _ => 0xBF3504F3#32
    let a := flAdd l r
    let b := flSub l r
    let c := flMul b doubleSine
    let d := flAdd a c
    let h := flMul d 0x3F000000#32
    let f := flMul s.cfg.muxGain h
    let g := flMul s.cfg.pilotGain pilotSine
    encode .muxStep = [0x92000000#32] ∧ (∀ p, decodePort p 0x92000000#32 = .illegal .none) ∧
    ∃ next : Fin 8, next.val = (st.val + 1) % 8 ∧
      exec .muxStep s = .next
        { s with dp := { s.dp with muxState := next }, env := { s.env with res := [flAdd f g] } }

/-- 43_stereo_mux R243: with identical channels of magnitude below `2^127` the cross term contributes nothing, bit for bit
(`-0` apart, whose sign the halved sum may lose).
(Where the operation finds its operands and leaves its results is the model's: log entry 3.) -/
def Obligations.MuxOfIdenticalChannelsIsGainAndPilot : Prop :=
  ∀ s : State,
    let l := Memory.read fZero s.env.args 0
    l = Memory.read fZero s.env.args 1 → l ≠ 0x80000000#32 → fExp l < 254 →
    ∃ t, exec .muxStep s = .next t ∧
      t.env.res = [flAdd (flMul s.cfg.muxGain l) (flMul s.cfg.pilotGain (pilot s.dp.muxState))]

/-- 43_stereo_mux R245: one channel passes bit for bit, two are averaged, and nothing but the result changes; its
word, which no port takes.
(Where the operation finds its operands and leaves its results is the model's: log entry 3.) -/
def Obligations.MonoStepFollowsItsFormula : Prop :=
  ∀ s : State,
    let l := Memory.read fZero s.env.args 0
    let r := Memory.read fZero s.env.args 1
    encode .monoStep = [0x93000000#32] ∧ (∀ p, decodePort p 0x93000000#32 = .illegal .none) ∧
    exec .monoStep s = .next
      { s with env := { s.env with
        res := [if s.csr.ctrl.nch2 = false then l else flMul (flAdd l r) 0x3F000000#32] } }

/-! ### Data encoder (44_data_encoder) -/

/-- 44_data_encoder R260, R262, 20_memory R106: while its precondition holds, `ENC_STEP` fetches a payload bit at phase 0, forms the
Manchester half, smooths the level, adds the subcarrier, and advances the phase; nothing else changes.
(Where the operation finds its operands and leaves its results is the model's: log entry 3.) -/
def Obligations.EncStepFollowsItsFormula : Prop :=
  ∀ s : State,
    let x := Memory.read fZero s.env.args 0
    let len := s.csr.payloadLen.toNat
    let n := s.dp.cursor
    let ph := s.dp.encPhase
    let bit := (payloadRead s.payload (n / 8)).getLsbD (7 - n % 8)
    let cursor := if ph = 0 then (n + 1) % (8 * len) else n
    let sym := if ph = 0 then s.dp.sym ^^ bit else s.dp.sym
    let e := if ph < s.cfg.encHalf then sym else !sym
    let sv := if e = true then 0x3F800000#32 else 0xBF800000#32
    let level := flAdd (flMul s.cfg.encAlpha s.dp.level) (flMul s.cfg.encBeta sv)
    let sine := match ph % 8 with
      | 0 => 0x00000000#32 | 1 => 0x3F3504F3#32 | 2 => 0x3F800000#32 | 3 => 0x3F3504F3#32
      | 4 => 0x00000000#32 | 5 => 0xBF3504F3#32 | 6 => 0xBF800000#32 | _ => 0xBF3504F3#32
    let y := flAdd x (flMul (flMul s.cfg.encGain level) sine)
    s.csr.ctrl.encEn = true → 1 ≤ len → len ≤ s.cfg.payloadMax → n < 8 * len →
    exec .encStep s = .next
      { s with
        dp := { s.dp with cursor := cursor, sym := sym, level := level, encPhase := (ph + 1) % s.cfg.encPeriod }
        env := { s.env with res := [y] } }

/-- 44_data_encoder R261: while the encoder is off or the payload is empty, the composite samples of a `PUSH` pass the encoder
unchanged and its state does not move. That an `ENC_STEP` taken as a step of its own then passes its sample and moves nothing is
the model's choice: R260 has a precondition and R261 speaks of a `PUSH` only (log entry 20).
(Where the operation finds its operands and leaves its results is the model's: log entry 3.) -/
def Obligations.InactiveEncoderPassesSamples : Prop :=
  ∀ (s : State) (dp : Datapath) (zs : List F32), s.csr.ctrl.encEn = false ∨ s.csr.payloadLen = 0 →
    encoderStage s dp zs = (zs, dp) ∧
    exec .encStep s = .next { s with env := { s.env with res := [Memory.read fZero s.env.args 0] } }

/-- 44_data_encoder R263, R264: `k` steps from phase 0 and cursor 0 leave the phase at `k mod ENC_PERIOD` and have fetched the
payload bits `0, 1, 2, …` one per symbol, in order and circularly; the symbol bit is the XOR of all bits fetched.
(Where the operation finds its operands and leaves its results is the model's: log entry 3.) -/
def Obligations.EncoderVisitsEveryPayloadBitInOrder : Prop :=
  ∀ (s : State) (xs : List F32),
    let len := s.csr.payloadLen.toNat
    let fetched := (xs.length + s.cfg.encPeriod - 1) / s.cfg.encPeriod
    s.csr.ctrl.encEn = true → 1 ≤ len → len ≤ s.cfg.payloadMax → 1 ≤ s.cfg.encPeriod →
    s.dp.encPhase = 0 → s.dp.cursor = 0 →
    ∃ ys t, encodeBlock xs s = some (ys, t) ∧ ys.length = xs.length ∧
      t.dp.encPhase = xs.length % s.cfg.encPeriod ∧ t.dp.cursor = fetched % (8 * len) ∧
      t.dp.sym = (List.range fetched).foldl
        (fun b j => b ^^ (payloadRead s.payload (j % (8 * len) / 8)).getLsbD (7 - j % (8 * len) % 8)) s.dp.sym

/-! ### Ring buffer and consumer (45_fifo) -/

/-- 45_fifo R281, R284: a block that fits is appended to the ring as a queue; every other entry of `FIFO` keeps its value, and
nothing but the ring and the operation's result changes.
(Where the operation finds its operands and leaves its results is the model's: log entry 3.) -/
def Obligations.FifoWriteAppendsABlockThatFits : Prop :=
  ∀ (s : State) (m : Nat),
    let occ := (((s.ring.ipos : Int) - s.ring.opos) % s.cfg.cap).toNat
    2 ≤ s.cfg.cap → s.ring.ipos < s.cfg.cap → s.ring.opos < s.cfg.cap → m + occ + 1 ≤ s.cfg.cap →
    ∃ t, exec (.fifoWrite m) s = .next t ∧
      ringContents t = ringContents s ++ (List.range m).map (Memory.read fZero s.env.args) ∧
      t.ring.ipos = (s.ring.ipos + m) % s.cfg.cap ∧ t.ring.opos = s.ring.opos ∧
      (∀ a, (∀ i < m, a ≠ (s.ring.ipos + i) % s.cfg.cap) → fifoRead t a = fifoRead s a) ∧
      t = { s with ring := t.ring, env := { s.env with res := [], dropped := false } }

/-- 45_fifo R281, R283, 60_exceptions R385: a block that does not fit is dropped whole and counted; outside calibration
`STATUS.OVR` is set and `OVERRUN` recorded with `INFO = min(m, 0xFFFF)`; the ring does not change.
(Where the operation finds its operands and leaves its results is the model's: log entry 3.) -/
def Obligations.FifoWriteDropsABlockThatDoesNotFit : Prop :=
  ∀ (s : State) (m : Nat),
    let occ := (((s.ring.ipos : Int) - s.ring.opos) % s.cfg.cap).toNat
    let counted := { s.csr with ovrCnt := BitVec.ofNat 32 (min (s.csr.ovrCnt.toNat + 1) 0xFFFFFFFF) }
    2 ≤ s.cfg.cap → s.cfg.cap < m + occ + 1 →
    exec (.fifoWrite m) s = .next
      { s with
        csr := if s.csr.ctrl.cal then counted
          else { counted with
            status := { s.csr.status with ovr := true }
            cause := BitVec.ofNat 32 (min m 0xFFFF * 2 ^ 16 + 1) }
        env := { s.env with res := [], dropped := true } }

/-- 45_fifo R285: `START_CHECK` starts the consumer exactly when the occupancy has reached `DELAY`, and changes nothing
else; its word, which no port takes.
(Where the operation finds its operands and leaves its results is the model's: log entry 3.) -/
def Obligations.StartCheckStartsAtTheDelay : Prop :=
  ∀ s : State,
    encode .startCheck = [0x96000000#32] ∧ (∀ p, decodePort p 0x96000000#32 = .illegal .none) ∧
    exec .startCheck s = .next
      { s with
        started := s.started || decide (s.csr.delay.toNat ≤ (((s.ring.ipos : Int) - s.ring.opos) % s.cfg.cap).toNat)
        env := { s.env with res := [] } }

/-- 45_fifo R290, R291, 20_memory R113: with enough samples an enabled `CONS_READ` takes the `CHUNK` oldest samples of the ring
into the chunk buffer, in order, and begins the chunk; the rest of the buffer and everything else keep their values. -/
def Obligations.ConsReadTakesTheOldestSamples : Prop :=
  ∀ s : State,
    let n := s.csr.chunk.toNat
    let occ := (((s.ring.ipos : Int) - s.ring.opos) % s.cfg.cap).toNat
    s.cons.phase = .idle → s.csr.ctrl.run = true → s.started = true → s.csr.status.fatal = false →
    2 ≤ s.cfg.cap → s.ring.ipos < s.cfg.cap → s.ring.opos < s.cfg.cap →
    Memory.wf (some fZero) s.cons.cbuf = true → n ≤ occ →
    ∃ t, exec .consRead s = .next t ∧
      chunkBuffer t n = (ringContents s).take n ∧ ringContents t = (ringContents s).drop n ∧
      (∀ a, n ≤ a → cbufRead t a = cbufRead s a) ∧
      t.cons.phase = .proc ∧ t.cons.cidx = 0 ∧ t.cons.clen = n ∧
      t = { s with ring := { s.ring with opos := (s.ring.opos + n) % s.cfg.cap }, cons := t.cons }

/-- 45_fifo R290, R292: with too few samples an enabled `CONS_READ` counts and records the underrun, leaves the ring and the
chunk buffer as they are, and begins a chunk of the stale samples. -/
def Obligations.ConsReadUnderrunRefeedsTheStaleChunk : Prop :=
  ∀ s : State,
    let n := s.csr.chunk.toNat
    let occ := (((s.ring.ipos : Int) - s.ring.opos) % s.cfg.cap).toNat
    s.cons.phase = .idle → s.csr.ctrl.run = true → s.started = true → s.csr.status.fatal = false → occ < n →
    exec .consRead s = .next
      { s with
        cons := { s.cons with phase := .proc, cidx := 0, clen := n }
        csr := { s.csr with
          unrCnt := BitVec.ofNat 32 (min (s.csr.unrCnt.toNat + 1) 0xFFFFFFFF)
          status := { s.csr.status with unr := true }
          cause := BitVec.ofNat 32 (min occ 0xFFFF * 2 ^ 16 + 2) } }

/-- 60_exceptions R398, 45_fifo R290, 46_modulator R310: an operation of the consumer that is not enabled changes nothing.
(That a hold is a step that changes nothing is the model's form: log entry 19.) -/
def Obligations.HoldsChangeNothing : Prop :=
  ∀ s : State,
    (s.cons.phase ≠ .idle ∨ s.csr.ctrl.run = false ∨ s.started = false ∨ s.csr.status.fatal = true →
      exec .consRead s = .next s) ∧
    (s.cons.phase ≠ .proc ∨ s.csr.status.fatal = true ∨ fLe fOne s.csr.cps = false ∨
        (s.mod.slotPtr ≤ s.env.dmaCur ∧ s.env.dmaCur ≤ s.mod.slotPtr + 3) →
      exec .modStep s = .next s)

/-! ### Modulator and DMA environment (46_modulator) -/

/-- 46_modulator R310 to R319: an enabled `MOD_STEP`, formula by formula: the slot's four words, `S.ferr`, `S.te`, the pointers,
the end of the chunk, and the saturation event; every other word of `SLOT` and everything else keep their values. -/
def Obligations.ModStepFollowsItsFormulas : Prop :=
  ∀ s : State,
    let cps := s.csr.cps
    let v := cbufRead s s.cons.cidx
    let vp0 := flAdd (flMul v s.csr.modIndex) s.mod.ferr
    let vp := if fFinite vp0 then vp0 else 0x00000000#32
    let iv := min s.cfg.ivMax (max s.cfg.ivMin (fRound vp))
    let frac0 := flMul (flAdd (flSub vp (fl32 iv)) 0x3F800000#32) 0x3F000000#32
    let frac := if fLt frac0 fZero then 0x00000000#32 else if fLt fOne frac0 then 0x3F800000#32 else frac0
    let te := flAdd (flSub s.mod.te (fl32 (fFloor s.mod.te))) cps
    let ft := fFloor te
    let fv := min ft (fRound (flMul frac cps))
    let t3 := flMul (fl32 fv) (flSub 0x3F800000#32 (flDiv s.cfg.pipeLat cps))
    let ferr := flMul 0x40000000#32 (flSub frac (flDiv t3 cps))
    let sat := (if fFinite vp0 then 0 else 1)
      + (if fRound vp < s.cfg.ivMin ∨ s.cfg.ivMax < fRound vp then 2 else 0)
      + (if fLt frac0 fZero ∨ fLt fOne frac0 then 4 else 0) + (if ft < fRound (flMul frac cps) then 8 else 0)
    let p := s.mod.slotPtr
    s.cons.phase = .proc → s.csr.status.fatal = false → fLe fOne cps = true →
    ¬(p ≤ s.env.dmaCur ∧ s.env.dmaCur ≤ p + 3) →
    s.cons.cidx < s.cfg.cap - 1 → p + 4 ≤ s.cfg.kDesc → Memory.wf (some 0#32) s.mod.slot = true →
    ∃ t, exec .modStep s = .next t ∧
      slotRead t p = BitVec.ofInt 32 (s.cfg.center + iv + s.cfg.divStep) ∧
      slotRead t (p + 1) = BitVec.ofInt 32 fv ∧
      slotRead t (p + 2) = BitVec.ofInt 32 (s.cfg.center + iv - s.cfg.divStep) ∧
      slotRead t (p + 3) = BitVec.ofInt 32 (ft - fv) ∧
      (∀ a, a < p ∨ p + 4 ≤ a → slotRead t a = slotRead s a) ∧
      t.mod.ferr = ferr ∧ t.mod.te = te ∧ t.mod.slotPtr = (p + 4) % s.cfg.kDesc ∧
      t = { s with
        mod := t.mod
        cons := { s.cons with
          cidx := s.cons.cidx + 1
          phase := if s.cons.cidx + 1 = s.cons.clen then .idle else .proc }
        csr := if sat = 0 then s.csr
          else { s.csr with
            status := { s.csr.status with modSat := true }
            satCnt := BitVec.ofNat 32 (min (s.csr.satCnt.toNat + 1) 0xFFFFFFFF)
            cause := BitVec.ofNat 32 (sat * 2 ^ 16 + 3) } }

/-- 46_modulator R312, R317: both divider-table indices a `MOD_STEP` writes lie inside the table, for every legal choice of the
parameters. -/
def Obligations.SlotIndicesStayInTheTable : Prop :=
  ∀ s : State, s.cfg.LegalTables →
    ∃ w0 w1 w2 w3, slotWords s = [w0, w1, w2, w3] ∧ w0.toNat < s.cfg.divN ∧ w2.toNat < s.cfg.divN ∧
      w0.toNat = w2.toNat + 2 * s.cfg.divStep

/-- 46_modulator R314, R315: with a legal `CPS` and a finite accumulator the two dwell lengths add up to `floor(S.te)`, which is
at least 1 and at most `2^24`. -/
def Obligations.DwellsAddUpToTheSampleLength : Prop :=
  ∀ s : State, legalCps s.csr.cps = true → fFinite s.mod.te = true →
    ∃ w0 w1 w2 w3, slotWords s = [w0, w1, w2, w3] ∧ (w1.toNat + w3.toNat : Int) = fFloor (modTe s) ∧
      1 ≤ fFloor (modTe s) ∧ fFloor (modTe s) ≤ 2 ^ 24

/-- 46_modulator R314: every step keeps `S.te` finite, at least 0 and at most `2^24`. -/
def Obligations.StepKeepsTheAccumulatorInRange : Prop :=
  ∀ s t : State, BlockInv s → InvAccumulator s → step s = .next t → InvAccumulator t

/-- 46_modulator R313: when the table offset needs no clamp, the split fraction lies in `[0.25, 0.75]`. -/
def Obligations.UnclampedFractionLiesInTheMiddle : Prop :=
  ∀ s : State, s.cfg.LegalTables → s.cfg.ivMin ≤ modIvRaw s → modIvRaw s ≤ s.cfg.ivMax →
    fLe 0x3E800000#32 (modFrac s) = true ∧ fLe (modFrac s) 0x3F400000#32 = true

/-- 46_modulator R318: no operation but `MOD_STEP` and the resets moves the slot pointer. So in every run of the machine with no
reset in it, whatever the agents do, `k` performed modulator steps advance it by `4·k` modulo `K_DESC`, and after exactly
`K_DESC/4` of them it is back where it was. -/
def Obligations.SlotPointerReturnsAfterTheRing : Prop :=
  (∀ (s t : State) (i : Instr), i ≠ .modStep → isReset i = false → exec i s = .next t → t.mod.slotPtr = s.mod.slotPtr) ∧
  ∀ (n : Nat) (st : Nat → State),
    let k := (List.range n).countP fun j => performsModStep (st j)
    (st 0).cfg.LegalSizes → (st 0).mod.slotPtr < (st 0).cfg.kDesc →
    (∀ j < n, step (st j) = .next (st (j + 1)) ∧ takesReset (st j) = false) →
    (st n).mod.slotPtr = ((st 0).mod.slotPtr + 4 * k) % (st 0).cfg.kDesc ∧
    (4 * k = (st 0).cfg.kDesc → (st n).mod.slotPtr = (st 0).mod.slotPtr)

/-- 46_modulator R320, 20_memory R119: no `MOD_STEP` changes the word the DMA controller is reading. -/
def Obligations.ModStepSparesTheDescriptorBeingRead : Prop :=
  ∀ s t : State, Memory.wf (some 0#32) s.mod.slot = true → exec .modStep s = .next t → dmaReads t = dmaReads s

/-- 46_modulator R325: `DMA_ADV` moves `DMA_CUR` to the next descriptor, circularly, in every state, and changes nothing else;
its word, which no port takes. -/
def Obligations.DmaAdvMovesToTheNextDescriptor : Prop :=
  ∀ s : State,
    encode .dmaAdv = [0xE0000000#32] ∧ (∀ p, decodePort p 0xE0000000#32 = .illegal .none) ∧
    exec .dmaAdv s = .next { s with env := { s.env with dmaCur := (s.env.dmaCur + 1) % s.cfg.kDesc } }

/-! ### Register access (47_host_interface) -/

/-- 47_host_interface R342, 10_state R42 to R63: what a read of each register but `PAYLOAD_DATA` returns; reserved offsets read
0, and no such read has a side effect. -/
def Obligations.RegisterReadsReturnTheirValues : Prop :=
  ∀ s : State, BlockInv s →
    let c := s.csr.ctrl
    let u := s.csr.status
    let occ := (((s.ring.ipos : Int) - s.ring.opos) % s.cfg.cap).toNat
    let ctrl := c.stereoEn.toNat + 2 * c.resampEn.toNat + 4 * c.encEn.toNat + 8 * c.nch2.toNat + 16 * c.cal.toNat
      + 32 * c.run.toNat
    let status := u.ovr.toNat + 2 * u.unr.toNat + 4 * s.started.toNat + 8 * u.modSat.toNat + 16 * u.cfgErr.toNat
      + 32 * u.fatal.toNat + 64 * (if s.cons.phase = .proc then 1 else 0)
    (∀ row ∈ ([(0x000, 0x4A50464D), (0x004, ctrl), (0x008, status), (0x00C, s.csr.irqEn.toNat),
        (0x010, s.csr.cause.toNat), (0x014, occ), (0x018, s.cfg.cap), (0x01C, s.csr.delay.toNat),
        (0x020, s.csr.chunk.toNat), (0x024, s.csr.srcRate.toNat), (0x028, s.csr.ratio.toNat),
        (0x02C, s.csr.cps.toNat), (0x030, s.csr.modIndex.toNat), (0x034, s.csr.payloadLen.toNat),
        (0x038, s.csr.payloadAddr.toNat), (0x040, s.mod.slotPtr), (0x044, s.csr.ovrCnt.toNat),
        (0x048, s.csr.unrCnt.toNat), (0x04C, s.csr.satCnt.toNat), (0x050, s.cfg.taps), (0x054, s.cfg.phases),
        (0x058, s.cfg.kDesc), (0x05C, s.cfg.payloadMax), (0x060, s.cfg.divN), (0x064, s.cfg.center),
        (0x068, s.latchedN)] : List (Nat × Nat)),
      exec (.csrRd (BitVec.ofNat 12 row.1)) s = .next (respond .control false (BitVec.ofNat 32 row.2) s)) ∧
    (∀ off : BitVec 12, off.toNat % 4 = 0 → 0x06C ≤ off.toNat →
      exec (.csrRd off) s = .next (respond .control false 0#32 s))

/-- 10_state R58: a read of `PAYLOAD_DATA` returns the byte at the pointer and advances the pointer while it is inside the memory;
otherwise it returns 0 and changes nothing. -/
def Obligations.PayloadReadsAdvanceThePointer : Prop :=
  ∀ s : State,
    exec (.csrRd 0x03C#12) s = .next
      (if s.csr.payloadAddr.toNat < s.cfg.payloadMax then
        respond .control false (BitVec.ofNat 32 (payloadRead s.payload s.csr.payloadAddr.toNat).toNat)
          { s with csr := { s.csr with payloadAddr := s.csr.payloadAddr + 1#32 } }
      else respond .control false 0#32 s)

/-- 20_memory R107, 47_host_interface R341: an access at an offset that is no multiple of 4 is refused with `BUS_MISALIGNED` and
`INFO = OFFSET`, unrecorded while halted, and has no other effect. -/
def Obligations.MisalignedAccessesAreRefused : Prop :=
  ∀ (s : State) (off : BitVec 12) (w : Word), off.toNat % 4 ≠ 0 →
    let t := { s with
      csr := if s.csr.status.fatal then s.csr
        else { s.csr with
          status := { s.csr.status with cfgErr := true }
          cause := BitVec.ofNat 32 (off.toNat * 2 ^ 16 + 8) }
      env := { s.env with ctlOut := some ⟨true, 8#32⟩ } }
    exec (.csrRd off) s = .next t ∧ exec (.csrWr off w) s = .next t

/-- 47_host_interface R345: a legal, unlocked write of `CTRL` with bit 31 clear stores bits [5:0], and reinitialises the datapath
state exactly when it changes `CTRL[3:0]`. -/
def Obligations.CtrlWritesStoreAndReinitialise : Prop :=
  ∀ (s : State) (w : Word),
    let c := s.csr.ctrl
    let same := w.getLsbD 0 = c.stereoEn ∧ w.getLsbD 1 = c.resampEn ∧ w.getLsbD 2 = c.encEn ∧ w.getLsbD 3 = c.nch2
    let clean : Channel := { last := 0x00000000#32, hist := List.replicate s.cfg.taps 0x00000000#32, t := 0x3F800000#32 }
    s.csr.status.fatal = false → w.getLsbD 31 = false → (w.getLsbD 0 = true → w.getLsbD 3 = true) →
    (c.run = true → same) →
    exec (.csrWr 0x004#12 w) s = .next (respond .control false 0#32
      { s with
        csr := { s.csr with ctrl :=
          { stereoEn := w.getLsbD 0, resampEn := w.getLsbD 1, encEn := w.getLsbD 2, nch2 := w.getLsbD 3,
            cal := w.getLsbD 4, run := w.getLsbD 5 } }
        dp := if same then s.dp
          else { ch0 := clean, ch1 := clean, muxState := 0, encPhase := 0, cursor := 0, sym := false,
                 level := 0x00000000#32 } })

/-- 47_host_interface R345: writes that no check refuses while the block is not halted: `STATUS` bits 0, 1, 3 and 4 clear on 1,
`IRQ_EN` takes seven bits, `CAUSE` clears, `PAYLOAD_ADDR` takes the word, and the read-only and reserved offsets ignore it. -/
def Obligations.UncheckedWritesTakeEffect : Prop :=
  ∀ (s : State) (w : Word), s.csr.status.fatal = false →
    let u := s.csr.status
    exec (.csrWr 0x008#12 w) s = .next (respond .control false 0#32
      { s with csr := { s.csr with status :=
        { ovr := u.ovr && !w.getLsbD 0, unr := u.unr && !w.getLsbD 1, modSat := u.modSat && !w.getLsbD 3,
          cfgErr := u.cfgErr && !w.getLsbD 4, fatal := u.fatal } } }) ∧
    exec (.csrWr 0x00C#12 w) s = .next (respond .control false 0#32
      { s with csr := { s.csr with irqEn := BitVec.ofNat 7 w.toNat } }) ∧
    exec (.csrWr 0x010#12 w) s = .next (respond .control false 0#32 { s with csr := { s.csr with cause := 0#32 } }) ∧
    exec (.csrWr 0x038#12 w) s = .next (respond .control false 0#32 { s with csr := { s.csr with payloadAddr := w } }) ∧
    (∀ off : BitVec 12, off.toNat % 4 = 0 →
      off = 0x000#12 ∨ off = 0x014#12 ∨ off = 0x018#12 ∨ 0x040 ≤ off.toNat →
      exec (.csrWr off w) s = .next (respond .control false 0#32 s))

/-- 47_host_interface R345, R346: while `RUN = 0` and the block is not halted, legal writes of `DELAY`, `CHUNK`, `PAYLOAD_LEN` (which
also clears the bit cursor) and `PAYLOAD_DATA` (which stores a byte and advances the pointer) take effect, and no more. -/
def Obligations.LockableWritesTakeEffectWhileStopped : Prop :=
  ∀ (s : State) (w : Word), s.cfg.LegalSizes → s.csr.status.fatal = false → s.csr.ctrl.run = false →
    (w.toNat ≤ s.cfg.cap - 1 →
      exec (.csrWr 0x01C#12 w) s = .next (respond .control false 0#32
        { s with csr := { s.csr with delay := BitVec.ofNat 24 w.toNat } })) ∧
    (1 ≤ w.toNat → w.toNat ≤ s.cfg.cap - 1 →
      exec (.csrWr 0x020#12 w) s = .next (respond .control false 0#32
        { s with csr := { s.csr with chunk := BitVec.ofNat 24 w.toNat } })) ∧
    (w.toNat ≤ s.cfg.payloadMax →
      exec (.csrWr 0x034#12 w) s = .next (respond .control false 0#32
        { s with csr := { s.csr with payloadLen := BitVec.ofNat 17 w.toNat }, dp := { s.dp with cursor := 0 } })) ∧
    (s.csr.payloadAddr.toNat < s.cfg.payloadMax → Memory.wf (some 0x00#8) s.payload = true →
      ∃ t, exec (.csrWr 0x03C#12 w) s = .next (respond .control false 0#32 t) ∧
        payloadRead t.payload s.csr.payloadAddr.toNat = BitVec.ofNat 8 w.toNat ∧
        (∀ a, a ≠ s.csr.payloadAddr.toNat → payloadRead t.payload a = payloadRead s.payload a) ∧
        t = { s with payload := t.payload, csr := { s.csr with payloadAddr := s.csr.payloadAddr + 1#32 } })

/-- 47_host_interface R345, R348: while the block is not halted, legal writes of `SRC_RATE`, `RATIO`, `CPS` and `MOD_INDEX` take effect,
the two rates only while stopped or when they do not change. -/
def Obligations.RateAndModulationWritesTakeEffect : Prop :=
  ∀ (s : State) (w : Word), s.csr.status.fatal = false →
    (s.csr.ctrl.run = false ∨ w = s.csr.srcRate →
      exec (.csrWr 0x024#12 w) s = .next (respond .control false 0#32 { s with csr := { s.csr with srcRate := w } })) ∧
    (fFinite w = true → fLe 0x3C000000#32 w = true → fLe w 0x43000000#32 = true →
      s.csr.ctrl.run = false ∨ w = s.csr.ratio →
      exec (.csrWr 0x028#12 w) s = .next (respond .control false 0#32 { s with csr := { s.csr with ratio := w } })) ∧
    (fFinite w = true → fLe 0x3F800000#32 w = true → fLe w 0x4B800000#32 = true →
      exec (.csrWr 0x02C#12 w) s = .next (respond .control false 0#32 { s with csr := { s.csr with cps := w } })) ∧
    (fFinite w = true →
      exec (.csrWr 0x030#12 w) s = .next (respond .control false 0#32 { s with csr := { s.csr with modIndex := w } }))

/-- 47_host_interface R347: a write of an illegal value is refused with `CFG_ILLEGAL` and `INFO = OFFSET`, whether or not the block
runs, and changes nothing but the recording. -/
def Obligations.IllegalValuesAreRefused : Prop :=
  ∀ (s : State) (off : BitVec 12) (w : Word), s.csr.status.fatal = false →
    (off = 0x004#12 ∧ w.getLsbD 31 = false ∧ w.getLsbD 0 = true ∧ w.getLsbD 3 = false) ∨
    (off = 0x01C#12 ∧ s.cfg.cap - 1 < w.toNat) ∨
    (off = 0x020#12 ∧ (w.toNat = 0 ∨ s.cfg.cap - 1 < w.toNat)) ∨
    (off = 0x028#12 ∧ (fFinite w = false ∨ fLt w 0x3C000000#32 = true ∨ fLt 0x43000000#32 w = true)) ∨
    (off = 0x02C#12 ∧ (fFinite w = false ∨ fLt w 0x3F800000#32 = true ∨ fLt 0x4B800000#32 w = true)) ∨
    (off = 0x030#12 ∧ fFinite w = false) ∨
    (off = 0x034#12 ∧ s.cfg.payloadMax < w.toNat) ∨
    (off = 0x03C#12 ∧ s.cfg.payloadMax ≤ s.csr.payloadAddr.toNat) →
    exec (.csrWr off w) s = .next
      { s with
        csr := { s.csr with
          status := { s.csr.status with cfgErr := true }
          cause := BitVec.ofNat 32 (off.toNat * 2 ^ 16 + 4) }
        env := { s.env with ctlOut := some ⟨true, 4#32⟩ } }

/-- 47_host_interface R346: while `RUN = 1`, a legal write of a locked register, or one that would change `CTRL[3:0]`, is refused with
`CFG_LOCKED` and `INFO = OFFSET`, and changes nothing but the recording. -/
def Obligations.LockedWritesAreRefused : Prop :=
  ∀ (s : State) (off : BitVec 12) (w : Word), s.csr.status.fatal = false → s.csr.ctrl.run = true →
    (off = 0x004#12 ∧ w.getLsbD 31 = false ∧ (w.getLsbD 0 = true → w.getLsbD 3 = true) ∧
      ¬(w.getLsbD 0 = s.csr.ctrl.stereoEn ∧ w.getLsbD 1 = s.csr.ctrl.resampEn ∧ w.getLsbD 2 = s.csr.ctrl.encEn ∧
        w.getLsbD 3 = s.csr.ctrl.nch2)) ∨
    (off = 0x01C#12 ∧ w.toNat ≤ s.cfg.cap - 1) ∨
    (off = 0x020#12 ∧ 1 ≤ w.toNat ∧ w.toNat ≤ s.cfg.cap - 1) ∨
    (off = 0x034#12 ∧ w.toNat ≤ s.cfg.payloadMax) ∨
    (off = 0x03C#12 ∧ s.csr.payloadAddr.toNat < s.cfg.payloadMax) →
    exec (.csrWr off w) s = .next
      { s with
        csr := { s.csr with
          status := { s.csr.status with cfgErr := true }
          cause := BitVec.ofNat 32 (off.toNat * 2 ^ 16 + 5) }
        env := { s.env with ctlOut := some ⟨true, 5#32⟩ } }

/-- 47_host_interface R348, 60_exceptions R389: a change of `SRC_RATE` or of `RATIO` to a legal value while running is not performed;
it halts the block: `FATAL` set, `RUN` cleared, `FATAL_RATE` recorded with `INFO = OFFSET`. -/
def Obligations.RateChangesWhileRunningHalt : Prop :=
  ∀ (s : State) (off : BitVec 12) (w : Word), s.csr.status.fatal = false → s.csr.ctrl.run = true →
    (off = 0x024#12 ∧ w ≠ s.csr.srcRate) ∨ (off = 0x028#12 ∧ legalRatio w = true ∧ w ≠ s.csr.ratio) →
    exec (.csrWr off w) s = .next
      { s with
        csr := { s.csr with
          status := { s.csr.status with fatal := true }
          ctrl := { s.csr.ctrl with run := false }
          cause := BitVec.ofNat 32 (off.toNat * 2 ^ 16 + 6) }
        env := { s.env with ctlOut := some ⟨true, 6#32⟩ } }

/-- 60_exceptions R389, 47_host_interface R341: while halted every aligned write but the soft reset is refused with `HALTED` and nothing
is recorded. -/
def Obligations.HaltedBlockRefusesWrites : Prop :=
  ∀ (s : State) (off : BitVec 12) (w : Word), s.csr.status.fatal = true → off.toNat % 4 = 0 →
    ¬(off = 0x004#12 ∧ w.getLsbD 31 = true) →
    exec (.csrWr off w) s = .next { s with env := { s.env with ctlOut := some ⟨true, 12#32⟩ } }

/-- 70_reset_and_hazards R420, R421: in every state, `HW_RESET` and the soft reset give every element of the block its reset value for
the same parameters; `HW_RESET` also sets `DMA_CUR` to 0 and answers nothing, the soft reset leaves `DMA_CUR` and answers `ERR = 0,
DATA = 0`. (`resets` is the model's own count, log entry 4;
that the words waiting on the ports, the turns and the latches stay is the model's, log entries 2, 3 and 13.) -/
def Obligations.BothResetsRestoreTheResetState : Prop :=
  ∀ (s : State) (w : Word), w.getLsbD 31 = true →
    exec .hwReset s = .next
      { State.resetOf s.cfg with env := { s.env with resets := s.env.resets + 1, dmaCur := 0 } } ∧
    exec (.csrWr 0x004#12 w) s = .next
      { State.resetOf s.cfg with
        env := { s.env with resets := s.env.resets + 1, ctlOut := some ⟨false, 0#32⟩ } }

/-! ### Block push (47_host_interface) -/

/-- 47_host_interface R351, R352: the refusals of a `PUSH` whose data words are there, in their order, and the fatal change of the block
length. The data words are consumed, the response carries the code, and only what a refusal or a halt records changes. -/
def Obligations.PushChecksRefuseInOrder : Prop :=
  ∀ (s : State) (n : Nat),
    let words := n * (if s.csr.ctrl.nch2 then 2 else 1)
    let env := fun code : Word => { s.env with audIn := s.env.audIn.drop words, audOut := some ⟨true, code⟩ }
    let refused := fun code : Nat =>
      { s.csr with status := { s.csr.status with cfgErr := true }, cause := BitVec.ofNat 32 code }
    words ≤ s.env.audIn.length →
    (s.csr.status.fatal = true → exec (.push n) s = .next { s with env := env 12#32 }) ∧
    (s.csr.status.fatal = false → s.csr.ctrl.run = false →
      exec (.push n) s = .next { s with csr := refused 10, env := env 10#32 }) ∧
    (s.csr.status.fatal = false → s.csr.ctrl.run = true → n = 0 →
      exec (.push n) s = .next { s with csr := refused 11, env := env 11#32 }) ∧
    (s.csr.status.fatal = false → s.csr.ctrl.run = true → n ≠ 0 → n < 2 ^ 16 → s.latchedN ≠ 0 → s.latchedN ≠ n →
      exec (.push n) s = .next
        { s with
          csr := { s.csr with
            status := { s.csr.status with fatal := true }
            ctrl := { s.csr.ctrl with run := false }
            cause := BitVec.ofNat 32 (n * 2 ^ 16 + 7) }
          env := env 7#32 })

/-- 47_host_interface R350, R352, R353: a `PUSH` that passes its checks performs, in one step, the class-9 operations R350 names, in
R350's order, on the samples of its data words; it latches its length, consumes its data words, and answers with the number of
composite samples and whether the ring dropped them.
(Where the operation finds its operands and leaves its results is the model's: log entry 3.) -/
def Obligations.PushPerformsItsDatapathOperations : Prop :=
  ∀ (s : State) (n : Nat),
    let words := n * (if s.csr.ctrl.nch2 then 2 else 1)
    words ≤ s.env.audIn.length → s.csr.status.fatal = false → s.csr.ctrl.run = true → n ≠ 0 →
    s.latchedN = 0 ∨ s.latchedN = n →
    (s.csr.ctrl.encEn = true → s.csr.payloadLen ≠ 0 →
      s.csr.payloadLen.toNat ≤ s.cfg.payloadMax ∧ s.dp.cursor < 8 * s.csr.payloadLen.toNat) →
    ∃ t u m dropped,
      pushByParts n (s.env.audIn.take n) ((s.env.audIn.drop n).take n) s = some (u, m, dropped) ∧
      exec (.push n) s = .next t ∧ sameBlock u t ∧
      t.env = { s.env with
        audIn := s.env.audIn.drop words
        audOut := some ⟨false, BitVec.ofBool dropped ++ 0#7 ++ BitVec.ofNat 24 m⟩ }

/-- 47_host_interface R350, 41_preemphasis R205, 43_stereo_mux R245: with one channel and only the pre-emphasis running, a `PUSH` of `n`
frames that fits appends exactly the `n` pre-emphasised samples to the ring, each formed from its input and the input before it. -/
def Obligations.MonoPushAppendsThePreEmphasisedBlock : Prop :=
  ∀ (s : State) (n : Nat),
    let xs := s.env.audIn.take n
    let den := flSub fOne (flMul (fl32 s.csr.srcRate.toNat) s.cfg.tau)
    let occ := (((s.ring.ipos : Int) - s.ring.opos) % s.cfg.cap).toNat
    let c := s.csr.ctrl
    n ≤ s.env.audIn.length → s.csr.status.fatal = false → c.run = true → n ≠ 0 → n < 2 ^ 16 →
    s.latchedN = 0 ∨ s.latchedN = n →
    c.stereoEn = false → c.resampEn = false → c.encEn = false → c.nch2 = false →
    2 ≤ s.cfg.cap → s.ring.ipos < s.cfg.cap → s.ring.opos < s.cfg.cap → n + occ + 1 ≤ s.cfg.cap →
    ∃ t, exec (.push n) s = .next t ∧ t.env.audOut = some ⟨false, BitVec.ofNat 32 n⟩ ∧
      ringContents t = ringContents s ++
        ((s.dp.ch0.last :: xs).zip xs).map (fun p => flAdd p.2 (flDiv (flSub p.1 p.2) den)) ∧
      t.dp = { s.dp with ch0 := { s.dp.ch0 with last := xs.getLastD s.dp.ch0.last } } ∧
      t.csr = s.csr ∧ t.cons = s.cons ∧ t.mod = s.mod ∧ t.payload = s.payload ∧ t.latchedN = n

/-! ### Events, halting and the interrupt (60_exceptions) -/

/-- 60_exceptions R389: only a reset leaves the halted state. -/
def Obligations.OnlyResetLeavesTheHaltedState : Prop :=
  ∀ s t : State, s.csr.status.fatal = true → step s = .next t → t.csr.status.fatal = false →
    ∃ i u, fetch s = .run i u ∧ isReset i = true

/-- 60_exceptions R389: while halted, no operation of any agent but a reset changes the block, apart from the pointer a read of
`PAYLOAD_DATA` advances; in particular `CAUSE` keeps the fatal event and the consumer takes no step. -/
def Obligations.HaltedBlockStandsStill : Prop :=
  ∀ (s t : State) (i : Instr), s.csr.status.fatal = true → isDatapath i = false → isReset i = false →
    exec i s = .next t →
    t = { s with csr := { s.csr with payloadAddr := t.csr.payloadAddr }, env := t.env }

/-- 60_exceptions R392: `IRQ` is high exactly while an enabled bit of `STATUS` reads 1. -/
def Obligations.IrqIsTheOrOfEnabledStatusBits : Prop :=
  ∀ s : State, irq s = true ↔ ∃ i < 7, (statusWord s).getLsbD i = true ∧ s.csr.irqEn.getLsbD i = true

/-- 10_state R60: but for a reset, a step leaves each event counter or counts one event, and `0xFFFFFFFF` stays. -/
def Obligations.CountersCountAndSaturate : Prop :=
  ∀ (s t : State) (i : Instr), exec i s = .next t → isReset i = false →
    (t.csr.ovrCnt = s.csr.ovrCnt ∨ t.csr.ovrCnt.toNat = min (s.csr.ovrCnt.toNat + 1) 0xFFFFFFFF) ∧
    (t.csr.unrCnt = s.csr.unrCnt ∨ t.csr.unrCnt.toNat = min (s.csr.unrCnt.toNat + 1) 0xFFFFFFFF) ∧
    (t.csr.satCnt = s.csr.satCnt ∨ t.csr.satCnt.toNat = min (s.csr.satCnt.toNat + 1) 0xFFFFFFFF)

/-- 70_reset_and_hazards R431: while `RUN = 1` no operation but a reset changes a byte of the payload or its length. -/
def Obligations.PayloadIsImmutableWhileRunning : Prop :=
  ∀ (s t : State) (i : Instr), s.csr.ctrl.run = true → isReset i = false → exec i s = .next t →
    t.payload = s.payload ∧ t.csr.payloadLen = s.csr.payloadLen

/-! ### Reset and invariants (70_reset_and_hazards, 10_state) -/

/-- 70_reset_and_hazards R422, 10_state R42: the values after reset. -/
def Obligations.ResetGivesTheStatedValues : Prop :=
  let s := State.reset
  s.dp.ch0 = ⟨0x00000000#32, [0, 0, 0, 0, 0], 0x3F800000#32⟩ ∧ s.dp.ch1 = s.dp.ch0 ∧
  s.dp.muxState = 0 ∧ s.dp.encPhase = 0 ∧ s.dp.cursor = 0 ∧ s.dp.sym = false ∧ s.dp.level = 0x00000000#32 ∧
  s.ring.ipos = 0 ∧ s.ring.opos = 0 ∧ s.started = false ∧ s.latchedN = 0 ∧
  s.cons.phase = .idle ∧ s.cons.cidx = 0 ∧ s.cons.clen = 0 ∧
  s.mod.ferr = 0x00000000#32 ∧ s.mod.te = 0x00000000#32 ∧ s.mod.slotPtr = 0 ∧
  (∀ i, cbufRead s i = 0x00000000#32 ∧ slotRead s i = 0#32 ∧ payloadRead s.payload i = 0x00#8) ∧
  ctrlWord s.csr.ctrl = 0#32 ∧ statusWord s = 0#32 ∧ s.csr.irqEn = 0 ∧ s.csr.cause = 0#32 ∧
  s.csr.delay = 0 ∧ s.csr.chunk = 1 ∧ s.csr.srcRate = 0#32 ∧ s.csr.ratio = 0x3F800000#32 ∧
  s.csr.cps = 0x00000000#32 ∧ s.csr.modIndex = 0x3F800000#32 ∧ s.csr.payloadLen = 0 ∧ s.csr.payloadAddr = 0#32 ∧
  s.csr.ovrCnt = 0#32 ∧ s.csr.unrCnt = 0#32 ∧ s.csr.satCnt = 0#32 ∧ irq s = false ∧ s.env.dmaCur = 0

/-- 10_state R64: the invariants hold at reset, for every legal choice of the parameters. -/
def Obligations.InvariantsHoldAtReset : Prop :=
  BlockInv State.reset ∧ InvCounters State.reset ∧ InvAccumulator State.reset ∧ ChannelsInStep State.reset ∧
  ∀ cfg : Config, cfg.Legal → BlockInv (State.resetOf cfg) ∧ InvCounters (State.resetOf cfg) ∧
    InvAccumulator (State.resetOf cfg) ∧ ChannelsInStep (State.resetOf cfg)

/-- 10_state R64 items 1, 2 and 4 to 9, 20_memory R100, R101: every step keeps the invariants, the canonical form of the
memories among them. -/
def Obligations.StepKeepsTheInvariants : Prop :=
  ∀ s t : State, BlockInv s → step s = .next t → BlockInv t

/-- 10_state R64 item 3, 42_resampler R225 item 5: every step of an agent keeps the two resamplers' counters equal while there
are two channels. (A class-9 operation run as a step of its own, log entry 3, moves one channel alone and is not an agent's.) -/
def Obligations.StepKeepsTheChannelsInStep : Prop :=
  ∀ s t : State, ChannelsInStep s → agentTurn s = true → step s = .next t → ChannelsInStep t

/-- 00_scope R7, 20_memory R103: no step changes a parameter, and so none changes a table. -/
def Obligations.StepKeepsTheParameters : Prop :=
  ∀ s t : State, step s = .next t → t.cfg = s.cfg ∧ ∀ row, lut t.cfg row = lut s.cfg row

/-- 10_state R64, 20_memory R101: no step stops with a fault from a state that satisfies the invariants, and none is refused unless
a turn names a step by a word that is none. -/
def Obligations.NoStepFaultsUnderTheInvariants : Prop :=
  ∀ s : State, BlockInv s →
    (∀ f, step s ≠ .fault f) ∧ ∀ r, step s = .refused r → ∃ w, r = .noSuchStep w ∧ ∃ e, decodeInternal w = .error e

/-! ### The sinc table (42_resampler) -/

/-- 42_resampler R226: at `Q = 5`, `S = 10` the rows of `LUT` are those the rule prints. At every legal size a row has `Q`
entries, `1.0` where `x = (Q - 1)/2 + s/S - q` is 0 and `+0.0` where `x` is another integer. (The remaining entries at other
sizes rest on log entry 8 and are not stated.) -/
def Obligations.SincTableHasThePrintedEntries : Prop :=
  (∀ cfg : Config, cfg.taps = 5 → cfg.phases = 10 → (List.range 10).map (lut cfg) =
    [[0x00000000#32, 0x00000000#32, 0x3F800000#32, 0x00000000#32, 0x00000000#32],
     [0x3D3FDAE2#32, 0xBDB72263#32, 0x3F7BCF49#32, 0x3DDFD4B2#32, 0xBD540CDF#32],
     [0x3DAE2BCD#32, 0xBE1FA827#32, 0x3F6F7C3A#32, 0x3E6F7C3A#32, 0xBDD4E033#32],
     [0x3DE54D97#32, 0xBE4AD854#32, 0x3F5BBFB0#32, 0x3EBC5B29#32, 0xBE1B1DE6#32],
     [0x3E012A44#32, 0xBE5D6D06#32, 0x3F41BF66#32, 0x3F012A44#32, 0xBE41BF66#32],
     [0x3E026136#32, 0xBE594CAF#32, 0x3F22F983#32, 0x3F22F983#32, 0xBE594CAF#32],
     [0x3DEE7569#32, 0xBE41BF66#32, 0x3F012A44#32, 0x3F41BF66#32, 0xBE5D6D06#32],
     [0x3DC3550F#32, 0xBE1B1DE6#32, 0x3EBC5B29#32, 0x3F5BBFB0#32, 0xBE4AD854#32],
     [0x3D88D946#32, 0xBDD4E033#32, 0x3E6F7C3A#32, 0x3F6F7C3A#32, 0xBE1FA827#32],
     [0x3D0AEDF3#32, 0xBD540CDF#32, 0x3DDFD4B2#32, 0x3F7BCF49#32, 0xBDB72263#32]]) ∧
  ∀ (cfg : Config) (row tap : Nat), row < cfg.phases → tap < cfg.taps →
    let twoSx : Int := ((cfg.taps : Int) - 1) * cfg.phases + 2 * row - 2 * tap * cfg.phases
    (lut cfg row).length = cfg.taps ∧
    (twoSx = 0 → (lut cfg row)[tap]? = some 0x3F800000#32) ∧
    (twoSx ≠ 0 → twoSx % (2 * cfg.phases) = 0 → (lut cfg row)[tap]? = some 0x00000000#32)
end

