-- ==== Sys2Proof/Laws/Memory.lean ====
section
/-! SUPPORT. The laws of the memories (20_memory R101): reading after a write, and the canonical form that every write keeps. -/

namespace Sys2Proof.Machine

variable {α : Type}

/-! ### Reading after a write -/

theorem Memory.get?_put (m : List (Nat × α)) (i a : Nat) (v : α) :
    Memory.get? (Memory.put m i v) a = if a = i then some v else Memory.get? m a := by
  induction m with
  | nil => simp [Memory.put, Memory.get?]
  | cons e m ih =>
    obtain ⟨j, u⟩ := e
    unfold Memory.put
    split
    · simp only [Memory.get?]
    · split
      · subst_vars; simp only [Memory.get?]; split <;> rfl
      · simp only [Memory.get?, ih]
        split <;> split <;> first | rfl | (subst_vars; contradiction)

theorem Memory.get?_del_ne (m : List (Nat × α)) {i a : Nat} (h : a ≠ i) :
    Memory.get? (Memory.del m i) a = Memory.get? m a := by
  induction m with
  | nil => rfl
  | cons e m ih =>
    obtain ⟨j, u⟩ := e
    unfold Memory.del
    split
    · subst_vars; simp [Memory.get?, h]
    · simp only [Memory.get?, ih]

/-- An address at or below the bound of a rising list is not listed in it. -/
theorem Memory.get?_eq_none_of_rising (m : List (Nat × α)) {lo a : Nat} (h : Memory.rising (some lo) m = true) (ha : a ≤ lo) :
    Memory.get? m a = none := by
  induction m generalizing lo with
  | nil => rfl
  | cons e m ih =>
    obtain ⟨j, u⟩ := e
    simp only [Memory.rising, Option.all_some, Bool.and_eq_true, decide_eq_true_eq] at h
    rw [Memory.get?, if_neg (by omega)]
    exact ih h.2 (by omega)

theorem Memory.get?_del_self (m : List (Nat × α)) {lo : Option Nat} (i : Nat) (h : Memory.rising lo m = true) :
    Memory.get? (Memory.del m i) i = none := by
  induction m generalizing lo with
  | nil => rfl
  | cons e m ih =>
    obtain ⟨j, u⟩ := e
    simp only [Memory.rising, Bool.and_eq_true] at h
    unfold Memory.del
    split
    · subst_vars; exact Memory.get?_eq_none_of_rising m h.2 (Nat.le_refl _)
    · rw [Memory.get?, if_neg (by assumption)]; exact ih h.2

@[simp] theorem Memory.read_put_self (d : α) (m : List (Nat × α)) (i : Nat) (v : α) :
    Memory.read d (Memory.put m i v) i = v := by
  simp [Memory.read, Memory.get?_put]

theorem Memory.read_put_ne (d : α) (m : List (Nat × α)) {i a : Nat} (v : α) (h : a ≠ i) :
    Memory.read d (Memory.put m i v) a = Memory.read d m a := by
  simp [Memory.read, Memory.get?_put, h]

variable [DecidableEq α]

theorem Memory.rising_of_wf {d : Option α} {m : List (Nat × α)} (h : Memory.wf d m = true) : Memory.rising none m = true := by
  simp only [Memory.wf, Bool.and_eq_true] at h; exact h.1

theorem Memory.read_write_self (d : α) {o : Option α} {m : List (Nat × α)} (i : Nat) (v : α) (h : Memory.wf o m = true) :
    Memory.read d (Memory.write d m i v) i = v := by
  unfold Memory.write
  split
  · subst_vars; simp [Memory.read, Memory.get?_del_self m i (Memory.rising_of_wf h)]
  · simp

theorem Memory.read_write_ne (d : α) (m : List (Nat × α)) {i a : Nat} (v : α) (h : a ≠ i) :
    Memory.read d (Memory.write d m i v) a = Memory.read d m a := by
  unfold Memory.write
  split
  · simp [Memory.read, Memory.get?_del_ne m h]
  · exact Memory.read_put_ne d m v h

/-! ### The canonical form -/

omit [DecidableEq α] in
theorem Memory.rising_put (m : List (Nat × α)) {lo : Option Nat} (i : Nat) (v : α) (hi : lo.all (· < i) = true)
    (h : Memory.rising lo m = true) : Memory.rising lo (Memory.put m i v) = true := by
  induction m generalizing lo with
  | nil => simp [Memory.put, Memory.rising, hi]
  | cons e m ih =>
    obtain ⟨j, u⟩ := e
    simp only [Memory.rising, Bool.and_eq_true] at h
    unfold Memory.put
    split
    · simp [Memory.rising, h.2, *]
    · split
      · subst_vars; simp [Memory.rising, hi, h.2]
      · have hj : (some j).all (· < i) = true := by simp; omega
        simp [Memory.rising, h.1, ih hj h.2]

omit [DecidableEq α] in
theorem Memory.rising_mono (m : List (Nat × α)) {lo hi : Option Nat} (hle : ∀ j, hi.all (· < j) = true → lo.all (· < j) = true)
    (h : Memory.rising hi m = true) : Memory.rising lo m = true := by
  cases m with
  | nil => rfl
  | cons e m =>
    simp only [Memory.rising, Bool.and_eq_true] at h ⊢
    exact ⟨hle _ h.1, h.2⟩

omit [DecidableEq α] in
theorem Memory.rising_del (m : List (Nat × α)) {lo : Option Nat} (i : Nat) (h : Memory.rising lo m = true) :
    Memory.rising lo (Memory.del m i) = true := by
  induction m generalizing lo with
  | nil => rfl
  | cons e m ih =>
    obtain ⟨j, u⟩ := e
    simp only [Memory.rising, Bool.and_eq_true] at h
    unfold Memory.del
    split
    · refine Memory.rising_mono m (fun k hk => ?_) h.2
      have := h.1
      cases lo <;> simp at *; omega
    · simp [Memory.rising, h.1, ih h.2]

omit [DecidableEq α] in
theorem Memory.mem_put {m : List (Nat × α)} {i : Nat} {v : α} {e : Nat × α} (h : e ∈ Memory.put m i v) : e = (i, v) ∨ e ∈ m := by
  induction m with
  | nil => simpa [Memory.put] using h
  | cons f m ih =>
    obtain ⟨j, u⟩ := f
    unfold Memory.put at h
    split at h
    · simpa using h
    · split at h
      · simp only [List.mem_cons] at h ⊢; tauto
      · simp only [List.mem_cons] at h ⊢
        rcases h with h | h
        · tauto
        · have := ih h; tauto

omit [DecidableEq α] in
theorem Memory.mem_del {m : List (Nat × α)} {i : Nat} {e : Nat × α} (h : e ∈ Memory.del m i) : e ∈ m := by
  induction m with
  | nil => exact h
  | cons f m ih =>
    obtain ⟨j, u⟩ := f
    unfold Memory.del at h
    split at h
    · exact List.mem_cons_of_mem _ h
    · simp only [List.mem_cons] at h ⊢
      rcases h with h | h
      · exact .inl h
      · exact .inr (ih h)

/-- Listing a value that an unlisted address does not read as keeps the canonical form. -/
theorem Memory.wf_put {d : Option α} {m : List (Nat × α)} (i : Nat) {v : α} (hv : d ≠ some v) (h : Memory.wf d m = true) :
    Memory.wf d (Memory.put m i v) = true := by
  simp only [Memory.wf, Bool.and_eq_true, List.all_eq_true, decide_eq_true_eq] at h ⊢
  refine ⟨Memory.rising_put m i v rfl h.1, fun e he => ?_⟩
  rcases Memory.mem_put he with rfl | he
  · exact hv
  · exact h.2 e he

theorem Memory.wf_del {d : Option α} {m : List (Nat × α)} (i : Nat) (h : Memory.wf d m = true) :
    Memory.wf d (Memory.del m i) = true := by
  simp only [Memory.wf, Bool.and_eq_true, List.all_eq_true, decide_eq_true_eq] at h ⊢
  exact ⟨Memory.rising_del m i h.1, fun e he => h.2 e (Memory.mem_del he)⟩

/-- Every write keeps the canonical form. -/
theorem Memory.wf_write {d : α} {m : List (Nat × α)} (i : Nat) (v : α) (h : Memory.wf (some d) m = true) :
    Memory.wf (some d) (Memory.write d m i v) = true := by
  unfold Memory.write
  split
  · exact Memory.wf_del i h
  · exact Memory.wf_put i (by simp; tauto) h

theorem Memory.wf_writeFrom {d : α} (vs : List α) {m : List (Nat × α)} (i : Nat) (h : Memory.wf (some d) m = true) :
    Memory.wf (some d) (Memory.writeFrom d m i vs) = true := by
  induction vs generalizing m i with
  | nil => exact h
  | cons v vs ih => exact ih (i + 1) (Memory.wf_write i v h)

theorem Memory.wf_putRing (size : Nat) (vs : List α) {m : List (Nat × α)} (i : Nat) (h : Memory.wf none m = true) :
    Memory.wf none (Memory.putRing size m i vs) = true := by
  induction vs generalizing m i with
  | nil => exact h
  | cons v vs ih => exact ih (i + 1) (Memory.wf_put _ (by simp) h)

/-! ### The listed addresses stay inside the memory -/

omit [DecidableEq α] in
theorem Memory.below_put {n : Nat} {m : List (Nat × α)} {i : Nat} (v : α) (hi : i < n) (h : Memory.below n m) :
    Memory.below n (Memory.put m i v) := by
  intro e he
  rcases Memory.mem_put he with rfl | he
  · exact hi
  · exact h e he

theorem Memory.below_write {n : Nat} {d : α} {m : List (Nat × α)} {i : Nat} (v : α) (hi : i < n) (h : Memory.below n m) :
    Memory.below n (Memory.write d m i v) := by
  unfold Memory.write
  split
  · exact fun e he => h e (Memory.mem_del he)
  · exact Memory.below_put v hi h

theorem Memory.below_writeFrom {n : Nat} {d : α} (vs : List α) {m : List (Nat × α)} {i : Nat} (hi : i + vs.length ≤ n)
    (h : Memory.below n m) : Memory.below n (Memory.writeFrom d m i vs) := by
  induction vs generalizing m i with
  | nil => exact h
  | cons v vs ih =>
    simp only [List.length_cons] at hi
    exact ih (by omega) (Memory.below_write v (by omega) h)

omit [DecidableEq α] in
theorem Memory.below_putRing {size : Nat} (vs : List α) {m : List (Nat × α)} (i : Nat) (hs : 0 < size)
    (h : Memory.below size m) : Memory.below size (Memory.putRing size m i vs) := by
  induction vs generalizing m i with
  | nil => exact h
  | cons v vs ih => exact ih (i + 1) (Memory.below_put v (Nat.mod_lt _ hs) h)

/-! ### Writing a list -/

/-- Writing a list: each element at its address, every other address as before. -/
theorem Memory.read_writeFrom (d : α) (vs : List α) {m : List (Nat × α)} (i a : Nat) (h : Memory.wf (some d) m = true) :
    Memory.read d (Memory.writeFrom d m i vs) a =
      if h : i ≤ a ∧ a < i + vs.length then vs[a - i] else Memory.read d m a := by
  induction vs generalizing m i with
  | nil => rw [dif_neg (by simp)]; rfl
  | cons v vs ih =>
    rw [Memory.writeFrom, ih (i + 1) (Memory.wf_write i v h)]
    by_cases ha : a = i
    · subst ha
      rw [dif_neg (by omega), dif_pos (by simp), Memory.read_write_self d a v h]
      simp
    · rw [Memory.read_write_ne d m v ha]
      by_cases hr : i + 1 ≤ a ∧ a < i + 1 + vs.length
      · rw [dif_pos hr, dif_pos (by simp; omega)]
        have : a - i = (a - (i + 1)) + 1 := by omega
        simp [this]
      · rw [dif_neg hr, dif_neg (by simp; omega)]

omit [DecidableEq α] in
/-- Writing a list round a ring leaves every address it does not reach. -/
theorem Memory.read_putRing_of_ne (d : α) (size : Nat) (vs : List α) {m : List (Nat × α)} (i a : Nat)
    (h : ∀ k < vs.length, a ≠ (i + k) % size) : Memory.read d (Memory.putRing size m i vs) a = Memory.read d m a := by
  induction vs generalizing m i with
  | nil => rfl
  | cons v vs ih =>
    rw [Memory.putRing, ih (i + 1) (fun k hk => by have := h (k + 1) (by simp; omega); rwa [show i + 1 + k = i + (k + 1) by omega])]
    exact Memory.read_put_ne d m v (h 0 (by simp))

omit [DecidableEq α] in
/-- Writing a list no longer than the ring puts each element at its address. -/
theorem Memory.read_putRing (d : α) {size : Nat} (vs : List α) {m : List (Nat × α)} (i k : Nat) (hs : vs.length ≤ size)
    (hk : k < vs.length) : Memory.read d (Memory.putRing size m i vs) ((i + k) % size) = vs[k] := by
  induction vs generalizing m i k with
  | nil => simp at hk
  | cons v vs ih =>
    simp only [List.length_cons] at hs hk
    rw [Memory.putRing]
    cases k with
    | zero =>
      rw [Memory.read_putRing_of_ne]
      · simp
      · intro k hk h
        have h1 : (i + 0) % size = (i + (k + 1)) % size := by rw [h, Nat.add_assoc, Nat.add_comm 1 k]
        have h2 : (0 : Nat) % size = (k + 1) % size := Nat.ModEq.add_left_cancel' i h1
        rw [Nat.zero_mod, Nat.mod_eq_of_lt (by omega)] at h2
        omega
    | succ k =>
      rw [show i + (k + 1) = i + 1 + k by omega, ih (i + 1) k (by omega) (by omega)]
      rfl

/-- The memories of the reset state are in canonical form. -/
theorem Memory.reset_wf (cfg : Config) : InvMemories (State.resetOf cfg) := by
  refine ⟨rfl, ?_, rfl, ?_, rfl, ?_, rfl, ?_⟩ <;>
    simp [Memory.below, State.resetOf, State.resetBlock, Ring.reset, Consumer.reset, Modulator.reset]

end Sys2Proof.Machine
end

