-- ==== Sys2Proof/Laws/State.lean ====
section
/-! SUPPORT. One lemma for each field of the state under each named update, so that no proof unfolds a record update. -/

namespace Sys2Proof.Machine

/-! `raiseEvent` -/

@[simp] theorem raiseEvent_cfg (c : Code) (n : Nat) (s : State) : (raiseEvent c n s).cfg = s.cfg := rfl
@[simp] theorem raiseEvent_dp (c : Code) (n : Nat) (s : State) : (raiseEvent c n s).dp = s.dp := rfl
@[simp] theorem raiseEvent_ring (c : Code) (n : Nat) (s : State) : (raiseEvent c n s).ring = s.ring := rfl
@[simp] theorem raiseEvent_started (c : Code) (n : Nat) (s : State) : (raiseEvent c n s).started = s.started := rfl
@[simp] theorem raiseEvent_latchedN (c : Code) (n : Nat) (s : State) : (raiseEvent c n s).latchedN = s.latchedN := rfl
@[simp] theorem raiseEvent_cons (c : Code) (n : Nat) (s : State) : (raiseEvent c n s).cons = s.cons := rfl
@[simp] theorem raiseEvent_mod (c : Code) (n : Nat) (s : State) : (raiseEvent c n s).mod = s.mod := rfl
@[simp] theorem raiseEvent_csr (c : Code) (n : Nat) (s : State) :
    (raiseEvent c n s).csr = { s.csr with cause := causeWord c n } :=
  rfl
@[simp] theorem raiseEvent_payload (c : Code) (n : Nat) (s : State) : (raiseEvent c n s).payload = s.payload := rfl
@[simp] theorem raiseEvent_env (c : Code) (n : Nat) (s : State) : (raiseEvent c n s).env = s.env := rfl

/-! `respond` -/

@[simp] theorem respond_cfg (p : Port) (e : Bool) (d : Word) (s : State) :
    (respond p e d s).cfg = s.cfg :=
  by cases p <;> rfl
@[simp] theorem respond_dp (p : Port) (e : Bool) (d : Word) (s : State) : (respond p e d s).dp = s.dp := by cases p <;> rfl
@[simp] theorem respond_ring (p : Port) (e : Bool) (d : Word) (s : State) :
    (respond p e d s).ring = s.ring :=
  by cases p <;> rfl
@[simp] theorem respond_started (p : Port) (e : Bool) (d : Word) (s : State) :
    (respond p e d s).started = s.started :=
  by cases p <;> rfl
@[simp] theorem respond_latchedN (p : Port) (e : Bool) (d : Word) (s : State) :
    (respond p e d s).latchedN = s.latchedN :=
  by cases p <;> rfl
@[simp] theorem respond_cons (p : Port) (e : Bool) (d : Word) (s : State) :
    (respond p e d s).cons = s.cons :=
  by cases p <;> rfl
@[simp] theorem respond_mod (p : Port) (e : Bool) (d : Word) (s : State) :
    (respond p e d s).mod = s.mod :=
  by cases p <;> rfl
@[simp] theorem respond_csr (p : Port) (e : Bool) (d : Word) (s : State) :
    (respond p e d s).csr = s.csr :=
  by cases p <;> rfl
@[simp] theorem respond_payload (p : Port) (e : Bool) (d : Word) (s : State) :
    (respond p e d s).payload = s.payload :=
  by cases p <;> rfl

/-! `recordRefusal` -/

@[simp] theorem recordRefusal_cfg (c : Code) (n : Nat) (s : State) :
    (recordRefusal c n s).cfg = s.cfg :=
  by unfold recordRefusal; split <;> rfl
@[simp] theorem recordRefusal_dp (c : Code) (n : Nat) (s : State) :
    (recordRefusal c n s).dp = s.dp :=
  by unfold recordRefusal; split <;> rfl
@[simp] theorem recordRefusal_ring (c : Code) (n : Nat) (s : State) :
    (recordRefusal c n s).ring = s.ring :=
  by unfold recordRefusal; split <;> rfl
@[simp] theorem recordRefusal_started (c : Code) (n : Nat) (s : State) :
    (recordRefusal c n s).started = s.started :=
  by unfold recordRefusal; split <;> rfl
@[simp] theorem recordRefusal_latchedN (c : Code) (n : Nat) (s : State) :
    (recordRefusal c n s).latchedN = s.latchedN :=
  by unfold recordRefusal; split <;> rfl
@[simp] theorem recordRefusal_cons (c : Code) (n : Nat) (s : State) :
    (recordRefusal c n s).cons = s.cons :=
  by unfold recordRefusal; split <;> rfl
@[simp] theorem recordRefusal_mod (c : Code) (n : Nat) (s : State) :
    (recordRefusal c n s).mod = s.mod :=
  by unfold recordRefusal; split <;> rfl
@[simp] theorem recordRefusal_payload (c : Code) (n : Nat) (s : State) :
    (recordRefusal c n s).payload = s.payload :=
  by unfold recordRefusal; split <;> rfl
@[simp] theorem recordRefusal_env (c : Code) (n : Nat) (s : State) :
    (recordRefusal c n s).env = s.env :=
  by unfold recordRefusal; split <;> rfl

/-! `refuse` -/

@[simp] theorem refuse_cfg (p : Port) (c : Code) (n : Nat) (s : State) : (refuse p c n s).cfg = s.cfg := by simp [refuse]
@[simp] theorem refuse_dp (p : Port) (c : Code) (n : Nat) (s : State) : (refuse p c n s).dp = s.dp := by simp [refuse]
@[simp] theorem refuse_ring (p : Port) (c : Code) (n : Nat) (s : State) : (refuse p c n s).ring = s.ring := by simp [refuse]
@[simp] theorem refuse_started (p : Port) (c : Code) (n : Nat) (s : State) :
    (refuse p c n s).started = s.started :=
  by simp [refuse]
@[simp] theorem refuse_latchedN (p : Port) (c : Code) (n : Nat) (s : State) :
    (refuse p c n s).latchedN = s.latchedN :=
  by simp [refuse]
@[simp] theorem refuse_cons (p : Port) (c : Code) (n : Nat) (s : State) : (refuse p c n s).cons = s.cons := by simp [refuse]
@[simp] theorem refuse_mod (p : Port) (c : Code) (n : Nat) (s : State) : (refuse p c n s).mod = s.mod := by simp [refuse]
@[simp] theorem refuse_csr (p : Port) (c : Code) (n : Nat) (s : State) :
    (refuse p c n s).csr = (recordRefusal c n s).csr :=
  by simp [refuse]
@[simp] theorem refuse_payload (p : Port) (c : Code) (n : Nat) (s : State) :
    (refuse p c n s).payload = s.payload :=
  by simp [refuse]

/-! `halt` -/

@[simp] theorem halt_cfg (c : Code) (n : Nat) (s : State) : (halt c n s).cfg = s.cfg := rfl
@[simp] theorem halt_dp (c : Code) (n : Nat) (s : State) : (halt c n s).dp = s.dp := rfl
@[simp] theorem halt_ring (c : Code) (n : Nat) (s : State) : (halt c n s).ring = s.ring := rfl
@[simp] theorem halt_started (c : Code) (n : Nat) (s : State) : (halt c n s).started = s.started := rfl
@[simp] theorem halt_latchedN (c : Code) (n : Nat) (s : State) : (halt c n s).latchedN = s.latchedN := rfl
@[simp] theorem halt_cons (c : Code) (n : Nat) (s : State) : (halt c n s).cons = s.cons := rfl
@[simp] theorem halt_mod (c : Code) (n : Nat) (s : State) : (halt c n s).mod = s.mod := rfl
@[simp] theorem halt_csr (c : Code) (n : Nat) (s : State) :
    (halt c n s).csr = { s.csr with
      status := { s.csr.status with fatal := true }, ctrl := { s.csr.ctrl with run := false }, cause := causeWord c n } :=
  rfl
@[simp] theorem halt_payload (c : Code) (n : Nat) (s : State) : (halt c n s).payload = s.payload := rfl
@[simp] theorem halt_env (c : Code) (n : Nat) (s : State) : (halt c n s).env = s.env := rfl

/-! `fatalStop` -/

@[simp] theorem fatalStop_cfg (p : Port) (c : Code) (n : Nat) (s : State) :
    (fatalStop p c n s).cfg = s.cfg :=
  by simp [fatalStop]
@[simp] theorem fatalStop_dp (p : Port) (c : Code) (n : Nat) (s : State) :
    (fatalStop p c n s).dp = s.dp :=
  by simp [fatalStop]
@[simp] theorem fatalStop_ring (p : Port) (c : Code) (n : Nat) (s : State) :
    (fatalStop p c n s).ring = s.ring :=
  by simp [fatalStop]
@[simp] theorem fatalStop_started (p : Port) (c : Code) (n : Nat) (s : State) :
    (fatalStop p c n s).started = s.started :=
  by simp [fatalStop]
@[simp] theorem fatalStop_latchedN (p : Port) (c : Code) (n : Nat) (s : State) :
    (fatalStop p c n s).latchedN = s.latchedN :=
  by simp [fatalStop]
@[simp] theorem fatalStop_cons (p : Port) (c : Code) (n : Nat) (s : State) :
    (fatalStop p c n s).cons = s.cons :=
  by simp [fatalStop]
@[simp] theorem fatalStop_mod (p : Port) (c : Code) (n : Nat) (s : State) :
    (fatalStop p c n s).mod = s.mod :=
  by simp [fatalStop]
@[simp] theorem fatalStop_csr (p : Port) (c : Code) (n : Nat) (s : State) :
    (fatalStop p c n s).csr = (halt c n s).csr :=
  by simp [fatalStop]
@[simp] theorem fatalStop_payload (p : Port) (c : Code) (n : Nat) (s : State) :
    (fatalStop p c n s).payload = s.payload :=
  by simp [fatalStop]

/-! `softReset` -/

@[simp] theorem softReset_cfg (s : State) : (softReset s).cfg = s.cfg := rfl
@[simp] theorem softReset_dp (s : State) : (softReset s).dp = Datapath.reset s.cfg := rfl
@[simp] theorem softReset_ring (s : State) : (softReset s).ring = Ring.reset := rfl
@[simp] theorem softReset_started (s : State) : (softReset s).started = false := rfl
@[simp] theorem softReset_latchedN (s : State) : (softReset s).latchedN = 0 := rfl
@[simp] theorem softReset_cons (s : State) : (softReset s).cons = Consumer.reset := rfl
@[simp] theorem softReset_mod (s : State) : (softReset s).mod = Modulator.reset := rfl
@[simp] theorem softReset_csr (s : State) : (softReset s).csr = Csrs.reset := rfl
@[simp] theorem softReset_payload (s : State) : (softReset s).payload = [] := rfl
@[simp] theorem softReset_env (s : State) : (softReset s).env = { s.env with resets := s.env.resets + 1 } := rfl

/-! `hardReset` -/

@[simp] theorem hardReset_cfg (s : State) : (hardReset s).cfg = s.cfg := rfl
@[simp] theorem hardReset_dp (s : State) : (hardReset s).dp = Datapath.reset s.cfg := rfl
@[simp] theorem hardReset_ring (s : State) : (hardReset s).ring = Ring.reset := rfl
@[simp] theorem hardReset_started (s : State) : (hardReset s).started = false := rfl
@[simp] theorem hardReset_latchedN (s : State) : (hardReset s).latchedN = 0 := rfl
@[simp] theorem hardReset_cons (s : State) : (hardReset s).cons = Consumer.reset := rfl
@[simp] theorem hardReset_mod (s : State) : (hardReset s).mod = Modulator.reset := rfl
@[simp] theorem hardReset_csr (s : State) : (hardReset s).csr = Csrs.reset := rfl
@[simp] theorem hardReset_payload (s : State) : (hardReset s).payload = [] := rfl
@[simp] theorem hardReset_env (s : State) : (hardReset s).env = { s.env with resets := s.env.resets + 1, dmaCur := 0 } := rfl

/-! `reinitDatapath` -/

@[simp] theorem reinitDatapath_cfg (s : State) : (reinitDatapath s).cfg = s.cfg := rfl
@[simp] theorem reinitDatapath_dp (s : State) : (reinitDatapath s).dp = Datapath.reset s.cfg := rfl
@[simp] theorem reinitDatapath_ring (s : State) : (reinitDatapath s).ring = s.ring := rfl
@[simp] theorem reinitDatapath_started (s : State) : (reinitDatapath s).started = s.started := rfl
@[simp] theorem reinitDatapath_latchedN (s : State) : (reinitDatapath s).latchedN = s.latchedN := rfl
@[simp] theorem reinitDatapath_cons (s : State) : (reinitDatapath s).cons = s.cons := rfl
@[simp] theorem reinitDatapath_mod (s : State) : (reinitDatapath s).mod = s.mod := rfl
@[simp] theorem reinitDatapath_csr (s : State) : (reinitDatapath s).csr = s.csr := rfl
@[simp] theorem reinitDatapath_payload (s : State) : (reinitDatapath s).payload = s.payload := rfl
@[simp] theorem reinitDatapath_env (s : State) : (reinitDatapath s).env = s.env := rfl

/-! `dropPushWords` -/

@[simp] theorem dropPushWords_cfg (s : State) (n : Nat) : (dropPushWords s n).cfg = s.cfg := rfl
@[simp] theorem dropPushWords_dp (s : State) (n : Nat) : (dropPushWords s n).dp = s.dp := rfl
@[simp] theorem dropPushWords_ring (s : State) (n : Nat) : (dropPushWords s n).ring = s.ring := rfl
@[simp] theorem dropPushWords_started (s : State) (n : Nat) : (dropPushWords s n).started = s.started := rfl
@[simp] theorem dropPushWords_latchedN (s : State) (n : Nat) : (dropPushWords s n).latchedN = s.latchedN := rfl
@[simp] theorem dropPushWords_cons (s : State) (n : Nat) : (dropPushWords s n).cons = s.cons := rfl
@[simp] theorem dropPushWords_mod (s : State) (n : Nat) : (dropPushWords s n).mod = s.mod := rfl
@[simp] theorem dropPushWords_csr (s : State) (n : Nat) : (dropPushWords s n).csr = s.csr := rfl
@[simp] theorem dropPushWords_payload (s : State) (n : Nat) : (dropPushWords s n).payload = s.payload := rfl
@[simp] theorem dropPushWords_env (s : State) (n : Nat) :
    (dropPushWords s n).env = { s.env with audIn := s.env.audIn.drop (pushWords s n) } :=
  rfl

/-! `setResult` -/

@[simp] theorem setResult_cfg (r : List F32) (s : State) : (setResult r s).cfg = s.cfg := rfl
@[simp] theorem setResult_dp (r : List F32) (s : State) : (setResult r s).dp = s.dp := rfl
@[simp] theorem setResult_ring (r : List F32) (s : State) : (setResult r s).ring = s.ring := rfl
@[simp] theorem setResult_started (r : List F32) (s : State) : (setResult r s).started = s.started := rfl
@[simp] theorem setResult_latchedN (r : List F32) (s : State) : (setResult r s).latchedN = s.latchedN := rfl
@[simp] theorem setResult_cons (r : List F32) (s : State) : (setResult r s).cons = s.cons := rfl
@[simp] theorem setResult_mod (r : List F32) (s : State) : (setResult r s).mod = s.mod := rfl
@[simp] theorem setResult_csr (r : List F32) (s : State) : (setResult r s).csr = s.csr := rfl
@[simp] theorem setResult_payload (r : List F32) (s : State) : (setResult r s).payload = s.payload := rfl
@[simp] theorem setResult_env (r : List F32) (s : State) : (setResult r s).env = { s.env with res := r } := rfl

/-! `ringAccept` -/

@[simp] theorem ringAccept_cfg (zs : List F32) (s : State) : (ringAccept zs s).cfg = s.cfg := rfl
@[simp] theorem ringAccept_dp (zs : List F32) (s : State) : (ringAccept zs s).dp = s.dp := rfl
@[simp] theorem ringAccept_ring (zs : List F32) (s : State) :
    (ringAccept zs s).ring = { s.ring with
      ipos := (s.ring.ipos + zs.length) % s.cfg.cap, fifo := Memory.putRing s.cfg.cap s.ring.fifo s.ring.ipos zs } :=
  rfl
@[simp] theorem ringAccept_started (zs : List F32) (s : State) : (ringAccept zs s).started = s.started := rfl
@[simp] theorem ringAccept_latchedN (zs : List F32) (s : State) : (ringAccept zs s).latchedN = s.latchedN := rfl
@[simp] theorem ringAccept_cons (zs : List F32) (s : State) : (ringAccept zs s).cons = s.cons := rfl
@[simp] theorem ringAccept_mod (zs : List F32) (s : State) : (ringAccept zs s).mod = s.mod := rfl
@[simp] theorem ringAccept_csr (zs : List F32) (s : State) : (ringAccept zs s).csr = s.csr := rfl
@[simp] theorem ringAccept_payload (zs : List F32) (s : State) : (ringAccept zs s).payload = s.payload := rfl
@[simp] theorem ringAccept_env (zs : List F32) (s : State) : (ringAccept zs s).env = s.env := rfl

/-! `overrun` -/

@[simp] theorem overrun_cfg (m : Nat) (s : State) : (overrun m s).cfg = s.cfg := by unfold overrun; split <;> rfl
@[simp] theorem overrun_dp (m : Nat) (s : State) : (overrun m s).dp = s.dp := by unfold overrun; split <;> rfl
@[simp] theorem overrun_ring (m : Nat) (s : State) : (overrun m s).ring = s.ring := by unfold overrun; split <;> rfl
@[simp] theorem overrun_started (m : Nat) (s : State) : (overrun m s).started = s.started := by unfold overrun; split <;> rfl
@[simp] theorem overrun_latchedN (m : Nat) (s : State) :
    (overrun m s).latchedN = s.latchedN :=
  by unfold overrun; split <;> rfl
@[simp] theorem overrun_cons (m : Nat) (s : State) : (overrun m s).cons = s.cons := by unfold overrun; split <;> rfl
@[simp] theorem overrun_mod (m : Nat) (s : State) : (overrun m s).mod = s.mod := by unfold overrun; split <;> rfl
@[simp] theorem overrun_payload (m : Nat) (s : State) : (overrun m s).payload = s.payload := by unfold overrun; split <;> rfl
@[simp] theorem overrun_env (m : Nat) (s : State) : (overrun m s).env = s.env := by unfold overrun; split <;> rfl

/-! `startCheck` -/

@[simp] theorem startCheck_cfg (s : State) : (startCheck s).cfg = s.cfg := by unfold startCheck; split <;> rfl
@[simp] theorem startCheck_dp (s : State) : (startCheck s).dp = s.dp := by unfold startCheck; split <;> rfl
@[simp] theorem startCheck_ring (s : State) : (startCheck s).ring = s.ring := by unfold startCheck; split <;> rfl
@[simp] theorem startCheck_latchedN (s : State) : (startCheck s).latchedN = s.latchedN := by unfold startCheck; split <;> rfl
@[simp] theorem startCheck_cons (s : State) : (startCheck s).cons = s.cons := by unfold startCheck; split <;> rfl
@[simp] theorem startCheck_mod (s : State) : (startCheck s).mod = s.mod := by unfold startCheck; split <;> rfl
@[simp] theorem startCheck_csr (s : State) : (startCheck s).csr = s.csr := by unfold startCheck; split <;> rfl
@[simp] theorem startCheck_payload (s : State) : (startCheck s).payload = s.payload := by unfold startCheck; split <;> rfl
@[simp] theorem startCheck_env (s : State) : (startCheck s).env = s.env := by unfold startCheck; split <;> rfl

/-! `underrun` -/

@[simp] theorem underrun_cfg (n : Nat) (s : State) : (underrun n s).cfg = s.cfg := rfl
@[simp] theorem underrun_dp (n : Nat) (s : State) : (underrun n s).dp = s.dp := rfl
@[simp] theorem underrun_ring (n : Nat) (s : State) : (underrun n s).ring = s.ring := rfl
@[simp] theorem underrun_started (n : Nat) (s : State) : (underrun n s).started = s.started := rfl
@[simp] theorem underrun_latchedN (n : Nat) (s : State) : (underrun n s).latchedN = s.latchedN := rfl
@[simp] theorem underrun_cons (n : Nat) (s : State) : (underrun n s).cons = s.cons := rfl
@[simp] theorem underrun_mod (n : Nat) (s : State) : (underrun n s).mod = s.mod := rfl
@[simp] theorem underrun_csr (n : Nat) (s : State) :
    (underrun n s).csr = { s.csr with
      unrCnt := satInc s.csr.unrCnt, status := { s.csr.status with unr := true }, cause := causeWord .underrun (min n 0xFFFF) } :=
  rfl
@[simp] theorem underrun_payload (n : Nat) (s : State) : (underrun n s).payload = s.payload := rfl
@[simp] theorem underrun_env (n : Nat) (s : State) : (underrun n s).env = s.env := rfl

/-! `ringRead` -/

@[simp] theorem ringRead_cfg (n : Nat) (s : State) : (ringRead n s).cfg = s.cfg := rfl
@[simp] theorem ringRead_dp (n : Nat) (s : State) : (ringRead n s).dp = s.dp := rfl
@[simp] theorem ringRead_ring (n : Nat) (s : State) :
    (ringRead n s).ring = { s.ring with opos := (s.ring.opos + n) % s.cfg.cap } :=
  rfl
@[simp] theorem ringRead_started (n : Nat) (s : State) : (ringRead n s).started = s.started := rfl
@[simp] theorem ringRead_latchedN (n : Nat) (s : State) : (ringRead n s).latchedN = s.latchedN := rfl
@[simp] theorem ringRead_cons (n : Nat) (s : State) :
    (ringRead n s).cons = { s.cons with
      cbuf := Memory.writeFrom fZero s.cons.cbuf 0 (ringOldest n s) } :=
  rfl
@[simp] theorem ringRead_mod (n : Nat) (s : State) : (ringRead n s).mod = s.mod := rfl
@[simp] theorem ringRead_csr (n : Nat) (s : State) : (ringRead n s).csr = s.csr := rfl
@[simp] theorem ringRead_payload (n : Nat) (s : State) : (ringRead n s).payload = s.payload := rfl
@[simp] theorem ringRead_env (n : Nat) (s : State) : (ringRead n s).env = s.env := rfl

/-! `beginChunk` -/

@[simp] theorem beginChunk_cfg (n : Nat) (s : State) : (beginChunk n s).cfg = s.cfg := rfl
@[simp] theorem beginChunk_dp (n : Nat) (s : State) : (beginChunk n s).dp = s.dp := rfl
@[simp] theorem beginChunk_ring (n : Nat) (s : State) : (beginChunk n s).ring = s.ring := rfl
@[simp] theorem beginChunk_started (n : Nat) (s : State) : (beginChunk n s).started = s.started := rfl
@[simp] theorem beginChunk_latchedN (n : Nat) (s : State) : (beginChunk n s).latchedN = s.latchedN := rfl
@[simp] theorem beginChunk_cons (n : Nat) (s : State) :
    (beginChunk n s).cons = { s.cons with phase := .proc, cidx := 0, clen := n } :=
  rfl
@[simp] theorem beginChunk_mod (n : Nat) (s : State) : (beginChunk n s).mod = s.mod := rfl
@[simp] theorem beginChunk_csr (n : Nat) (s : State) : (beginChunk n s).csr = s.csr := rfl
@[simp] theorem beginChunk_payload (n : Nat) (s : State) : (beginChunk n s).payload = s.payload := rfl
@[simp] theorem beginChunk_env (n : Nat) (s : State) : (beginChunk n s).env = s.env := rfl

/-! `saturated` -/

@[simp] theorem saturated_cfg (n : Nat) (s : State) : (saturated n s).cfg = s.cfg := rfl
@[simp] theorem saturated_dp (n : Nat) (s : State) : (saturated n s).dp = s.dp := rfl
@[simp] theorem saturated_ring (n : Nat) (s : State) : (saturated n s).ring = s.ring := rfl
@[simp] theorem saturated_started (n : Nat) (s : State) : (saturated n s).started = s.started := rfl
@[simp] theorem saturated_latchedN (n : Nat) (s : State) : (saturated n s).latchedN = s.latchedN := rfl
@[simp] theorem saturated_cons (n : Nat) (s : State) : (saturated n s).cons = s.cons := rfl
@[simp] theorem saturated_mod (n : Nat) (s : State) : (saturated n s).mod = s.mod := rfl
@[simp] theorem saturated_csr (n : Nat) (s : State) :
    (saturated n s).csr = { s.csr with
      satCnt := satInc s.csr.satCnt, status := { s.csr.status with modSat := true }, cause := causeWord .modSat n } :=
  rfl
@[simp] theorem saturated_payload (n : Nat) (s : State) : (saturated n s).payload = s.payload := rfl
@[simp] theorem saturated_env (n : Nat) (s : State) : (saturated n s).env = s.env := rfl

/-! `modCommit` -/

@[simp] theorem modCommit_cfg (s : State) : (modCommit s).cfg = s.cfg := by unfold modCommit; split <;> rfl
@[simp] theorem modCommit_dp (s : State) : (modCommit s).dp = s.dp := by unfold modCommit; split <;> rfl
@[simp] theorem modCommit_ring (s : State) : (modCommit s).ring = s.ring := by unfold modCommit; split <;> rfl
@[simp] theorem modCommit_started (s : State) : (modCommit s).started = s.started := by unfold modCommit; split <;> rfl
@[simp] theorem modCommit_latchedN (s : State) : (modCommit s).latchedN = s.latchedN := by unfold modCommit; split <;> rfl
@[simp] theorem modCommit_cons (s : State) : (modCommit s).cons = consAdvance s.cons := by unfold modCommit; split <;> rfl
@[simp] theorem modCommit_mod (s : State) : (modCommit s).mod = modAdvance s := by unfold modCommit; split <;> rfl
@[simp] theorem modCommit_csr (s : State) :
    (modCommit s).csr = if modSat s = 0 then s.csr else (saturated (modSat s) s).csr :=
  by unfold modCommit; split <;> rfl
@[simp] theorem modCommit_payload (s : State) : (modCommit s).payload = s.payload := by unfold modCommit; split <;> rfl
@[simp] theorem modCommit_env (s : State) : (modCommit s).env = s.env := by unfold modCommit; split <;> rfl

/-! `csrReadEffect` -/

@[simp] theorem csrReadEffect_cfg (r : Csr) (s : State) :
    (csrReadEffect r s).cfg = s.cfg :=
  by unfold csrReadEffect; split <;> rfl
@[simp] theorem csrReadEffect_dp (r : Csr) (s : State) :
    (csrReadEffect r s).dp = s.dp :=
  by unfold csrReadEffect; split <;> rfl
@[simp] theorem csrReadEffect_ring (r : Csr) (s : State) :
    (csrReadEffect r s).ring = s.ring :=
  by unfold csrReadEffect; split <;> rfl
@[simp] theorem csrReadEffect_started (r : Csr) (s : State) :
    (csrReadEffect r s).started = s.started :=
  by unfold csrReadEffect; split <;> rfl
@[simp] theorem csrReadEffect_latchedN (r : Csr) (s : State) :
    (csrReadEffect r s).latchedN = s.latchedN :=
  by unfold csrReadEffect; split <;> rfl
@[simp] theorem csrReadEffect_cons (r : Csr) (s : State) :
    (csrReadEffect r s).cons = s.cons :=
  by unfold csrReadEffect; split <;> rfl
@[simp] theorem csrReadEffect_mod (r : Csr) (s : State) :
    (csrReadEffect r s).mod = s.mod :=
  by unfold csrReadEffect; split <;> rfl
@[simp] theorem csrReadEffect_payload (r : Csr) (s : State) :
    (csrReadEffect r s).payload = s.payload :=
  by unfold csrReadEffect; split <;> rfl
@[simp] theorem csrReadEffect_env (r : Csr) (s : State) :
    (csrReadEffect r s).env = s.env :=
  by unfold csrReadEffect; split <;> rfl

/-! `writeCtrl` -/

@[simp] theorem writeCtrl_cfg (w : Word) (s : State) : (writeCtrl w s).cfg = s.cfg := by unfold writeCtrl; split <;> rfl
@[simp] theorem writeCtrl_dp (w : Word) (s : State) :
    (writeCtrl w s).dp = if ctrlLow (ctrlOf w) = ctrlLow s.csr.ctrl then s.dp
      else Datapath.reset s.cfg :=
  by unfold writeCtrl; split <;> rfl
@[simp] theorem writeCtrl_ring (w : Word) (s : State) : (writeCtrl w s).ring = s.ring := by unfold writeCtrl; split <;> rfl
@[simp] theorem writeCtrl_started (w : Word) (s : State) :
    (writeCtrl w s).started = s.started :=
  by unfold writeCtrl; split <;> rfl
@[simp] theorem writeCtrl_latchedN (w : Word) (s : State) :
    (writeCtrl w s).latchedN = s.latchedN :=
  by unfold writeCtrl; split <;> rfl
@[simp] theorem writeCtrl_cons (w : Word) (s : State) : (writeCtrl w s).cons = s.cons := by unfold writeCtrl; split <;> rfl
@[simp] theorem writeCtrl_mod (w : Word) (s : State) : (writeCtrl w s).mod = s.mod := by unfold writeCtrl; split <;> rfl
@[simp] theorem writeCtrl_csr (w : Word) (s : State) :
    (writeCtrl w s).csr = { s.csr with ctrl := ctrlOf w } :=
  by unfold writeCtrl; split <;> rfl
@[simp] theorem writeCtrl_payload (w : Word) (s : State) :
    (writeCtrl w s).payload = s.payload :=
  by unfold writeCtrl; split <;> rfl
@[simp] theorem writeCtrl_env (w : Word) (s : State) : (writeCtrl w s).env = s.env := by unfold writeCtrl; split <;> rfl

/-! `illegalOp` -/

@[simp] theorem illegalOp_cfg (p : Port) (w : Word) (s : State) : (illegalOp p w s).cfg = s.cfg := by simp [illegalOp]
@[simp] theorem illegalOp_dp (p : Port) (w : Word) (s : State) : (illegalOp p w s).dp = s.dp := by simp [illegalOp]
@[simp] theorem illegalOp_ring (p : Port) (w : Word) (s : State) : (illegalOp p w s).ring = s.ring := by simp [illegalOp]
@[simp] theorem illegalOp_started (p : Port) (w : Word) (s : State) :
    (illegalOp p w s).started = s.started :=
  by simp [illegalOp]
@[simp] theorem illegalOp_latchedN (p : Port) (w : Word) (s : State) :
    (illegalOp p w s).latchedN = s.latchedN :=
  by simp [illegalOp]
@[simp] theorem illegalOp_cons (p : Port) (w : Word) (s : State) : (illegalOp p w s).cons = s.cons := by simp [illegalOp]
@[simp] theorem illegalOp_mod (p : Port) (w : Word) (s : State) : (illegalOp p w s).mod = s.mod := by simp [illegalOp]
@[simp] theorem illegalOp_csr (p : Port) (w : Word) (s : State) :
    (illegalOp p w s).csr = (recordRefusal .illegalOp (field w 31 16) s).csr :=
  by simp [illegalOp]
@[simp] theorem illegalOp_payload (p : Port) (w : Word) (s : State) :
    (illegalOp p w s).payload = s.payload :=
  by simp [illegalOp]

/-! `handArgs` -/

@[simp] theorem handArgs_cfg (xs : List F32) (s : State) : (handArgs xs s).cfg = s.cfg := rfl
@[simp] theorem handArgs_dp (xs : List F32) (s : State) : (handArgs xs s).dp = s.dp := rfl
@[simp] theorem handArgs_ring (xs : List F32) (s : State) : (handArgs xs s).ring = s.ring := rfl
@[simp] theorem handArgs_started (xs : List F32) (s : State) : (handArgs xs s).started = s.started := rfl
@[simp] theorem handArgs_latchedN (xs : List F32) (s : State) : (handArgs xs s).latchedN = s.latchedN := rfl
@[simp] theorem handArgs_cons (xs : List F32) (s : State) : (handArgs xs s).cons = s.cons := rfl
@[simp] theorem handArgs_mod (xs : List F32) (s : State) : (handArgs xs s).mod = s.mod := rfl
@[simp] theorem handArgs_csr (xs : List F32) (s : State) : (handArgs xs s).csr = s.csr := rfl
@[simp] theorem handArgs_payload (xs : List F32) (s : State) : (handArgs xs s).payload = s.payload := rfl
@[simp] theorem handArgs_env (xs : List F32) (s : State) :
    (handArgs xs s).env = { s.env with args := Memory.writeFrom fZero [] 0 xs } :=
  rfl

/-! What a response leaves of the environment -/

@[simp] theorem respond_control_env (e : Bool) (d : Word) (s : State) :
    (respond .control e d s).env = { s.env with ctlOut := some ⟨e, d⟩ } := rfl
@[simp] theorem respond_audio_env (e : Bool) (d : Word) (s : State) :
    (respond .audio e d s).env = { s.env with audOut := some ⟨e, d⟩ } := rfl
@[simp] theorem refuse_env (p : Port) (c : Code) (n : Nat) (s : State) :
    (refuse p c n s).env = (respond p true (codeWord c) s).env := by cases p <;> simp [refuse]
@[simp] theorem fatalStop_env (p : Port) (c : Code) (n : Nat) (s : State) :
    (fatalStop p c n s).env = (respond p true (codeWord c) s).env := by cases p <;> simp [fatalStop]

/-! The state of a channel -/

@[simp] theorem chanOf_setChan (dp : Datapath) (c : Chan) (ch : Channel) : chanOf (setChan dp c ch) c = ch := by cases c <;> rfl
theorem chanOf_setChan_ne (dp : Datapath) {c d : Chan} (ch : Channel) (h : d ≠ c) : chanOf (setChan dp c ch) d = chanOf dp d := by
  cases c <;> cases d <;> first | rfl | contradiction
@[simp] theorem setChan_muxState (dp : Datapath) (c : Chan) (ch : Channel) : (setChan dp c ch).muxState = dp.muxState := by
  cases c <;> rfl
@[simp] theorem setChan_encPhase (dp : Datapath) (c : Chan) (ch : Channel) : (setChan dp c ch).encPhase = dp.encPhase := by
  cases c <;> rfl
@[simp] theorem setChan_cursor (dp : Datapath) (c : Chan) (ch : Channel) : (setChan dp c ch).cursor = dp.cursor := by
  cases c <;> rfl
@[simp] theorem setChan_sym (dp : Datapath) (c : Chan) (ch : Channel) : (setChan dp c ch).sym = dp.sym := by cases c <;> rfl
@[simp] theorem setChan_level (dp : Datapath) (c : Chan) (ch : Channel) : (setChan dp c ch).level = dp.level := by
  cases c <;> rfl

/-! The whole of an update at once -/

/-- Recording a refusal changes `CFG_ERR` and `CAUSE`, and nothing at all while the block is halted. -/
theorem recordRefusal_eq (c : Code) (n : Nat) (s : State) :
    recordRefusal c n s =
      { s with csr := if s.csr.status.fatal then s.csr
          else { s.csr with status := { s.csr.status with cfgErr := true }, cause := causeWord c n } } := by
  unfold recordRefusal
  cases h : s.csr.status.fatal <;> rfl

/-- The lazy start sets `S.started` and changes nothing else. -/
theorem startCheck_eq (s : State) :
    startCheck s = { s with started := s.started || decide (s.csr.delay.toNat ≤ occupancy s) } := by
  obtain ⟨_, _, _, started, _, _, _, _, _, _⟩ := s
  unfold startCheck
  cases started
  · simp only [Bool.not_false, Bool.true_and, Bool.false_or, decide_eq_true_eq]
    split <;> simp [*]
  · rfl

/-- An overrun changes the counter, and outside calibration the flag and `CAUSE`. -/
theorem overrun_csr (m : Nat) (s : State) :
    (overrun m s).csr =
      { s.csr with
        ovrCnt := satInc s.csr.ovrCnt
        status := if s.csr.ctrl.cal then s.csr.status else { s.csr.status with ovr := true }
        cause := if s.csr.ctrl.cal then s.csr.cause else causeWord .overrun (min m 0xFFFF) } := by
  unfold overrun
  cases h : s.csr.ctrl.cal <;> simp

/-- A counter counts one event and stays at `0xFFFFFFFF` (10_state R60). -/
theorem satInc_toNat (n : Word) : (satInc n).toNat = min (n.toNat + 1) 0xFFFFFFFF := by
  unfold satInc
  split
  · subst_vars; rfl
  · have : n.toNat ≠ 0xFFFFFFFF := fun h => by simp_all [← BitVec.toNat_inj]
    have := n.isLt
    rw [BitVec.toNat_add]
    simp
    omega

/-- `CAUSE` holds the information above and the code below (60_exceptions R382). -/
theorem causeWord_eq (c : Code) (n : Nat) (h : n < 2 ^ 16) : causeWord c n = BitVec.ofNat 32 (n * 2 ^ 16 + codeNum c) := by
  have hc : codeNum c < 2 ^ 16 := by cases c <;> decide
  apply BitVec.eq_of_toNat_eq
  rw [causeWord, BitVec.toNat_append, BitVec.toNat_ofNat, BitVec.toNat_ofNat, BitVec.toNat_ofNat, Nat.mod_eq_of_lt h,
    Nat.mod_eq_of_lt hc, ← Nat.shiftLeft_add_eq_or_of_lt hc, Nat.shiftLeft_eq]
  omega

end Sys2Proof.Machine
end

