-- ==== Sys2Proof/Laws/Datapath.lean ====
section
/-! SUPPORT. What the datapath stages keep, and what a stage over a block keeps, said once. -/

namespace Sys2Proof.Machine

/-! ### A stage over a block -/

@[simp] theorem mapState_nil {σ α β : Type} (f : σ → α → β × σ) (st : σ) : mapState f st [] = ([], st) := rfl

@[simp] theorem mapState_cons {σ α β : Type} (f : σ → α → β × σ) (st : σ) (x : α) (xs : List α) :
    mapState f st (x :: xs) = ((f st x).1 :: (mapState f (f st x).2 xs).1, (mapState f (f st x).2 xs).2) := rfl

theorem mapState_append {σ α β : Type} (f : σ → α → β × σ) (st : σ) (xs ys : List α) :
    mapState f st (xs ++ ys) =
      ((mapState f st xs).1 ++ (mapState f (mapState f st xs).2 ys).1, (mapState f (mapState f st xs).2 ys).2) := by
  induction xs generalizing st with
  | nil => rfl
  | cons x xs ih => simp [ih]

@[simp] theorem mapState_length {σ α β : Type} (f : σ → α → β × σ) (st : σ) (xs : List α) :
    (mapState f st xs).1.length = xs.length := by
  induction xs generalizing st with
  | nil => rfl
  | cons x xs ih => simp [ih]

/-- What every sample keeps, the block keeps. -/
theorem mapState_keeps {σ α β : Type} {f : σ → α → β × σ} (P : σ → Prop) (h : ∀ st x, P st → P (f st x).2) (st : σ) (xs : List α)
    (h0 : P st) : P (mapState f st xs).2 := by
  induction xs generalizing st with
  | nil => exact h0
  | cons x xs ih => exact ih _ (h st x h0)

/-- Two stages whose states stay related produce related states. -/
theorem mapState_related {σ τ α β γ δ : Type} {f : σ → α → β × σ} {g : τ → γ → δ × τ} (R : σ → τ → Prop)
    (h : ∀ a b x y, R a b → R (f a x).2 (g b y).2) (a : σ) (b : τ) (xs : List α) (ys : List γ) (hl : xs.length = ys.length)
    (h0 : R a b) : R (mapState f a xs).2 (mapState g b ys).2 := by
  induction xs generalizing a b ys with
  | nil => cases ys with | nil => exact h0 | cons y ys => simp at hl
  | cons x xs ih => cases ys with | nil => simp at hl | cons y ys => exact ih _ _ ys (by simpa using hl) (h a b x y h0)

/-! ### Pre-emphasis -/

@[simp] theorem preStep_hist (cfg : Config) (r : Word) (ch : Channel) (x : F32) : (preStep cfg r ch x).2.hist = ch.hist := rfl
@[simp] theorem preStep_t (cfg : Config) (r : Word) (ch : Channel) (x : F32) : (preStep cfg r ch x).2.t = ch.t := rfl
@[simp] theorem preStep_last (cfg : Config) (r : Word) (ch : Channel) (x : F32) : (preStep cfg r ch x).2.last = x := rfl

/-! ### Resampler -/

@[simp] theorem rsmPush_last (cfg : Config) (r : F32) (ch : Channel) (x : F32) : (rsmPush cfg r ch x).2.last = ch.last := rfl
@[simp] theorem rsmPush_hist (cfg : Config) (r : F32) (ch : Channel) (x : F32) :
    (rsmPush cfg r ch x).2.hist = rsmShift ch.hist x := rfl

theorem rsmShift_length {hist : List F32} (x : F32) (h : 1 ≤ hist.length) : (rsmShift hist x).length = hist.length := by
  simp [rsmShift]; omega

/-- The last counter of the loop depends on the ratio and the first counter only. -/
theorem rsmLoop_counter (cfg cfg' : Config) (r : F32) (hist hist' : List F32) (n : Nat) (t : F32) :
    (rsmLoop cfg r hist n t).2 = (rsmLoop cfg' r hist' n t).2 := by
  induction n generalizing t with
  | zero => rfl
  | succ n ih => unfold rsmLoop; split <;> simp [ih (flAdd t r)]

/-- So does the number of outputs. -/
theorem rsmLoop_length (cfg cfg' : Config) (r : F32) (hist hist' : List F32) (n : Nat) (t : F32) :
    (rsmLoop cfg r hist n t).1.length = (rsmLoop cfg' r hist' n t).1.length := by
  induction n generalizing t with
  | zero => rfl
  | succ n ih => unfold rsmLoop; split <;> simp [ih (flAdd t r)]

/-- Two channels with equal counters have equal counters after one input each (42_resampler R225 item 5). -/
theorem rsmPush_counter (cfg : Config) (r : F32) (a b : Channel) (x y : F32) (h : a.t = b.t) :
    (rsmPush cfg r a x).2.t = (rsmPush cfg r b y).2.t := by
  simp only [rsmPush, h]; exact rsmLoop_counter ..

/-- And emit equally many samples. -/
theorem rsmPush_count (cfg : Config) (r : F32) (a b : Channel) (x y : F32) (h : a.t = b.t) :
    (rsmPush cfg r a x).1.length = (rsmPush cfg r b y).1.length := by
  simp only [rsmPush, h]; exact rsmLoop_length ..

/-! ### Multiplexer and encoder -/

@[simp] theorem muxStep_dp (cfg : Config) (dp : Datapath) (f : F32 × F32) :
    (muxStep cfg dp f).2 = { dp with muxState := dp.muxState + 1 } := rfl

@[simp] theorem encFetch_encPhase (p : List Host.Cell) (len : Nat) (dp : Datapath) : (encFetch p len dp).encPhase = dp.encPhase := by
  unfold encFetch; split <;> rfl
@[simp] theorem encFetch_ch0 (p : List Host.Cell) (len : Nat) (dp : Datapath) : (encFetch p len dp).ch0 = dp.ch0 := by
  unfold encFetch; split <;> rfl
@[simp] theorem encFetch_ch1 (p : List Host.Cell) (len : Nat) (dp : Datapath) : (encFetch p len dp).ch1 = dp.ch1 := by
  unfold encFetch; split <;> rfl
@[simp] theorem encFetch_muxState (p : List Host.Cell) (len : Nat) (dp : Datapath) :
    (encFetch p len dp).muxState = dp.muxState := by
  unfold encFetch; split <;> rfl

@[simp] theorem encStep_ch0 (cfg : Config) (p : List Host.Cell) (len : Nat) (dp : Datapath) (x : F32) :
    (encStep cfg p len dp x).2.ch0 = dp.ch0 := by simp [encStep]
@[simp] theorem encStep_ch1 (cfg : Config) (p : List Host.Cell) (len : Nat) (dp : Datapath) (x : F32) :
    (encStep cfg p len dp x).2.ch1 = dp.ch1 := by simp [encStep]
@[simp] theorem encStep_muxState (cfg : Config) (p : List Host.Cell) (len : Nat) (dp : Datapath) (x : F32) :
    (encStep cfg p len dp x).2.muxState = dp.muxState := by simp [encStep]
@[simp] theorem encStep_encPhase (cfg : Config) (p : List Host.Cell) (len : Nat) (dp : Datapath) (x : F32) :
    (encStep cfg p len dp x).2.encPhase = (dp.encPhase + 1) % cfg.encPeriod := rfl
@[simp] theorem encStep_cursor (cfg : Config) (p : List Host.Cell) (len : Nat) (dp : Datapath) (x : F32) :
    (encStep cfg p len dp x).2.cursor = if dp.encPhase = 0 then (dp.cursor + 1) % (8 * len) else dp.cursor := by
  simp only [encStep, encFetch]; split <;> rfl
@[simp] theorem encStep_sym (cfg : Config) (p : List Host.Cell) (len : Nat) (dp : Datapath) (x : F32) :
    (encStep cfg p len dp x).2.sym = if dp.encPhase = 0 then dp.sym ^^ payloadBit p dp.cursor else dp.sym := by
  simp only [encStep, encFetch]; split <;> rfl

/-! ### The stages of a `PUSH` -/

/-- A channel's stage, by the parts of its results. -/
theorem channelStage_eq (s : State) (ch : Channel) (xs : List F32) :
    channelStage s ch xs =
      let p := mapState (preStep s.cfg s.csr.srcRate) ch xs
      if s.csr.ctrl.resampEn then
        ((mapState (rsmPush s.cfg s.csr.ratio) p.2 p.1).1.flatten, (mapState (rsmPush s.cfg s.csr.ratio) p.2 p.1).2)
      else p := rfl

/-- The cascade, by the parts of its results. -/
theorem cascade_eq (s : State) (ls rs : List F32) :
    cascade s ls rs =
      let p0 := channelStage s s.dp.ch0 ls
      let p1 := if s.csr.ctrl.nch2 then channelStage s s.dp.ch1 rs else ([], s.dp.ch1)
      let p2 := compositeStage s { s.dp with ch0 := p0.2, ch1 := p1.2 } (frames p0.1 p1.1)
      encoderStage s p2.2 p2.1 := rfl

/-- What a `PUSH` that passed its checks does, by the parts of its results. -/
theorem pushBlock_eq (n : Nat) (ls rs : List F32) (s : State) :
    pushBlock n ls rs s =
      let p := cascade s ls rs
      let q := fifoWrite p.1.length p.1 { s with dp := p.2, latchedN := n }
      respond .audio false (pushData q.2 p.1.length) (startCheck q.1) := rfl

/-- What every input's pre-emphasis and resampling keep of a channel, the channel's stage keeps. -/
theorem channelStage_keeps (P : Channel → Prop) (s : State) (ch : Channel) (xs : List F32)
    (hp : ∀ c x, P c → P (preStep s.cfg s.csr.srcRate c x).2) (hr : ∀ c x, P c → P (rsmPush s.cfg s.csr.ratio c x).2)
    (h : P ch) : P (channelStage s ch xs).2 := by
  have h1 := mapState_keeps P hp ch xs h
  rw [channelStage_eq]
  dsimp only
  split
  · exact mapState_keeps P hr _ _ h1
  · exact h1

/-- A channel's stage keeps its history's length. -/
theorem channelStage_hist (s : State) (ch : Channel) (xs : List F32) (h : 1 ≤ ch.hist.length) :
    (channelStage s ch xs).2.hist.length = ch.hist.length :=
  channelStage_keeps (fun c => c.hist.length = ch.hist.length) s ch xs (fun _ _ h => h)
    (fun c x hc => by rw [rsmPush_hist, rsmShift_length x (by omega)]; exact hc) rfl

/-- The composite stage moves nothing but the multiplexer's phase. -/
theorem compositeStage_dp (s : State) (dp : Datapath) (fs : List (F32 × F32)) :
    (compositeStage s dp fs).2 = { dp with muxState := (compositeStage s dp fs).2.muxState } := by
  unfold compositeStage
  split
  · exact mapState_keeps (fun d : Datapath => d = { dp with muxState := d.muxState })
      (fun d x h => by rw [muxStep_dp]; rw [h]) dp fs rfl
  · rfl

/-- The encoder's stage moves nothing but the encoder. -/
theorem encoderStage_dp (s : State) (dp : Datapath) (zs : List F32) :
    (encoderStage s dp zs).2.ch0 = dp.ch0 ∧ (encoderStage s dp zs).2.ch1 = dp.ch1 ∧
      (encoderStage s dp zs).2.muxState = dp.muxState := by
  unfold encoderStage
  split
  · exact mapState_keeps (fun d : Datapath => d.ch0 = dp.ch0 ∧ d.ch1 = dp.ch1 ∧ d.muxState = dp.muxState)
      (fun d x h => by simpa using h) dp zs ⟨rfl, rfl, rfl⟩
  · exact ⟨rfl, rfl, rfl⟩

end Sys2Proof.Machine
end

