-- ==== Sys2Proof/Laws/Float.lean ====
section
/-! SUPPORT. What rounding once guarantees (00_scope R12): `fPack` is monotone against every representable value, and exact on
one. From it, bounds and exactness of each binary32 operation. -/

namespace Sys2Proof.Machine

/-! ### Values of exponent and fraction bits -/

/-- The magnitude the exponent and fraction bits `b` stand for, in units of `2^-149`. -/
def fVal (b : Nat) : Nat := if b / 2 ^ 23 = 0 then b else (2 ^ 23 + b % 2 ^ 23) * 2 ^ (b / 2 ^ 23 - 1)

theorem fVal_mono {b c : Nat} (h : b ≤ c) : fVal b ≤ fVal c := by
  unfold fVal
  split <;> split
  · exact h
  · have h1 : 1 ≤ 2 ^ (c / 2 ^ 23 - 1) := Nat.one_le_two_pow
    calc b ≤ 2 ^ 23 := by omega
      _ ≤ (2 ^ 23 + c % 2 ^ 23) * 1 := by omega
      _ ≤ _ := Nat.mul_le_mul_left _ h1
  · omega
  · rcases Nat.lt_or_ge (b / 2 ^ 23) (c / 2 ^ 23) with he | he
    · have : b / 2 ^ 23 - 1 + 1 ≤ c / 2 ^ 23 - 1 := by omega
      calc (2 ^ 23 + b % 2 ^ 23) * 2 ^ (b / 2 ^ 23 - 1) ≤ 2 ^ 24 * 2 ^ (b / 2 ^ 23 - 1) :=
            Nat.mul_le_mul_right _ (by omega)
        _ = 2 ^ 23 * 2 ^ (b / 2 ^ 23 - 1 + 1) := by rw [pow_succ]; ring
        _ ≤ 2 ^ 23 * 2 ^ (c / 2 ^ 23 - 1) := Nat.mul_le_mul_left _ (Nat.pow_le_pow_right (by omega) this)
        _ ≤ _ := Nat.mul_le_mul_right _ (by omega)
    · have : b / 2 ^ 23 = c / 2 ^ 23 := by omega
      rw [this]
      exact Nat.mul_le_mul_right _ (by omega)

theorem fMag_eq (x : F32) : fMag x = fVal (x.toNat % 2 ^ 31) := by
  unfold fMag fVal fExp fFrac
  have h1 : x.toNat / 2 ^ 23 % 256 = x.toNat % 2 ^ 31 / 2 ^ 23 := by omega
  have h2 : x.toNat % 2 ^ 23 = x.toNat % 2 ^ 31 % 2 ^ 23 := by omega
  rw [h1, h2]
  split
  · omega
  · rfl

/-! ### Rounding -/

/-- The significand that rounding keeps has at most 24 bits. -/
theorem fNearest_bound (q : Nat) : q / 2 ^ (q.log2 - 23) < 2 ^ 24 := by
  rw [Nat.div_lt_iff_lt_mul (by positivity), ← pow_add]
  exact lt_of_lt_of_le Nat.lt_log2_self (Nat.pow_le_pow_right (by omega) (by omega))

/-- Rounding is not below a representable value that the exact value is not below. -/
theorem fNearest_ge {b num den : Nat} (hb : b ≤ 0x7F800000) (hd : 0 < den) (h : fVal b * den ≤ num) : b ≤ fNearest num den := by
  unfold fNearest
  dsimp only
  have hq : fVal b ≤ num / den := (Nat.le_div_iff_mul_le hd).mpr h
  rw [← Nat.div_div_eq_div_mul]
  generalize num / den = q at hq ⊢
  refine Nat.le_min.mpr ⟨?_, hb⟩
  suffices b ≤ (q.log2 - 23) * 2 ^ 23 + q / 2 ^ (q.log2 - 23) from
    le_trans this (Nat.add_le_add_left (Nat.le_add_right _ _) _)
  have hlow : 0 < q.log2 - 23 → 2 ^ 23 ≤ q / 2 ^ (q.log2 - 23) := by
    intro hs
    rw [Nat.le_div_iff_mul_le (by positivity), ← pow_add, show 23 + (q.log2 - 23) = q.log2 by omega]
    exact Nat.log2_self_le (by rintro rfl; simp at hs)
  unfold fVal at hq
  split at hq
  · rcases Nat.eq_zero_or_pos (q.log2 - 23) with hs | hs
    · rw [hs]; simpa using hq
    · have := hlow hs; omega
  · rename_i he
    have hq0 : q ≠ 0 := by
      rintro rfl
      have : 0 < (2 ^ 23 + b % 2 ^ 23) * 2 ^ (b / 2 ^ 23 - 1) := by positivity
      omega
    have hl : 23 + (b / 2 ^ 23 - 1) ≤ q.log2 := by
      rw [Nat.le_log2 hq0, pow_add]
      exact le_trans (Nat.mul_le_mul_right _ (by omega)) hq
    rcases Nat.lt_or_ge (b / 2 ^ 23 - 1) (q.log2 - 23) with hs | hs
    · have := hlow (by omega); omega
    · have e : q.log2 - 23 = b / 2 ^ 23 - 1 := by omega
      rw [e]
      have : 2 ^ 23 + b % 2 ^ 23 ≤ q / 2 ^ (b / 2 ^ 23 - 1) := (Nat.le_div_iff_mul_le (by positivity)).mpr hq
      omega

/-- Rounding is not above a representable value that the exact value is not above. -/
theorem fNearest_le {b num den : Nat} (hd : 0 < den) (h : num ≤ fVal b * den) : fNearest num den ≤ b := by
  unfold fNearest
  dsimp only
  refine le_trans (Nat.min_le_left _ _) ?_
  have hqb : num / den ≤ fVal b := Nat.div_le_of_le_mul (by rw [Nat.mul_comm]; exact h)
  have hm : num / (den * 2 ^ ((num / den).log2 - 23)) = num / den / 2 ^ ((num / den).log2 - 23) := (Nat.div_div_eq_div_mul ..).symm
  have hb24 := fNearest_bound (num / den)
  rw [← hm] at hb24
  have hlog : b / 2 ^ 23 = 0 → (num / den).log2 - 23 = 0 := by
    intro he
    unfold fVal at hqb; rw [if_pos he] at hqb
    have : num / den < 2 ^ 23 := by omega
    rcases Nat.eq_zero_or_pos (num / den) with h0 | h0
    · rw [h0]; simp
    · have := (Nat.log2_lt (by omega)).mpr this; omega
  have hlog' : b / 2 ^ 23 ≠ 0 → (num / den).log2 - 23 ≤ b / 2 ^ 23 - 1 := by
    intro he
    unfold fVal at hqb; rw [if_neg he] at hqb
    have h1 : num / den < 2 ^ (23 + b / 2 ^ 23) := by
      calc num / den ≤ (2 ^ 23 + b % 2 ^ 23) * 2 ^ (b / 2 ^ 23 - 1) := hqb
        _ < 2 ^ 24 * 2 ^ (b / 2 ^ 23 - 1) := Nat.mul_lt_mul_of_pos_right (by omega) (by positivity)
        _ = 2 ^ (23 + b / 2 ^ 23) := by rw [← pow_add]; congr 1; omega
    rcases Nat.eq_zero_or_pos (num / den) with h0 | h0
    · rw [h0]; simp
    · have := (Nat.log2_lt (by omega)).mpr h1; omega
  generalize hsh : (num / den).log2 - 23 = sh at hb24 hlog hlog' ⊢
  have hd' : 0 < den * 2 ^ sh := by positivity
  -- the sum of the kept significand and the increment, against a bound of the kept significand
  clear hqb hm hsh
  have key : ∀ M : Nat, num ≤ M * (den * 2 ^ sh) →
      num / (den * 2 ^ sh) + (if den * 2 ^ sh < 2 * (num % (den * 2 ^ sh)) ∨
        (2 * (num % (den * 2 ^ sh)) = den * 2 ^ sh ∧ num / (den * 2 ^ sh) % 2 = 1) then 1 else 0) ≤ M := by
    intro M hM
    have hle : num / (den * 2 ^ sh) ≤ M := Nat.div_le_of_le_mul (by rw [Nat.mul_comm]; exact hM)
    rcases Nat.lt_or_ge (num / (den * 2 ^ sh)) M with hlt | hge
    · split <;> omega
    · have he : num / (den * 2 ^ sh) = M := by omega
      have hdm := Nat.div_add_mod num (den * 2 ^ sh)
      rw [he, Nat.mul_comm] at hdm
      rw [if_neg (by omega)]
      omega
  by_cases he : b / 2 ^ 23 = 0
  · have h0 := hlog he
    subst h0
    rw [Nat.zero_mul, Nat.zero_add]
    exact key b (by unfold fVal at h; rw [if_pos he] at h; simpa using h)
  · have h1 := hlog' he
    rcases Nat.lt_or_ge sh (b / 2 ^ 23 - 1) with hlt | hge
    · split <;> omega
    · have hs : sh = b / 2 ^ 23 - 1 := by omega
      have := key (2 ^ 23 + b % 2 ^ 23) (by
        unfold fVal at h; rw [if_neg he] at h; rw [hs]
        rw [Nat.mul_assoc, Nat.mul_comm (2 ^ _) den] at h; exact h)
      omega

/-- The value after the next one up is one unit in the last place away. -/
theorem fVal_succ (b : Nat) : fVal (b + 1) = fVal b + 2 ^ (b / 2 ^ 23 - 1) := by
  unfold fVal
  rcases Nat.lt_or_ge (b % 2 ^ 23 + 1) (2 ^ 23) with h | h
  · rw [show (b + 1) / 2 ^ 23 = b / 2 ^ 23 by omega, show (b + 1) % 2 ^ 23 = b % 2 ^ 23 + 1 by omega]
    split
    · rename_i he; rw [he]; simp
    · ring
  · rw [show (b + 1) / 2 ^ 23 = b / 2 ^ 23 + 1 by omega, show (b + 1) % 2 ^ 23 = 0 by omega, if_neg (by omega)]
    split
    · rename_i he; rw [he]; simp; omega
    · rename_i he
      rw [show b % 2 ^ 23 = 2 ^ 23 - 1 by omega, show b / 2 ^ 23 + 1 - 1 = b / 2 ^ 23 - 1 + 1 by omega,
        pow_succ 2 (b / 2 ^ 23 - 1)]
      generalize 2 ^ (b / 2 ^ 23 - 1) = p
      omega

/-- Rounding goes down below the middle between two representable values, and at the middle when the lower one is even. -/
theorem fNearest_le_half {b num den : Nat} (hd : 0 < den) (hb : b % 2 = 0)
    (h : 2 * num ≤ (fVal b + fVal (b + 1)) * den) : fNearest num den ≤ b := by
  rcases Nat.lt_or_ge (fVal b * den) num with hgt | hle
  swap
  · exact fNearest_le hd hle
  have hs := fVal_succ b
  rw [hs] at h
  generalize hp : 2 ^ (b / 2 ^ 23 - 1) = p at h hs
  have hp0 : 0 < p := hp ▸ by positivity
  have h2 : 2 * num ≤ 2 * (fVal b * den) + p * den := by
    calc 2 * num ≤ _ := h
      _ = _ := by ring
  have hpd : 0 < p * den := by positivity
  have hlt : num < fVal (b + 1) * den := by
    rw [hs, Nat.add_mul]; omega
  have hq1 : fVal b ≤ num / den := (Nat.le_div_iff_mul_le hd).mpr hgt.le
  have hq2 : num / den < fVal (b + 1) := (Nat.div_lt_iff_lt_mul hd).mpr hlt
  unfold fNearest
  dsimp only
  refine le_trans (Nat.min_le_left _ _) ?_
  -- the kept significand is that of `b`
  have hsh : (num / den).log2 - 23 = b / 2 ^ 23 - 1 := by
    by_cases he : b / 2 ^ 23 = 0
    · have : num / den < 2 ^ 23 := by
        rw [hs, ← hp, he] at hq2; unfold fVal at hq2; rw [if_pos he] at hq2; simp at hq2; omega
      rcases Nat.eq_zero_or_pos (num / den) with h0 | h0
      · rw [h0, he]; simp
      · have := (Nat.log2_lt (by omega)).mpr this; omega
    · have hv : fVal b = (2 ^ 23 + b % 2 ^ 23) * p := by unfold fVal; rw [if_neg he, hp]
      have h1 : 2 ^ (23 + (b / 2 ^ 23 - 1)) ≤ num / den := by
        rw [pow_add, hp]
        exact le_trans (Nat.mul_le_mul_right _ (by omega)) (hv ▸ hq1)
      have h2 : num / den < 2 ^ (24 + (b / 2 ^ 23 - 1)) := by
        rw [pow_add, hp]
        refine lt_of_lt_of_le hq2 ?_
        rw [hs, hv, ← Nat.succ_mul]
        exact Nat.mul_le_mul_right _ (by omega)
      have h0 : num / den ≠ 0 := by
        have : 0 < 2 ^ (23 + (b / 2 ^ 23 - 1)) := by positivity
        omega
      have := (Nat.le_log2 h0).mpr h1
      have := (Nat.log2_lt h0).mpr h2
      omega
  rw [hsh, hp]
  -- `M` is that significand: `fVal b = M * p`, and `b` is `M` beside the exponent
  obtain ⟨M, hM, hbM⟩ : ∃ M, fVal b = M * p ∧ (b / 2 ^ 23 - 1) * 2 ^ 23 + M = b := by
    by_cases he : b / 2 ^ 23 = 0
    · exact ⟨b, by unfold fVal; rw [if_pos he, ← hp, he]; simp, by rw [he]; simp⟩
    · exact ⟨2 ^ 23 + b % 2 ^ 23, by unfold fVal; rw [if_neg he, hp], by omega⟩
  have hD : 0 < den * p := by positivity
  have e1 : fVal b * den = M * (den * p) := by rw [hM]; ring
  have e2 : p * den = den * p := Nat.mul_comm ..
  rw [e1] at hgt h2
  rw [e2] at h2
  generalize den * p = D at hD hgt h2
  have hdiv : num / D = M := by
    apply Nat.div_eq_of_lt_le
    · exact hgt.le
    · rw [Nat.succ_mul]; omega
  have hmod := Nat.div_add_mod num D
  rw [hdiv, Nat.mul_comm] at hmod
  rw [hdiv, if_neg]
  · omega
  · omega

/-- Rounding a representable value is exact. -/
theorem fNearest_exact {b den : Nat} (hb : b ≤ 0x7F800000) (hd : 0 < den) : fNearest (fVal b * den) den = b :=
  Nat.le_antisymm (fNearest_le hd (Nat.le_refl _)) (fNearest_ge hb hd (Nat.le_refl _))

theorem fNearest_le_inf (num den : Nat) : fNearest num den ≤ 0x7F800000 := Nat.min_le_right _ _

/-! ### Bits of a packed value -/

theorem fBits_toNat (neg : Bool) {b : Nat} (hb : b ≤ 0x7F800000) : (fBits neg b).toNat = (if neg then 2 ^ 31 else 0) + b := by
  rw [fBits, BitVec.toNat_ofNat]; split <;> omega

theorem fBits_mod (neg : Bool) {b : Nat} (hb : b ≤ 0x7F800000) : (fBits neg b).toNat % 2 ^ 31 = b := by
  rw [fBits_toNat neg hb]; split <;> omega

theorem fSign_eq (x : F32) : fSign x = decide (2 ^ 31 ≤ x.toNat) := by
  rw [fSign, BitVec.getLsbD, Nat.testBit_eq_decide_div_mod_eq]
  have := x.isLt
  congr 1
  apply propext
  omega

@[simp] theorem fSign_fBits (neg : Bool) {b : Nat} (hb : b ≤ 0x7F800000) : fSign (fBits neg b) = neg := by
  rw [fSign_eq, fBits_toNat neg hb]; cases neg <;> simp; omega

/-- A value is its sign and its other bits. -/
theorem fBits_self (x : F32) : fBits (fSign x) (x.toNat % 2 ^ 31) = x := by
  apply BitVec.eq_of_toNat_eq
  have := x.isLt
  rw [fBits, fSign_eq, BitVec.toNat_ofNat]
  by_cases h : 2 ^ 31 ≤ x.toNat <;> simp only [h, decide_true, decide_false, if_true, Bool.false_eq_true, if_false] <;> omega

theorem fFinite_iff (x : F32) : fFinite x = true ↔ x.toNat % 2 ^ 31 < 0x7F800000 := by
  simp only [fFinite, fExp, bne_iff_ne]; omega

theorem fIsNaN_iff (x : F32) : fIsNaN x = true ↔ 0x7F800000 < x.toNat % 2 ^ 31 := by
  simp only [fIsNaN, fExp, fFrac, Bool.and_eq_true, beq_iff_eq, bne_iff_ne]; omega

theorem fIsInf_iff (x : F32) : fIsInf x = true ↔ x.toNat % 2 ^ 31 = 0x7F800000 := by
  simp only [fIsInf, fExp, fFrac, Bool.and_eq_true, beq_iff_eq]; omega

theorem fFinite_not_nan {x : F32} (h : fFinite x = true) : fIsNaN x = false := by
  rw [fFinite_iff] at h
  by_contra hc
  rw [Bool.not_eq_false, fIsNaN_iff] at hc; omega

theorem fFinite_not_inf {x : F32} (h : fFinite x = true) : fIsInf x = false := by
  rw [fFinite_iff] at h
  by_contra hc
  rw [Bool.not_eq_false, fIsInf_iff] at hc; omega

@[simp] theorem fPack_not_nan (neg : Bool) (num den : Nat) : fIsNaN (fPack neg num den) = false := by
  by_contra hc
  rw [Bool.not_eq_false, fIsNaN_iff, fPack, fBits_mod _ (fNearest_le_inf _ _)] at hc
  have := fNearest_le_inf num den; omega

/-! ### The order -/

/-- The units of the value with given sign and bits. -/
theorem fUnits_fBits (neg : Bool) {b : Nat} (hb : b ≤ 0x7F800000) :
    fUnits (fBits neg b) = if neg then -(fVal b : Int) else fVal b := by
  rw [fUnits, fSign_fBits neg hb, fMag_eq, fBits_mod neg hb]

/-- Rounding is not below a representable value that the exact value is not below: signed. -/
theorem fPack_ge {y : F32} (hy : fFinite y = true) {neg : Bool} {num den : Nat} (hd : 0 < den)
    (h : fUnits y * den ≤ if neg then -(num : Int) else num) : fUnits y ≤ fUnits (fPack neg num den) := by
  have hyb : y.toNat % 2 ^ 31 ≤ 0x7F800000 := by rw [fFinite_iff] at hy; omega
  have hu : fUnits y = if fSign y then -(fVal (y.toNat % 2 ^ 31) : Int) else fVal (y.toNat % 2 ^ 31) := by
    rw [fUnits, fMag_eq]
  rw [fPack, fUnits_fBits _ (fNearest_le_inf _ _)]
  rw [hu] at h ⊢
  clear hu
  generalize y.toNat % 2 ^ 31 = b at h hyb ⊢
  generalize fSign y = sy at h ⊢
  cases sy <;> cases neg <;> simp only [Bool.false_eq_true, if_false, if_true] at h ⊢
  · exact_mod_cast fVal_mono (fNearest_ge hyb hd (by exact_mod_cast h))
  · have h0 : (0 : Int) ≤ (fVal b : Int) * den := by positivity
    have hz : num = 0 := by omega
    have hb : fVal b * den = 0 := by
      have : (fVal b : Int) * den = 0 := by omega
      exact_mod_cast this
    have hb0 : fVal b = 0 := by
      rcases Nat.mul_eq_zero.mp hb with h | h <;> omega
    have h00 : fNearest 0 den = 0 := Nat.le_zero.mp (fNearest_le hd (by simp))
    rw [hz, h00, hb0]; simp [fVal]
  · have h1 : (0 : Int) ≤ (fVal b : Int) := by positivity
    have h2 : (0 : Int) ≤ (fVal (fNearest num den) : Int) := by positivity
    omega
  · have h1 : num ≤ fVal b * den := by
      have : (num : Int) ≤ (fVal b : Int) * den := by linarith
      exact_mod_cast this
    have h2 := fVal_mono (fNearest_le hd h1)
    have : ((fVal (fNearest num den) : Nat) : Int) ≤ (fVal b : Nat) := by exact_mod_cast h2
    omega

/-- The value with the other sign. -/
theorem fNeg_toNat (x : F32) : (fNeg x).toNat % 2 ^ 31 = x.toNat % 2 ^ 31 ∧ fSign (fNeg x) = !fSign x := by
  constructor
  · have h : ((fNeg x).setWidth 31).toNat = (x.setWidth 31).toNat := by
      congr 1
      ext i hi
      have : (0x80000000#32).getLsbD i = false := by
        simp only [BitVec.getLsbD, BitVec.toNat_ofNat]
        rw [show 2147483648 % 2 ^ 32 = 2 ^ 31 by norm_num, Nat.testBit_two_pow_of_ne (by omega)]
      rw [BitVec.getElem_setWidth, BitVec.getElem_setWidth, fNeg, BitVec.getLsbD_xor, this, Bool.xor_false]
    simpa using h
  · simp [fSign, fNeg]

@[simp] theorem fUnits_fNeg (x : F32) : fUnits (fNeg x) = -fUnits x := by
  obtain ⟨h1, h2⟩ := fNeg_toNat x
  simp only [fUnits, fMag_eq, h1, h2]
  cases fSign x <;> simp

@[simp] theorem fFinite_fNeg (x : F32) : fFinite (fNeg x) = fFinite x := by
  have h := (fNeg_toNat x).1
  rw [Bool.eq_iff_iff, fFinite_iff, fFinite_iff, h]

@[simp] theorem fIsNaN_fNeg (x : F32) : fIsNaN (fNeg x) = fIsNaN x := by
  have h := (fNeg_toNat x).1
  rw [Bool.eq_iff_iff, fIsNaN_iff, fIsNaN_iff, h]

theorem fNeg_fPack (neg : Bool) (num den : Nat) : fNeg (fPack neg num den) = fPack (!neg) num den := by
  have h := fNeg_toNat (fPack neg num den)
  rw [← fBits_self (fNeg (fPack neg num den)), h.1, h.2, fPack, fPack, fSign_fBits _ (fNearest_le_inf _ _),
    fBits_mod _ (fNearest_le_inf _ _)]

/-- Rounding is not above a representable value that the exact value is not above: signed. -/
theorem fPack_le {y : F32} (hy : fFinite y = true) {neg : Bool} {num den : Nat} (hd : 0 < den)
    (h : (if neg then -(num : Int) else num) ≤ fUnits y * den) : fUnits (fPack neg num den) ≤ fUnits y := by
  have := fPack_ge (y := fNeg y) (neg := !neg) (num := num) (by simpa using hy) hd (by
    cases neg <;> simp at h ⊢ <;> linarith)
  rw [← fNeg_fPack, fUnits_fNeg, fUnits_fNeg] at this
  omega

theorem fUnits_lt_of_finite {y : F32} (h : fFinite y = true) :
    fUnits y < fUnits 0x7F800000#32 ∧ -fUnits 0x7F800000#32 < fUnits y := by
  have h1 : fVal (y.toNat % 2 ^ 31) ≤ fVal 0x7F7FFFFF := fVal_mono (by rw [fFinite_iff] at h; omega)
  have h2 : fVal 0x7F7FFFFF < fVal 0x7F800000 := by decide
  have h3 : fUnits 0x7F800000#32 = (fVal 0x7F800000 : Int) := by decide
  rw [h3, fUnits, fMag_eq]
  generalize fVal 0x7F800000 = top at h2
  generalize fVal 0x7F7FFFFF = big at h1 h2
  split <;> omega

/-- A value that is not a NaN and lies between two finite values is finite. -/
theorem fFinite_of_between {x lo hi : F32} (hx : fIsNaN x = false) (hlo : fFinite lo = true) (hhi : fFinite hi = true)
    (h1 : fUnits lo ≤ fUnits x) (h2 : fUnits x ≤ fUnits hi) : fFinite x = true := by
  by_contra hc
  have hinf : x.toNat % 2 ^ 31 = 0x7F800000 := by
    rw [fFinite_iff] at hc
    rw [← Bool.not_eq_true, fIsNaN_iff] at hx
    omega
  have b1 := fUnits_lt_of_finite hlo
  have b2 := fUnits_lt_of_finite hhi
  have h3 : fUnits 0x7F800000#32 = (fVal 0x7F800000 : Int) := by decide
  rw [h3] at b1 b2
  have h4 : fUnits x = if fSign x then -(fVal 0x7F800000 : Int) else fVal 0x7F800000 := by rw [fUnits, fMag_eq, hinf]
  rw [h4] at h1 h2
  clear h3 h4
  generalize fVal 0x7F800000 = top at *
  generalize fSign x = sx at *
  cases sx <;> simp only [Bool.false_eq_true, if_false, if_true] at h1 h2 <;> omega

/-! ### Each operation on finite values -/

/-- The sum of finite values: no NaN, and bounded by every finite value that bounds the exact sum. -/
theorem flAdd_bounds {a b : F32} (ha : fFinite a = true) (hb : fFinite b = true) :
    fIsNaN (flAdd a b) = false ∧
      (∀ y, fFinite y = true → fUnits y ≤ fUnits a + fUnits b → fUnits y ≤ fUnits (flAdd a b)) ∧
      (∀ y, fFinite y = true → fUnits a + fUnits b ≤ fUnits y → fUnits (flAdd a b) ≤ fUnits y) := by
  unfold flAdd
  simp only [fFinite_not_nan ha, fFinite_not_nan hb, fFinite_not_inf ha, fFinite_not_inf hb, Bool.or_self, Bool.false_eq_true,
    if_false]
  split
  · rename_i h0
    have hz : fBits (fSign a && fSign b) 0 = fPack (fSign a && fSign b) 0 1 := by rw [fPack]; rfl
    rw [hz, h0]
    refine ⟨fPack_not_nan _ _ _, fun y hy h => fPack_ge hy one_pos ?_, fun y hy h => fPack_le hy one_pos ?_⟩ <;>
      (split <;> simpa using h)
  · have he : ∀ n : Int, (if decide (n < 0) = true then -(n.natAbs : Int) else n.natAbs) = n := by
      intro n
      by_cases h : n < 0
      · rw [decide_eq_true h, if_pos rfl]; omega
      · rw [decide_eq_false h, if_neg (by simp)]; omega
    refine ⟨fPack_not_nan _ _ _, fun y hy h => fPack_ge hy one_pos ?_, fun y hy h => fPack_le hy one_pos ?_⟩ <;>
      rw [he] <;> simpa using h

/-- The difference of finite values, likewise. -/
theorem flSub_bounds {a b : F32} (ha : fFinite a = true) (hb : fFinite b = true) :
    fIsNaN (flSub a b) = false ∧
      (∀ y, fFinite y = true → fUnits y ≤ fUnits a - fUnits b → fUnits y ≤ fUnits (flSub a b)) ∧
      (∀ y, fFinite y = true → fUnits a - fUnits b ≤ fUnits y → fUnits (flSub a b) ≤ fUnits y) := by
  have := flAdd_bounds (a := a) (b := fNeg b) ha (by simpa using hb)
  simpa [flSub, Int.sub_eq_add_neg] using this

/-- The product of finite values, likewise; the exact product has the units of `2^-298`. -/
theorem flMul_bounds {a b : F32} (ha : fFinite a = true) (hb : fFinite b = true) :
    fIsNaN (flMul a b) = false ∧
      (∀ y, fFinite y = true → fUnits y * 2 ^ 149 ≤ fUnits a * fUnits b → fUnits y ≤ fUnits (flMul a b)) ∧
      (∀ y, fFinite y = true → fUnits a * fUnits b ≤ fUnits y * 2 ^ 149 → fUnits (flMul a b) ≤ fUnits y) := by
  unfold flMul
  simp only [fFinite_not_nan ha, fFinite_not_nan hb, fFinite_not_inf ha, fFinite_not_inf hb, Bool.or_self, Bool.false_eq_true,
    if_false]
  have he : (if (fSign a != fSign b) = true then -((fMag a * fMag b : Nat) : Int) else (fMag a * fMag b : Nat))
      = fUnits a * fUnits b := by
    simp only [fUnits]; cases fSign a <;> cases fSign b <;> simp
  refine ⟨fPack_not_nan _ _ _, fun y hy h => fPack_ge hy (by positivity) ?_, fun y hy h => fPack_le hy (by positivity) ?_⟩ <;>
    rw [he] <;> exact_mod_cast h

/-- The value nearest an integer, likewise. -/
theorem fl32_bounds (n : Int) :
    fIsNaN (fl32 n) = false ∧ (∀ y, fFinite y = true → fUnits y ≤ n * 2 ^ 149 → fUnits y ≤ fUnits (fl32 n)) ∧
      (∀ y, fFinite y = true → n * 2 ^ 149 ≤ fUnits y → fUnits (fl32 n) ≤ fUnits y) := by
  have he : (if decide (n < 0) = true then -((n.natAbs * 2 ^ 149 : Nat) : Int) else (n.natAbs * 2 ^ 149 : Nat)) = n * 2 ^ 149 := by
    by_cases h : n < 0
    · have hn : (n.natAbs : Int) = -n := by omega
      simp only [h, decide_true, if_true]; push_cast; rw [← Int.natCast_natAbs, hn]; ring
    · have hn : (n.natAbs : Int) = n := by omega
      simp only [h, decide_false, Bool.false_eq_true, if_false]; push_cast; rw [← Int.natCast_natAbs, hn]
  refine ⟨fPack_not_nan _ _ _, fun y hy h => fPack_ge hy one_pos ?_, fun y hy h => fPack_le hy one_pos ?_⟩ <;>
    rw [he] <;> simpa using h

/-! ### Representable values, and exact results -/

/-- Every 24-bit integer times a power of two in range is representable. -/
theorem fVal_surj {m j : Nat} (hm : m < 2 ^ 24) (hj : j ≤ 253) : ∃ b, b < 0x7F800000 ∧ fVal b = m * 2 ^ j := by
  rcases Nat.eq_zero_or_pos m with h0 | h0
  · exact ⟨0, by norm_num, by simp [h0, fVal]⟩
  have hk : m.log2 ≤ 23 := by have := (Nat.log2_lt (by omega)).mpr hm; omega
  have hlo : 2 ^ m.log2 ≤ m := Nat.log2_self_le (by omega)
  have hhi : m < 2 ^ (m.log2 + 1) := Nat.lt_log2_self
  generalize m.log2 = k at hk hlo hhi
  rcases Nat.lt_or_ge (k + j) 23 with h | h
  · have : m * 2 ^ j < 2 ^ 23 := by
      calc m * 2 ^ j < 2 ^ (k + 1) * 2 ^ j := Nat.mul_lt_mul_of_pos_right hhi (by positivity)
        _ = 2 ^ (k + 1 + j) := (pow_add ..).symm
        _ ≤ 2 ^ 23 := Nat.pow_le_pow_right (by omega) (by omega)
    exact ⟨m * 2 ^ j, by omega, by unfold fVal; rw [if_pos (by omega)]⟩
  · have h1 : 2 ^ 23 ≤ m * 2 ^ (23 - k) := by
      calc 2 ^ 23 = 2 ^ k * 2 ^ (23 - k) := by rw [← pow_add]; congr 1; omega
        _ ≤ _ := Nat.mul_le_mul_right _ hlo
    have h2 : m * 2 ^ (23 - k) < 2 ^ 24 := by
      calc m * 2 ^ (23 - k) < 2 ^ (k + 1) * 2 ^ (23 - k) := Nat.mul_lt_mul_of_pos_right hhi (by positivity)
        _ = 2 ^ 24 := by rw [← pow_add]; congr 1; omega
    have hlt : ∀ z, 2 ^ 23 ≤ z → z < 2 ^ 24 → (k + j - 22) * 2 ^ 23 + (z - 2 ^ 23) < 0x7F800000 := by
      clear h1 h2 hlo hhi; intro z; omega
    refine ⟨(k + j - 22) * 2 ^ 23 + (m * 2 ^ (23 - k) - 2 ^ 23), hlt _ h1 h2, ?_⟩
    have he : ((k + j - 22) * 2 ^ 23 + (m * 2 ^ (23 - k) - 2 ^ 23)) / 2 ^ 23 = k + j - 22 := by omega
    have hf : ((k + j - 22) * 2 ^ 23 + (m * 2 ^ (23 - k) - 2 ^ 23)) % 2 ^ 23 = m * 2 ^ (23 - k) - 2 ^ 23 := by omega
    unfold fVal
    rw [he, hf, if_neg (by omega), show 2 ^ 23 + (m * 2 ^ (23 - k) - 2 ^ 23) = m * 2 ^ (23 - k) by omega, Nat.mul_assoc, ← pow_add,
      show 23 - k + (k + j - 22 - 1) = j by omega]

/-- Every integer of at most 24 bits times a power of two in range is the value of a finite binary32. -/
theorem exists_units {n : Int} {j : Nat} (hn : n.natAbs < 2 ^ 24) (hj : j ≤ 253) :
    ∃ y : F32, fFinite y = true ∧ fUnits y = n * 2 ^ j := by
  obtain ⟨b, hb, hv⟩ := fVal_surj hn hj
  refine ⟨fBits (decide (n < 0)) b, ?_, ?_⟩
  · rw [fFinite_iff, fBits_mod _ (by omega)]; exact hb
  · rw [fUnits_fBits _ (by omega), hv]
    by_cases h : n < 0
    · have hn : (n.natAbs : Int) = -n := by omega
      rw [decide_eq_true h, if_pos rfl]; push_cast; rw [← Int.natCast_natAbs, hn]; ring
    · have hn : (n.natAbs : Int) = n := by omega
      rw [decide_eq_false h, if_neg (by simp)]; push_cast; rw [← Int.natCast_natAbs, hn]

/-- A sum that is representable is exact. -/
theorem flAdd_exact {a b y : F32} (ha : fFinite a = true) (hb : fFinite b = true) (hy : fFinite y = true)
    (h : fUnits a + fUnits b = fUnits y) : fFinite (flAdd a b) = true ∧ fUnits (flAdd a b) = fUnits y := by
  obtain ⟨h1, h2, h3⟩ := flAdd_bounds ha hb
  have := h2 y hy (by omega)
  have := h3 y hy (by omega)
  exact ⟨fFinite_of_between h1 hy hy (by omega) (by omega), by omega⟩

/-- A positive sum up to the middle above an even representable value does not round above that value. -/
theorem flAdd_le_half {a b : F32} {y : Nat} (ha : fFinite a = true) (hb : fFinite b = true) (he : y % 2 = 0)
    (h0 : 0 < fUnits a + fUnits b) (h : 2 * (fUnits a + fUnits b) ≤ (fVal y + fVal (y + 1) : Nat)) :
    fUnits (flAdd a b) ≤ fVal y := by
  unfold flAdd
  simp only [fFinite_not_nan ha, fFinite_not_nan hb, fFinite_not_inf ha, fFinite_not_inf hb, Bool.or_self, Bool.false_eq_true,
    if_false]
  rw [if_neg (by omega), decide_eq_false (by omega), fPack, fUnits_fBits _ (fNearest_le_inf _ _), if_neg (by simp)]
  exact_mod_cast fVal_mono (fNearest_le_half one_pos he (by omega))

/-- A difference that is representable is exact. -/
theorem flSub_exact {a b y : F32} (ha : fFinite a = true) (hb : fFinite b = true) (hy : fFinite y = true)
    (h : fUnits a - fUnits b = fUnits y) : fFinite (flSub a b) = true ∧ fUnits (flSub a b) = fUnits y := by
  obtain ⟨h1, h2, h3⟩ := flSub_bounds ha hb
  have := h2 y hy (by omega)
  have := h3 y hy (by omega)
  exact ⟨fFinite_of_between h1 hy hy (by omega) (by omega), by omega⟩

/-- A product that is representable is exact. -/
theorem flMul_exact {a b y : F32} (ha : fFinite a = true) (hb : fFinite b = true) (hy : fFinite y = true)
    (h : fUnits a * fUnits b = fUnits y * 2 ^ 149) : fFinite (flMul a b) = true ∧ fUnits (flMul a b) = fUnits y := by
  obtain ⟨h1, h2, h3⟩ := flMul_bounds ha hb
  have := h2 y hy (by omega)
  have := h3 y hy (by omega)
  exact ⟨fFinite_of_between h1 hy hy (by omega) (by omega), by omega⟩

/-- An integer of at most 24 bits, or a finite value's own integer, is exact as a binary32. -/
theorem fl32_exact {n : Int} {y : F32} (hy : fFinite y = true) (h : fUnits y = n * 2 ^ 149) :
    fFinite (fl32 n) = true ∧ fUnits (fl32 n) = n * 2 ^ 149 := by
  obtain ⟨h1, h2, h3⟩ := fl32_bounds n
  have := h2 y hy (by omega)
  have := h3 y hy (by omega)
  exact ⟨fFinite_of_between h1 hy hy (by omega) (by omega), by omega⟩

/-- `floor` is the greatest integer not above the value. -/
theorem fFloor_spec {x : F32} (h : fFinite x = true) : fFloor x * 2 ^ 149 ≤ fUnits x ∧ fUnits x < (fFloor x + 1) * 2 ^ 149 := by
  rw [fFloor, if_pos h]
  omega

/-- `round` is within half of the value. -/
theorem fRound_spec {x : F32} (h : fFinite x = true) :
    fRound x * 2 ^ 149 - 2 ^ 148 ≤ fUnits x ∧ fUnits x ≤ fRound x * 2 ^ 149 + 2 ^ 148 := by
  rw [fRound, if_pos h, fUnits]
  generalize fMag x = m
  cases fSign x <;> simp only [Bool.false_eq_true, if_false, if_true] <;> omega

end Sys2Proof.Machine
end

