-- ==== Sys2Proof/Laws/PerInstr.lean ====
section
/-! SUPPORT. A statement about the encoding of every operation, proved operation by operation: the first word of an encoded
operation matches the row of the opcode map that carries its mnemonic (30_encoding R153). -/

namespace Sys2Proof.Laws

/-- The bits of a word made of three fields. -/
theorem opWord_and (cls op arg : Nat) (mask : Word) {k : Nat} (ha : arg < 2 ^ k) (hk : k ≤ 24)
    (hm : ∀ i < k, mask.getLsbD i = false) : opWord cls op arg &&& mask = opWord cls op 0 &&& mask := by
  apply BitVec.eq_of_getLsbD_eq
  intro i hi
  rw [BitVec.getLsbD_and, BitVec.getLsbD_and]
  by_cases h : i < k
  · rw [hm i h, Bool.and_false, Bool.and_false]
  · have e : cls * 2 ^ 28 + op * 2 ^ 24 = 2 ^ k * (2 ^ (24 - k) * (cls * 2 ^ 4 + op)) := by
      rw [← Nat.mul_assoc, ← pow_add, show k + (24 - k) = 24 by omega]; ring
    generalize hb : cls * 2 ^ 28 + op * 2 ^ 24 = b at e
    have hd : (b + arg) / 2 ^ k = b / 2 ^ k := by
      rw [e, Nat.mul_add_div (by positivity), Nat.div_eq_of_lt ha, Nat.mul_div_cancel_left _ (by positivity), Nat.add_zero]
    have hs : ∀ n : Nat, n.testBit i = (n / 2 ^ k).testBit (i - k) := by
      intro n
      rw [Nat.testBit_div_two_pow, Nat.sub_add_cancel (by omega)]
    have hw : (opWord cls op arg).getLsbD i = (opWord cls op 0).getLsbD i := by
      unfold opWord
      rw [BitVec.getLsbD_ofNat, BitVec.getLsbD_ofNat, hb, Nat.add_zero, hs (b + arg), hs b, hd]
    rw [hw]

/-- The first word of the operation's encoding matches the opcode-map row of its mnemonic. -/
def RowMatch.Statement (i : Instr) : Prop :=
  i.WellFormed → ∃ row ∈ opcodeMap, row.mnemonic = i.mnemonic ∧ ∃ w rest, encode i = w :: rest ∧ w &&& row.mask = row.pattern

theorem RowMatch.csrRd (offset : BitVec 12) : RowMatch.Statement (.csrRd offset) := by
  refine fun _ => ⟨⟨"CSR_RD", 0x10000000#32, 0xFFFFF000#32⟩, by simp [opcodeMap], rfl, _, _, rfl, ?_⟩
  rw [opWord_and 1 0 offset.toNat _ offset.isLt (by omega) (by decide)]; decide

theorem RowMatch.csrWr (offset : BitVec 12) (data : Word) : RowMatch.Statement (.csrWr offset data) := by
  refine fun _ => ⟨⟨"CSR_WR", 0x11000000#32, 0xFFFFF000#32⟩, by simp [opcodeMap], rfl, _, _, rfl, ?_⟩
  rw [opWord_and 1 1 offset.toNat _ offset.isLt (by omega) (by decide)]; decide

theorem RowMatch.push (n : Nat) : RowMatch.Statement (.push n) := by
  refine fun h => ⟨⟨"PUSH", 0x20000000#32, 0xFFFF0000#32⟩, by simp [opcodeMap], rfl, _, _, rfl, ?_⟩
  rw [opWord_and 2 0 n _ h (by omega) (by decide)]; decide

theorem RowMatch.consRead : RowMatch.Statement .consRead :=
  fun _ => ⟨⟨"CONS_READ", 0x80000000#32, 0xFFFFFFFF#32⟩, by simp [opcodeMap], rfl, _, _, rfl, by decide⟩

theorem RowMatch.modStep : RowMatch.Statement .modStep :=
  fun _ => ⟨⟨"MOD_STEP", 0x81000000#32, 0xFFFFFFFF#32⟩, by simp [opcodeMap], rfl, _, _, rfl, by decide⟩

theorem RowMatch.preStep (c : Chan) : RowMatch.Statement (.preStep c) :=
  fun _ => ⟨⟨"PRE_STEP", 0x90000000#32, 0xFFFFFFFE#32⟩, by simp [opcodeMap], rfl, _, _, rfl, by cases c <;> decide⟩

theorem RowMatch.rsmPush (c : Chan) : RowMatch.Statement (.rsmPush c) :=
  fun _ => ⟨⟨"RSM_PUSH", 0x91000000#32, 0xFFFFFFFE#32⟩, by simp [opcodeMap], rfl, _, _, rfl, by cases c <;> decide⟩

theorem RowMatch.muxStep : RowMatch.Statement .muxStep :=
  fun _ => ⟨⟨"MUX_STEP", 0x92000000#32, 0xFFFFFFFF#32⟩, by simp [opcodeMap], rfl, _, _, rfl, by decide⟩

theorem RowMatch.monoStep : RowMatch.Statement .monoStep :=
  fun _ => ⟨⟨"MONO_STEP", 0x93000000#32, 0xFFFFFFFF#32⟩, by simp [opcodeMap], rfl, _, _, rfl, by decide⟩

theorem RowMatch.encStep : RowMatch.Statement .encStep :=
  fun _ => ⟨⟨"ENC_STEP", 0x94000000#32, 0xFFFFFFFF#32⟩, by simp [opcodeMap], rfl, _, _, rfl, by decide⟩

theorem RowMatch.fifoWrite (m : Nat) : RowMatch.Statement (.fifoWrite m) := by
  refine fun h => ⟨⟨"FIFO_WRITE", 0x95000000#32, 0xFF000000#32⟩, by simp [opcodeMap], rfl, _, _, rfl, ?_⟩
  rw [opWord_and 9 5 m _ h (by omega) (by decide)]; decide

theorem RowMatch.startCheck : RowMatch.Statement .startCheck :=
  fun _ => ⟨⟨"START_CHECK", 0x96000000#32, 0xFFFFFFFF#32⟩, by simp [opcodeMap], rfl, _, _, rfl, by decide⟩

theorem RowMatch.dmaAdv : RowMatch.Statement .dmaAdv :=
  fun _ => ⟨⟨"DMA_ADV", 0xE0000000#32, 0xFFFFFFFF#32⟩, by simp [opcodeMap], rfl, _, _, rfl, by decide⟩

theorem RowMatch.hwReset : RowMatch.Statement .hwReset :=
  fun _ => ⟨⟨"HW_RESET", 0xE1000000#32, 0xFFFFFFFF#32⟩, by simp [opcodeMap], rfl, _, _, rfl, by decide⟩

end Sys2Proof.Laws
end

