-- ==== Sys2Proof/Laws/Step.lean ====
section
/-! SUPPORT. What one step can do, said once: the inversion of `step`, of the fetch, and of each meaning with checks. -/

namespace Sys2Proof.Machine

/-- A step that goes on performed the fetched operation, refused an `ILLEGAL` word, or only took a turn. -/
theorem step_next {s t : State} (h : step s = .next t) :
    (∃ i u, fetch s = .run i u ∧ exec i u = .next t) ∨ (∃ p w u, fetch s = .illegal p w u ∧ t = illegalOp p w u) ∨
      fetch s = .idle t := by
  unfold step at h
  split at h
  · exact .inl ⟨_, _, ‹_›, h⟩
  · exact .inr (.inl ⟨_, _, _, ‹_›, by simpa using h.symm⟩)
  · rename_i hf; cases h; exact .inr (.inr hf)
  · simp at h

theorem step_of_run {s u : State} {i : Instr} (h : fetch s = .run i u) : step s = exec i u := by simp [step, h]

theorem step_of_illegal {s u : State} {p : Port} {w : Word} (h : fetch s = .illegal p w u) : step s = .next (illegalOp p w u) := by
  simp [step, h]

theorem step_of_idle {s u : State} (h : fetch s = .idle u) : step s = .next u := by simp [step, h]

/-- The state a fetch hands on, where there is one. -/
def Fetched.state? : Fetched → Option State
  | .run _ u | .illegal _ _ u | .idle u => some u
  | .noSuchStep _ => none

/-- Fetching takes a turn and words off a port, and changes nothing else. -/
theorem fetch_state {s u : State} (h : (fetch s).state? = some u) :
    u = { s with env := { s.env with sched := u.env.sched, ctlIn := u.env.ctlIn, audIn := u.env.audIn } } := by
  have hi : ∀ (w : Word) (v : State), (fetchInternal w v).state? = some u → u = v := by
    intro w v h
    unfold fetchInternal at h
    split at h <;> simp [Fetched.state?] at h
    exact h.symm
  unfold fetch at h
  split at h
  · rw [hi _ _ h]
  · unfold fetchControl at h
    repeat' split at h
    all_goals simp [Fetched.state?] at h; rw [← h]
  · unfold fetchAudio at h
    repeat' split at h
    all_goals simp [Fetched.state?] at h; rw [← h]
  · rw [hi _ _ h]

/-- A register write: misaligned, turned away because halted, or what the register's row says. -/
theorem execCsrWr_cases (off : BitVec 12) (w : Word) (s : State) :
    (aligned off = false ∧ execCsrWr off w s = .next (refuse .control .busMisaligned off.toNat s)) ∨
    (aligned off = true ∧ s.csr.status.fatal = true ∧ isSoftReset off w = false ∧
      execCsrWr off w s = .next (refuse .control .halted off.toNat s)) ∨
    (aligned off = true ∧ (s.csr.status.fatal = true → isSoftReset off w = true) ∧
      ((∃ t, csrWrite (csrAt off) w s = .accepted t ∧ execCsrWr off w s = .next (respond .control false 0#32 t)) ∨
        (∃ c, csrWrite (csrAt off) w s = .refused c ∧ execCsrWr off w s = .next (refuse .control c off.toNat s)) ∨
        (∃ c, csrWrite (csrAt off) w s = .fatal c ∧ execCsrWr off w s = .next (fatalStop .control c off.toNat s)))) := by
  unfold execCsrWr
  split
  · rename_i ha; exact .inl ⟨by simpa using ha, rfl⟩
  · rename_i ha
    split
    · rename_i h; simp at h; exact .inr (.inl ⟨by simpa using ha, h.1, h.2, rfl⟩)
    · rename_i h
      refine .inr (.inr ⟨by simpa using ha, by simpa using h, ?_⟩)
      split
      · exact .inl ⟨_, by assumption, rfl⟩
      · exact .inr (.inl ⟨_, by assumption, rfl⟩)
      · exact .inr (.inr ⟨_, by assumption, rfl⟩)

theorem checkedWrite_accepted {l k : Bool} {t u : State} (h : checkedWrite l k t = .accepted u) : l = true ∧ k = false ∧ u = t := by
  cases l <;> cases k <;> simp_all [checkedWrite]

theorem rateWrite_accepted {l k : Bool} {t u : State} (h : rateWrite l k t = .accepted u) : l = true ∧ k = false ∧ u = t := by
  cases l <;> cases k <;> simp_all [rateWrite]

/-- An accepted register write is a soft reset, or changes registers, the datapath and the payload only, and of the registers
neither the halted state, nor the counters of events. -/
theorem csrWrite_accepted {r : Csr} {w : Word} {s t : State} (h : csrWrite r w s = .accepted t) :
    (r = .ctrl ∧ w.getLsbD 31 = true ∧ t = softReset s) ∨
      (t = { s with dp := t.dp, csr := t.csr, payload := t.payload } ∧ t.csr.status.fatal = s.csr.status.fatal ∧
        t.csr.ovrCnt = s.csr.ovrCnt ∧ t.csr.unrCnt = s.csr.unrCnt ∧ t.csr.satCnt = s.csr.satCnt) := by
  cases r <;> simp only [csrWrite] at h
  case ctrl =>
    split at h
    · exact .inl ⟨rfl, ‹_›, by simpa using h.symm⟩
    · obtain ⟨-, -, rfl⟩ := checkedWrite_accepted h
      right; unfold writeCtrl; split <;> exact ⟨rfl, rfl, rfl, rfl, rfl⟩
  all_goals right
  all_goals first
    | (obtain ⟨-, -, rfl⟩ := checkedWrite_accepted h; exact ⟨rfl, rfl, rfl, rfl, rfl⟩)
    | (obtain ⟨-, -, rfl⟩ := rateWrite_accepted h; exact ⟨rfl, rfl, rfl, rfl, rfl⟩)
    | (simp only [WriteResult.accepted.injEq] at h; subst h; exact ⟨rfl, rfl, rfl, rfl, rfl⟩)

/-- A `PUSH`: still incomplete, turned away, halting, outside the encoder's precondition, or performed. -/
theorem execPush_cases (n : Nat) (s : State) :
    (s.env.audIn.length < pushWords s n ∧ execPush n s = .next s) ∨
    (pushWords s n ≤ s.env.audIn.length ∧
      ((s.csr.status.fatal = true ∧ execPush n s = .next (refuse .audio .halted 0 (dropPushWords s n))) ∨
       (s.csr.status.fatal = false ∧
        ((s.csr.ctrl.run = false ∧ execPush n s = .next (refuse .audio .pushNotRunning 0 (dropPushWords s n))) ∨
         (s.csr.ctrl.run = true ∧
          ((n = 0 ∧ execPush n s = .next (refuse .audio .pushBadLen 0 (dropPushWords s n))) ∨
           (n ≠ 0 ∧
            ((s.latchedN ≠ 0 ∧ s.latchedN ≠ n ∧
                execPush n s = .next (fatalStop .audio .fatalBlocklen n (dropPushWords s n))) ∨
             ((s.latchedN = 0 ∨ s.latchedN = n) ∧
              ((encoderOk s = false ∧ execPush n s = .fault .cursorRange) ∨
               (encoderOk s = true ∧
                 execPush n s = .next (pushBlock n (pushLeft s n) (pushRight s n) (dropPushWords s n))))))))))))) := by
  unfold execPush
  by_cases h1 : s.env.audIn.length < pushWords s n
  · exact .inl ⟨h1, by simp [h1]⟩
  · refine .inr ⟨by omega, ?_⟩
    cases h2 : s.csr.status.fatal
    · refine .inr ⟨rfl, ?_⟩
      cases h3 : s.csr.ctrl.run
      · exact .inl ⟨rfl, by simp [h1]⟩
      · refine .inr ⟨rfl, ?_⟩
        by_cases h4 : n = 0
        · exact .inl ⟨h4, by simp only [h1]; simp [h4]⟩
        · refine .inr ⟨h4, ?_⟩
          by_cases h5 : s.latchedN ≠ 0 ∧ s.latchedN ≠ n
          · exact .inl ⟨h5.1, h5.2, by simp [h1, h4, h5]⟩
          · refine .inr ⟨by omega, ?_⟩
            cases h6 : encoderOk s
            · exact .inl ⟨rfl, by simp only [h1, h4, h5]; simp⟩
            · exact .inr ⟨rfl, by simp only [h1, h4, h5]; simp⟩
    · exact .inl ⟨rfl, by simp [h1]⟩

/-- `ENC_STEP` as a step of its own: the sample passes, a stop outside the invariants, or performed. -/
theorem execEncStep_cases (s : State) :
    (encActive s.csr = false ∧ execEncStep s = .next (setResult [arg s 0] s)) ∨
    (encActive s.csr = true ∧
      ((encReady s.cfg s.csr s.dp = false ∧ execEncStep s = .fault .cursorRange) ∨
       (encReady s.cfg s.csr s.dp = true ∧
        let p := encStep s.cfg s.payload s.csr.payloadLen.toNat s.dp (arg s 0)
        execEncStep s = .next (setResult [p.1] { s with dp := p.2 })))) := by
  unfold execEncStep
  cases encActive s.csr
  · exact .inl ⟨rfl, rfl⟩
  · refine .inr ⟨rfl, ?_⟩
    cases encReady s.cfg s.csr s.dp
    · exact .inl ⟨rfl, rfl⟩
    · exact .inr ⟨rfl, rfl⟩

/-- A `MOD_STEP`: a hold, a stop outside the invariants, or performed. -/
theorem execModStep_cases (s : State) :
    (modEnabled s = false ∧ execModStep s = .next s) ∨
    (modEnabled s = true ∧
      ((s.cfg.cap - 1 ≤ s.cons.cidx ∧ execModStep s = .fault .cbufRange) ∨
       (s.cons.cidx < s.cfg.cap - 1 ∧
        ((s.cfg.kDesc < s.mod.slotPtr + 4 ∧ execModStep s = .fault .slotRange) ∨
         (s.mod.slotPtr + 4 ≤ s.cfg.kDesc ∧ execModStep s = .next (modCommit s)))))) := by
  unfold execModStep
  cases modEnabled s
  · exact .inl ⟨rfl, rfl⟩
  · refine .inr ⟨rfl, ?_⟩
    by_cases h1 : s.cfg.cap - 1 ≤ s.cons.cidx
    · exact .inl ⟨h1, by simp [h1]⟩
    · refine .inr ⟨by omega, ?_⟩
      by_cases h2 : s.cfg.kDesc < s.mod.slotPtr + 4
      · exact .inl ⟨h2, by simp [h1, h2]⟩
      · exact .inr ⟨by omega, by simp [h1, h2]⟩

/-- A `CONS_READ`: a hold, a chunk read from the ring, or an underrun. -/
theorem execConsRead_cases (s : State) :
    (consEnabled s = false ∧ execConsRead s = .next s) ∨
    (consEnabled s = true ∧
      ((s.csr.chunk.toNat ≤ occupancy s ∧
          execConsRead s = .next (beginChunk s.csr.chunk.toNat (ringRead s.csr.chunk.toNat s))) ∨
       (occupancy s < s.csr.chunk.toNat ∧
          execConsRead s = .next (beginChunk s.csr.chunk.toNat (underrun (occupancy s) s))))) := by
  unfold execConsRead
  cases consEnabled s
  · exact .inl ⟨rfl, rfl⟩
  · refine .inr ⟨rfl, ?_⟩
    by_cases h : s.csr.chunk.toNat ≤ occupancy s
    · exact .inl ⟨h, by simp [h]⟩
    · exact .inr ⟨by omega, by simp [h]⟩

/-- The ring write of a block: accepted when it fits, dropped when it does not (45_fifo R281). -/
theorem fifoWrite_cases (m : Nat) (zs : List F32) (s : State) :
    (m ≤ freeSpace s ∧ fifoWrite m zs s = (ringAccept zs s, false)) ∨
    (freeSpace s < m ∧ fifoWrite m zs s = (overrun m s, true)) := by
  unfold fifoWrite
  by_cases h : m ≤ freeSpace s
  · exact .inl ⟨h, by simp [h]⟩
  · exact .inr ⟨by omega, by simp [h]⟩

/-- `FIFO_WRITE` as a step of its own, by its two outcomes. -/
theorem execFifoWrite_cases (m : Nat) (s : State) :
    (m ≤ freeSpace s ∧ execFifoWrite m s =
      .next { s with ring := (ringAccept (argList s m) s).ring, env := { s.env with res := [], dropped := false } }) ∨
    (freeSpace s < m ∧ execFifoWrite m s =
      .next { s with csr := (overrun m s).csr, env := { s.env with res := [], dropped := true } }) := by
  unfold execFifoWrite
  rcases fifoWrite_cases m (argList s m) s with ⟨h, h'⟩ | ⟨h, h'⟩ <;> rw [h']
  · exact .inl ⟨h, rfl⟩
  · exact .inr ⟨h, by simp⟩

end Sys2Proof.Machine
end

