-- ==== Sys2Proof/Tests/Slice0.lean ====
section
/-! SUPPORT. The model's own tests: ill-formed terms that WellFormed refuses, a word of every operation written out from
30_encoding, vectors of 95_test_vectors and of the rules' examples, and a witness for the hypotheses of each statement. -/

namespace Sys2Proof.Tests

open Sys2Proof.Machine

-- One theorem after the other: elaborated at once, this many kernel evaluations ask for too many threads.
set_option Elab.async false

/-! ### Helpers -/

/-- A small instance: a ring of 8, 8 slot words, 2 payload bytes, the other parameters at their defaults. -/
def smallCfg : Config := { cap := 8, kDesc := 8, payloadMax := 2 }

/-- The small instance at reset. -/
def base : State := State.resetOf smallCfg

/-- Whether an outcome is a next state of which `p` holds. -/
def ends (o : Host.Outcome State Fault Refusal) (p : State → Bool) : Bool :=
  match o with
  | .next t => p t
  | _ => false

/-- Whether an outcome is a next state. -/
def completes (o : Host.Outcome State Fault Refusal) : Bool := ends o fun _ => true

/-- A state with `CTRL` written. -/
def withCtrl (w : Word) (s : State) : State := { s with csr := { s.csr with ctrl := ctrlOf w } }

/-- A state with the block halted. -/
def halted (s : State) : State := { s with csr := { s.csr with status := { s.csr.status with fatal := true } } }

/-- A state whose next turn is `t`, with words on the two ports. -/
def turn (t : Turn) (ctl aud : List Word) (s : State) : State :=
  { s with env := { s.env with sched := [t], ctlIn := ctl, audIn := aud } }

/-! ### WellFormed refuses each ill-formed term -/

theorem test_operands_fit : (Instr.push 65535).WellFormed ∧ (Instr.fifoWrite 16777215).WellFormed := by decide +kernel
theorem test_push_too_long_ill_formed : ¬(Instr.push 65536).WellFormed := by decide +kernel
theorem test_fifoWrite_too_long_ill_formed : ¬(Instr.fifoWrite 16777216).WellFormed := by decide +kernel
theorem test_default_parameters_legal : ({} : Config).Legal ∧ smallCfg.Legal := by decide +kernel

theorem test_sizes_out_of_range : ∀ c ∈ ([{ cap := 1 }, { cap := 2 ^ 24 + 1 }, { kDesc := 10 }, { kDesc := 4 },
    { kDesc := 2 ^ 16 + 4 }, { payloadMax := 0 }, { payloadMax := 2 ^ 16 + 1 }, { taps := 0 }, { taps := 17 }, { phases := 0 },
    { phases := 257 }] : List Config), ¬c.LegalSizes := by decide +kernel

theorem test_reals_out_of_range : ∀ c ∈ ([{ tau := 0x00000000#32 }, { tau := 0x7F800000#32 }, { muxGain := 0x7FC00000#32 },
    { pilotGain := 0xFF800000#32 }, { encGain := 0x7F800000#32 }, { encAlpha := 0x7FC00000#32 }, { encBeta := 0x7F800000#32 },
    { pipeLat := 0x7F800000#32 }] : List Config), ¬c.LegalReals := by decide +kernel

theorem test_tables_out_of_range : ∀ c ∈ ([{ encPeriod := 0, encHalf := 0 }, { encPeriod := 12, encHalf := 6 },
    { encPeriod := 65544, encHalf := 32772 }, { encHalf := 191 }, { divN := 3, center := 0 }, { divN := 65537 }, { center := 0 },
    { center := 1022 }, { divStep := 2 }] : List Config), ¬c.LegalTables := by decide +kernel

/-! ### Every operation's word, written out from its bit fields (30_encoding R144 to R148) -/

theorem test_decode_csrRd : decodeTableWord 32 0b00010000000000000000000000101100 = some (.csrRd 0x02C#12) := by decide +kernel
theorem test_decode_csrWr : decodeTableWord 64 0x80000000_11000004 = some (.csrWr 0x004#12 0x80000000#32) := by decide +kernel
theorem test_decode_push : decodeTableWord 32 0b00100000000000001111111111111111 = some (.push 65535) := by decide +kernel
theorem test_decode_consRead : decodeTableWord 32 0b10000000000000000000000000000000 = some .consRead := by decide +kernel
theorem test_decode_modStep : decodeTableWord 32 0b10000001000000000000000000000000 = some .modStep := by decide +kernel
theorem test_decode_preStep : decodeTableWord 32 0b10010000000000000000000000000001 = some (.preStep .ch1) := by decide +kernel
theorem test_decode_rsmPush : decodeTableWord 32 0b10010001000000000000000000000000 = some (.rsmPush .ch0) := by decide +kernel
theorem test_decode_muxStep : decodeTableWord 32 0b10010010000000000000000000000000 = some .muxStep := by decide +kernel
theorem test_decode_monoStep : decodeTableWord 32 0b10010011000000000000000000000000 = some .monoStep := by decide +kernel
theorem test_decode_encStep : decodeTableWord 32 0b10010100000000000000000000000000 = some .encStep := by decide +kernel
theorem test_decode_fifoWrite :
    decodeTableWord 32 0b10010101111111111111111111111110 = some (.fifoWrite 16777214) := by decide +kernel
theorem test_decode_startCheck : decodeTableWord 32 0b10010110000000000000000000000000 = some .startCheck := by decide +kernel
theorem test_decode_dmaAdv : decodeTableWord 32 0b11100000000000000000000000000000 = some .dmaAdv := by decide +kernel
theorem test_decode_hwReset : decodeTableWord 32 0b11100001000000000000000000000000 = some .hwReset := by decide +kernel

/-- Reserved classes, reserved operations and reserved bits name nothing (30_encoding R143 to R151). -/
theorem test_reserved_words_refused : ∀ w ∈ [0x00000000, 0x12000000, 0x10001000, 0x21000000, 0x20010000, 0x30000000, 0x82000000,
    0x80000001, 0x97000000, 0x90000002, 0x92000001, 0xE2000000, 0xE1000001, 0xF0000000],
    decodeTableWord 32 w = none := by decide +kernel

/-- The words placed for the fetch are what the very next step runs. -/
theorem test_placed_words_run : ∀ p ∈ ([(0x1000002C, .csrRd 0x02C#12), (0x80000000_11000004, .csrWr 0x004#12 0x80000000#32),
    (0x20000002, .push 2), (0x81000000, .modStep), (0x95000007, .fifoWrite 7), (0xE1000000, .hwReset)] : List (Nat × Instr)),
    (match fetch (State.reset.withFetchWord 64 p.1) with | .run i _ => i == p.2 | _ => false) = true := by decide +kernel

/-! ### Vectors of the spec -/

/-- Example of 47_host_interface R342. -/
theorem test_csrRd_cap :
    ends (exec (.csrRd 0x018#12) State.reset) (fun t => t.env.ctlOut = some ⟨false, 8192#32⟩) = true := by decide +kernel
/-- Example of 47_host_interface R344: `CPS = 100.0` is accepted. -/
theorem test_csrWr_cps : ends (exec (.csrWr 0x02C#12 0x42C80000#32) State.reset)
    (fun t => t.csr.cps = 0x42C80000#32 ∧ t.env.ctlOut = some ⟨false, 0#32⟩) = true := by decide +kernel
/-- Example of 47_host_interface R344: `CPS = 0.5` is refused. -/
theorem test_csrWr_cps_refused : ends (exec (.csrWr 0x02C#12 0x3F000000#32) State.reset)
    (fun t => t.csr.cps = 0#32 ∧ t.csr.cause = 0x002C0004#32 ∧ t.env.ctlOut = some ⟨true, 4#32⟩) = true := by decide +kernel
/-- Example of 47_host_interface R350. -/
theorem test_push_two_ones :
    let s := withCtrl 0x20#32 { State.reset with csr := { Csrs.reset with srcRate := 44100#32 } }
    ends (exec (.push 2) (turn .audio [] [0x3F800000#32, 0x3F800000#32] s)) (fun t =>
      ringContents t = [0x3FB778A6#32, 0x3F800000#32] ∧ t.env.audOut = some ⟨false, 2#32⟩) = true := by decide +kernel
/-- 95_test_vectors V45-5. -/
theorem test_consRead_takes_four :
    let s := { withCtrl 0x20#32 (State.resetOf { cap := 16 }) with
      started := true, ring := ⟨15, 0, [(0, fl32 1), (1, fl32 2), (2, fl32 3), (3, fl32 4)]⟩ }
    ends (exec .consRead { s with csr := { s.csr with chunk := 4 } }) (fun t =>
      chunkBuffer t 4 = [fl32 1, fl32 2, fl32 3, fl32 4] ∧ t.ring.opos = 4 ∧ occupancy t = 11 ∧ t.cons.clen = 4) = true := by
  decide +kernel
/-- Example of 46_modulator R310, 95_test_vectors V46-1. -/
theorem test_modStep_example :
    let s := { State.reset with
      csr := { Csrs.reset with cps := 0x42C80000#32 }, cons := ⟨.proc, 0, 1, [(0, 0x3E99999A#32)]⟩ }
    ends (exec .modStep { s with env := { s.env with dmaCur := 4 } }) (fun t =>
      (List.range 4).map (slotRead t) = [513#32, 65#32, 511#32, 35#32] ∧ t.mod.ferr = 0x3CF4F0C0#32 ∧ t.mod.slotPtr = 4)
      = true := by decide +kernel
/-- 95_test_vectors V46-8: three saturations at once. -/
theorem test_modStep_saturates :
    let s := { State.reset with
      csr := { Csrs.reset with cps := 0x40666666#32 }, cons := ⟨.proc, 0, 1, [(0, fl32 600)]⟩ }
    ends (exec .modStep { s with env := { s.env with dmaCur := 4 } }) (fun t =>
      (List.range 4).map (slotRead t) = [1023#32, 3#32, 1021#32, 0#32] ∧ t.mod.ferr = 0x3FB2F685#32 ∧
        t.csr.cause = 0x000E0003#32) = true := by decide +kernel
/-- Example of 41_preemphasis R200. -/
theorem test_preStep_example :
    let s := handArgs [0x3F800000#32] { State.reset with csr := { Csrs.reset with srcRate := 44100#32 } }
    ends (exec (.preStep .ch0) s) (fun t => t.env.res = [0x3FB778A6#32] ∧ t.dp.ch0.last = 0x3F800000#32) = true := by
  decide +kernel
/-- Example of 42_resampler R220, 95_test_vectors V42-5. -/
theorem test_rsmPush_example :
    let s := handArgs [0x40000000#32] { State.reset with
      csr := { Csrs.reset with ratio := 0x3F400000#32 }
      dp := { Datapath.reset {} with ch0 := ⟨0#32, [0#32, 0#32, 0#32, 0#32, 0x3F800000#32], 0x3FC00000#32⟩ } }
    ends (exec (.rsmPush .ch0) s) (fun t => t.env.res = [0x3E594CAE#32] ∧ t.dp.ch0.t = 0x3FA00000#32) = true := by
  decide +kernel
/-- Log entry 22: by R220's rounded additions `RATIO = 0x3D579436` makes 20 passes from reset, where `ceil(1 / RATIO)` is 19.
Counted apart from the model, by repeated binary32 addition. -/
theorem test_rsmPush_passes_follow_rounding :
    ends (exec (.rsmPush .ch0) { State.reset with csr := { Csrs.reset with ratio := 0x3D579436#32 } })
      (fun t => t.env.res.length = 20) = true := by decide +kernel
/-- Example of 43_stereo_mux R240, 95_test_vectors V43-1. -/
theorem test_muxStep_example :
    let s := handArgs [0x3F800000#32, 0#32] { State.reset with dp := { Datapath.reset {} with muxState := 1 } }
    ends (exec .muxStep s) (fun t => t.env.res = [0x3F78807E#32] ∧ t.dp.muxState = 2) = true := by decide +kernel
/-- Example of 43_stereo_mux R245. -/
theorem test_monoStep_example :
    ends (exec .monoStep (handArgs [0x3E99999A#32, 0x3F19999A#32] (withCtrl 0x8#32 State.reset)))
      (fun t => t.env.res = [0x3EE66667#32]) = true := by decide +kernel
/-- The second step of the example of 44_data_encoder R260. -/
theorem test_encStep_example :
    let s := withCtrl 0x4#32 { State.reset with
      csr := { Csrs.reset with payloadLen := 1 }, payload := [(0, 0xA5#8)]
      dp := { Datapath.reset {} with encPhase := 1, cursor := 1, sym := true, level := 0x3C23D70A#32 } }
    ends (exec .encStep s) (fun t => t.env.res = [0x3A386FDE#32] ∧ t.dp.level = 0x3CA30553#32 ∧ t.dp.encPhase = 2) = true := by
  decide +kernel
/-- Example of 45_fifo R281. -/
theorem test_fifoWrite_drops :
    ends (exec (.fifoWrite 512) { State.reset with ring := ⟨7680, 0, []⟩ })
      (fun t => t.ring.ipos = 7680 ∧ t.csr.ovrCnt = 1#32 ∧ t.env.dropped ∧ t.csr.cause = 0x02000001#32) = true := by
  decide +kernel
/-- 95_test_vectors V45-7: a write that wraps. -/
theorem test_fifoWrite_wraps :
    let xs := (List.range 12).map fun i => fl32 (10 + i)
    ends (exec (.fifoWrite 12) (handArgs xs { State.resetOf { cap := 16 } with ring := ⟨15, 12, []⟩ }))
      (fun t => t.ring.ipos = 11 ∧ fifoRead t 15 = fl32 10 ∧ fifoRead t 10 = fl32 21 ∧ occupancy t = 15) = true := by
  decide +kernel
/-- Example of 45_fifo R285: not started at 3584 samples, started at 4096. -/
theorem test_startCheck_example :
    let s := fun n => { State.reset with csr := { Csrs.reset with delay := 4096 }, ring := ⟨n, 0, []⟩ }
    ends (exec .startCheck (s 3584)) (fun t => !t.started) = true ∧
      ends (exec .startCheck (s 4096)) (fun t => t.started) = true := by decide +kernel
/-- Example of 46_modulator R325. -/
theorem test_dmaAdv_wraps :
    ends (exec .dmaAdv { State.reset with env := { Env.reset with dmaCur := 15 } }) (fun t => t.env.dmaCur = 0) = true := by
  decide +kernel
/-- 70_reset_and_hazards R420: `DMA_CUR` and a halt are reset. -/
theorem test_hwReset_clears :
    ends (exec .hwReset (halted { base with env := { base.env with dmaCur := 5 } }))
      (fun t => t.env.dmaCur = 0 ∧ !t.csr.status.fatal ∧ t.cfg.cap = 8) = true := by decide +kernel
/-- The formula gives the printed table of 42_resampler R226 at the default sizes. -/
theorem test_lut_formula_is_table :
    ∀ row < 10, (List.range 5).map (lutFormula 5 10 row) = lutDefault row := by decide +kernel

/-! ### Witnesses: concrete values that meet the hypotheses of each statement, clause by clause, at the boundaries -/

/-- A running block with two channels, every stage on, a payload of two bytes, a written `CPS`, and a chunk being fed. -/
def busy : State :=
  let s := withCtrl 0x2F#32 base
  { s with
    csr := { s.csr with
      srcRate := 44100#32, cps := 0x42C80000#32, payloadLen := 2, chunk := 2 }
    dp := { s.dp with cursor := 15 }
    payload := [(0, 0xA5#8)]
    started := true
    latchedN := 1
    ring := { ipos := 3, opos := 2, fifo := [(0, fOne), (1, fOne), (2, fHalf)] }
    cons := { phase := .proc, cidx := 1, clen := 2, cbuf := [(0, fOne), (1, fHalf)] }
    env := { s.env with dmaCur := 4 } }

/-- The same block, idle between chunks. -/
def waiting : State := { busy with cons := { busy.cons with phase := .idle, cidx := 2 } }

theorem witness_EncodedOperationsDecode :
    (Instr.push 65535).WellFormed ∧ (Instr.fifoWrite 16777215).WellFormed ∧ (Instr.csrRd 0xFFF#12).WellFormed := by decide +kernel

theorem witness_DecodedWordsAreTheirEncoding :
    (decode [0x2000FFFF#32, 7#32]).toOption = some (.push 65535, [7#32]) := by decide +kernel

/-- Words at the edges of the reserved fields: bits 12 and 23 of a register word, bits 16 and 23 of a `PUSH`. -/
theorem witness_PortsRefuseOtherWords :
    let cls := fun w : Word => w.extractLsb' 28 4
    let op := fun w : Word => w.extractLsb' 24 4
    (cls 0x10000FFF#32 = 0x1#4 ∧ op 0x10000FFF#32 = 0x0#4 ∧ (0x10000FFF#32).extractLsb' 12 12 = 0#12) ∧
    ((0x10001000#32).extractLsb' 12 12 ≠ 0#12 ∧ (0x10800000#32).extractLsb' 12 12 ≠ 0#12) ∧
    (cls 0x11000000#32 = 0x1#4 ∧ op 0x11000000#32 = 0x1#4 ∧ (0x11000000#32).extractLsb' 12 12 = 0#12) ∧
    ((0x11001000#32).extractLsb' 12 12 ≠ 0#12 ∧ op 0x11001000#32 = 0x1#4) ∧
    (op 0x12000000#32 ≠ 0x0#4 ∧ op 0x12000000#32 ≠ 0x1#4 ∧ cls 0x00000000#32 ≠ 0x1#4) ∧
    (cls 0x2000FFFF#32 = 0x2#4 ∧ op 0x2000FFFF#32 = 0x0#4 ∧ (0x2000FFFF#32).extractLsb' 16 8 = 0#8) ∧
    ((0x20010000#32).extractLsb' 16 8 ≠ 0#8 ∧ (0x20800000#32).extractLsb' 16 8 ≠ 0#8) ∧
    (op 0x21000000#32 ≠ 0x0#4 ∧ cls 0x10000000#32 ≠ 0x2#4) ∧
    (cls 0x80000000#32 = 0x8#4 ∧ cls 0x9FFFFFFF#32 = 0x9#4 ∧ cls 0xE1000000#32 = 0xE#4) := by decide +kernel

theorem witness_StepRunsTheDecodedOperation :
    let c := turn .control [0x10000018#32, 0x11000000#32] [] base
    let d := turn .control [0x11000FFF#32, 5#32] [] base
    let a := turn .audio [] [0x20000001#32, 1#32, 2#32] (withCtrl 0x8#32 base)
    c.env.sched = .control :: [] ∧ c.env.ctlIn = encode (.csrRd 0x018#12) ++ [0x11000000#32] ∧
    d.env.sched = .control :: [] ∧ d.env.ctlIn = encode (.csrWr 0xFFF#12 5#32) ++ [] ∧
    a.env.sched = .audio :: [] ∧ a.env.audIn = encode (.push 1) ++ [1#32, 2#32] ∧
    1 * (if a.csr.ctrl.nch2 then 2 else 1) ≤ [1#32, 2#32].length ∧
    (decodeInternal 0x81000000#32).toOption = some .modStep ∧ base.env.sched = [] ∧
    base.cons.phase = .idle ∧ busy.env.sched = [] ∧ busy.cons.phase = .proc := by decide +kernel

theorem witness_IllegalWordsAreRefused :
    decodePort .control 0x11001004#32 = .illegal .csrWr ∧ 1 ≤ [5#32].length ∧
    decodePort .control 0x10001004#32 = .illegal .csrRd ∧ decodePort .control 0x80000000#32 = .illegal .none ∧
    decodePort .audio 0x20010002#32 = .illegal .push ∧
    field 0x20010002#32 15 0 * (if base.csr.ctrl.nch2 then 2 else 1) ≤ [1#32, 2#32].length := by decide +kernel

theorem witness_PreStepPassesDcUnchanged :
    ([0x00000000#32, 0x3F000000#32, 0xFF7FFFFF#32, 0x80000000#32].all fun x =>
      let s := handArgs [x] { busy with dp := { busy.dp with ch0 := { busy.dp.ch0 with last := x } } }
      let den := flSub fOne (flMul (fl32 s.csr.srcRate.toNat) s.cfg.tau)
      Memory.read fZero s.env.args 0 = x ∧ fFinite x = true ∧ x = s.dp.ch0.last ∧ fIsNaN den = false ∧ fIsZero den = false ∧
        (x = 0x80000000#32 → fSign den = true)) = true := by decide +kernel

theorem witness_RsmPushRunsItsLoopToTheEnd :
    CounterInRange base.dp.ch0.t ∧ legalRatio base.csr.ratio = true ∧
    CounterInRange 0x4B7FFFFF#32 ∧ legalRatio 0x3C000000#32 = true ∧ legalRatio 0x43000000#32 = true := by decide +kernel

theorem witness_RatioOneEmitsOneOutput : base.csr.ratio = fOne ∧ base.dp.ch0.t = fOne ∧ base.dp.ch1.t = fOne := by decide +kernel

theorem witness_RatioTwoEmitsHalf :
    let s := { base with csr := { base.csr with ratio := fTwo } }
    s.csr.ratio = fTwo ∧ s.dp.ch0.t = fOne ∧ s.dp.ch1.t = fOne := by decide +kernel

theorem witness_invariants_hold_on_a_busy_block : BlockInv busy :=
  ⟨by decide +kernel, by decide +kernel, by decide +kernel, by decide +kernel, by decide +kernel, by decide +kernel,
    by decide +kernel⟩

/-- The busy block with a `PUSH` of one frame next. -/
def pushing : State := turn .audio [] [0x20000001#32, fOne, fHalf] busy

theorem witness_invariants_hold_on_a_pushing_block : BlockInv pushing :=
  ⟨by decide +kernel, by decide +kernel, by decide +kernel, by decide +kernel, by decide +kernel, by decide +kernel,
    by decide +kernel⟩

/-- The step of `busy` is a `MOD_STEP`, that of `pushing` the `PUSH`: with the two theorems before, for the statements about a
step that keeps something (`StepKeepsCountersInRange`, `StepKeepsTheInvariants`, `StepKeepsTheAccumulatorInRange`,
`StepKeepsTheChannelsInStep`, `StepKeepsTheParameters`). -/
theorem witness_steps_of_a_busy_block :
    completes (step busy) = true ∧ completes (step pushing) = true ∧ InvCounters busy ∧ InvCounters pushing ∧
      InvAccumulator busy ∧ InvAccumulator pushing ∧ ChannelsInStep busy ∧ ChannelsInStep pushing ∧
      pushing.csr.ctrl.nch2 = true ∧ agentTurn busy = true ∧ agentTurn pushing = true := by decide +kernel

/-- A turn that names no step is refused (log entry 18). The hypothesis of `NoStepFaultsUnderTheInvariants` is met by `busy`. -/
theorem witness_NoStepFaultsUnderTheInvariants :
    (decodeInternal 0x82000000#32).toOption = none ∧
      (match step (turn (.internal 0x82000000#32) [] [] busy) with
        | .refused (.noSuchStep w) => w == 0x82000000#32
        | _ => false) = true := by decide +kernel

theorem witness_MuxOfIdenticalChannelsIsGainAndPilot :
    ([0x00000000#32, 0xBF000000#32, 0x7EFFFFFF#32].all fun l =>
      let s := handArgs [l, l] base
      Memory.read fZero s.env.args 0 = l ∧ Memory.read fZero s.env.args 1 = l ∧ l ≠ 0x80000000#32 ∧ fExp l < 254)
      = true := by decide +kernel

theorem witness_EncStepFollowsItsFormula :
    busy.csr.ctrl.encEn = true ∧ 1 ≤ busy.csr.payloadLen.toNat ∧ busy.csr.payloadLen.toNat ≤ busy.cfg.payloadMax ∧
      busy.dp.cursor < 8 * busy.csr.payloadLen.toNat := by decide +kernel

theorem witness_InactiveEncoderPassesSamples :
    base.csr.ctrl.encEn = false ∧ base.csr.payloadLen = 0 ∧ (withCtrl 4#32 base).csr.payloadLen = 0 := by decide +kernel

theorem witness_EncoderVisitsEveryPayloadBitInOrder :
    let s := { busy with dp := { busy.dp with cursor := 0 } }
    s.csr.ctrl.encEn = true ∧ 1 ≤ s.csr.payloadLen.toNat ∧ s.csr.payloadLen.toNat ≤ s.cfg.payloadMax ∧ 1 ≤ s.cfg.encPeriod ∧
      s.dp.encPhase = 0 ∧ s.dp.cursor = 0 := by decide +kernel

theorem witness_FifoWriteAppendsABlockThatFits :
    2 ≤ waiting.cfg.cap ∧ waiting.ring.ipos < waiting.cfg.cap ∧ waiting.ring.opos < waiting.cfg.cap ∧
      6 + (((waiting.ring.ipos : Int) - waiting.ring.opos) % waiting.cfg.cap).toNat + 1 ≤ waiting.cfg.cap := by decide +kernel

theorem witness_FifoWriteDropsABlockThatDoesNotFit :
    2 ≤ waiting.cfg.cap ∧
      waiting.cfg.cap < 7 + (((waiting.ring.ipos : Int) - waiting.ring.opos) % waiting.cfg.cap).toNat + 1 := by decide +kernel

theorem witness_ConsReadTakesTheOldestSamples :
    let s := { waiting with csr := { waiting.csr with chunk := 1 } }
    s.cons.phase = .idle ∧ s.csr.ctrl.run = true ∧ s.started = true ∧ s.csr.status.fatal = false ∧ 2 ≤ s.cfg.cap ∧
      s.ring.ipos < s.cfg.cap ∧ s.ring.opos < s.cfg.cap ∧ Memory.wf (some fZero) s.cons.cbuf = true ∧
      s.csr.chunk.toNat ≤ (((s.ring.ipos : Int) - s.ring.opos) % s.cfg.cap).toNat := by decide +kernel

theorem witness_ConsReadUnderrunRefeedsTheStaleChunk :
    waiting.cons.phase = .idle ∧ waiting.csr.ctrl.run = true ∧ waiting.started = true ∧ waiting.csr.status.fatal = false ∧
      (((waiting.ring.ipos : Int) - waiting.ring.opos) % waiting.cfg.cap).toNat < waiting.csr.chunk.toNat := by decide +kernel

theorem witness_HoldsChangeNothing :
    busy.cons.phase ≠ .idle ∧ base.csr.ctrl.run = false ∧ base.started = false ∧ (halted base).csr.status.fatal = true ∧
      waiting.cons.phase ≠ .proc ∧ fLe fOne base.csr.cps = false ∧ (base.mod.slotPtr ≤ 3 ∧ 3 ≤ base.mod.slotPtr + 3) := by
  decide +kernel

theorem witness_ModStepFollowsItsFormulas :
    busy.cons.phase = .proc ∧ busy.csr.status.fatal = false ∧ fLe fOne busy.csr.cps = true ∧
      ¬(busy.mod.slotPtr ≤ busy.env.dmaCur ∧ busy.env.dmaCur ≤ busy.mod.slotPtr + 3) ∧
      busy.cons.cidx < busy.cfg.cap - 1 ∧ busy.mod.slotPtr + 4 ≤ busy.cfg.kDesc ∧
      Memory.wf (some 0#32) busy.mod.slot = true := by decide +kernel

theorem witness_SlotIndicesStayInTheTable : busy.cfg.LegalTables := by decide +kernel

theorem witness_DwellsAddUpToTheSampleLength :
    legalCps busy.csr.cps = true ∧ legalCps 0x3F800000#32 = true ∧ legalCps 0x4B800000#32 = true ∧
      fFinite busy.mod.te = true := by decide +kernel

theorem witness_UnclampedFractionLiesInTheMiddle :
    busy.cfg.LegalTables ∧ busy.cfg.ivMin ≤ modIvRaw busy ∧ modIvRaw busy ≤ busy.cfg.ivMax := by decide +kernel

/-- The state after a step, or the same state where there is none. -/
def advance (s : State) : State :=
  match step s with
  | .next t => t
  | _ => s

theorem step_advance {s : State} (h : completes (step s) = true) : step s = .next (advance s) := by
  unfold completes ends at h
  unfold advance
  cases hs : step s <;> simp_all

/-- Three steps of an instance with 8 slot words: a modulator step, the DMA controller moving on, a modulator step. -/
def ringRun : Nat → State
  | 0 => { busy with
      cons := { busy.cons with cidx := 0 }
      env := { busy.env with
        dmaCur := 7, sched := [.internal 0x81000000#32, .internal 0xE0000000#32, .internal 0x81000000#32] } }
  | j + 1 => advance (ringRun j)

theorem witness_SlotPointerReturnsAfterTheRing :
    (ringRun 0).cfg.LegalSizes ∧ (ringRun 0).mod.slotPtr < (ringRun 0).cfg.kDesc ∧
      (∀ j < 3, step (ringRun j) = .next (ringRun (j + 1)) ∧ takesReset (ringRun j) = false) ∧
      4 * ((List.range 3).countP fun j => performsModStep (ringRun j)) = (ringRun 0).cfg.kDesc ∧
      isReset .dmaAdv = false ∧ completes (exec .dmaAdv busy) = true := by
  refine ⟨by decide +kernel, by decide +kernel, ?_, by decide +kernel, by decide +kernel, by decide +kernel⟩
  have h : ∀ j < 3, completes (step (ringRun j)) = true ∧ takesReset (ringRun j) = false := by decide +kernel
  exact fun j hj => ⟨step_advance (h j hj).1, (h j hj).2⟩

theorem witness_ModStepSparesTheDescriptorBeingRead :
    Memory.wf (some 0#32) busy.mod.slot = true ∧ completes (exec .modStep busy) = true := by decide +kernel

/-- Its hypothesis on the state is met by `busy`. -/
theorem witness_RegisterReadsReturnTheirValues :
    (0x06C#12).toNat % 4 = 0 ∧ 0x06C ≤ (0x06C#12).toNat ∧ (0xFFC#12).toNat % 4 = 0 ∧
      0x06C ≤ (0xFFC#12).toNat := by decide +kernel

theorem witness_MisalignedAccessesAreRefused : (0x005#12).toNat % 4 ≠ 0 ∧ (0xFFF#12).toNat % 4 ≠ 0 := by decide +kernel

theorem witness_CtrlWritesStoreAndReinitialise :
    ([0x00000029#32, 0x7FFFFFDE#32].all fun w => base.csr.status.fatal = false ∧ w.getLsbD 31 = false ∧
      (w.getLsbD 0 = true → w.getLsbD 3 = true) ∧ base.csr.ctrl.run = false) = true ∧
    (let w := 0x0000001F#32
     let c := busy.csr.ctrl
     busy.csr.status.fatal = false ∧ w.getLsbD 31 = false ∧ (w.getLsbD 0 = true → w.getLsbD 3 = true) ∧ c.run = true ∧
      w.getLsbD 0 = c.stereoEn ∧ w.getLsbD 1 = c.resampEn ∧ w.getLsbD 2 = c.encEn ∧ w.getLsbD 3 = c.nch2) := by decide +kernel

theorem witness_UncheckedWritesTakeEffect :
    busy.csr.status.fatal = false ∧ ([0x000#12, 0x014#12, 0x018#12, 0x040#12, 0xFFC#12].all fun off =>
      off.toNat % 4 = 0 ∧ (off = 0x000#12 ∨ off = 0x014#12 ∨ off = 0x018#12 ∨ 0x040 ≤ off.toNat)) = true := by decide +kernel

theorem witness_LockableWritesTakeEffectWhileStopped :
    let s := { base with csr := { base.csr with payloadAddr := 1#32 } }
    s.cfg.LegalSizes ∧ s.csr.status.fatal = false ∧ s.csr.ctrl.run = false ∧ (7#32).toNat ≤ s.cfg.cap - 1 ∧
      1 ≤ (1#32).toNat ∧ (2#32).toNat ≤ s.cfg.payloadMax ∧ s.csr.payloadAddr.toNat < s.cfg.payloadMax ∧
      Memory.wf (some 0x00#8) s.payload = true := by decide +kernel

theorem witness_RateAndModulationWritesTakeEffect :
    base.csr.status.fatal = false ∧ base.csr.ctrl.run = false ∧ busy.csr.status.fatal = false ∧ 44100#32 = busy.csr.srcRate ∧
      ([0x3C000000#32, 0x43000000#32].all fun w =>
        fFinite w = true ∧ fLe 0x3C000000#32 w = true ∧ fLe w 0x43000000#32 = true) = true ∧
      0x3F800000#32 = busy.csr.ratio ∧
      ([0x3F800000#32, 0x4B800000#32].all fun w =>
        fFinite w = true ∧ fLe 0x3F800000#32 w = true ∧ fLe w 0x4B800000#32 = true) = true ∧
      fFinite 0xFF7FFFFF#32 = true := by decide +kernel

theorem witness_IllegalValuesAreRefused :
    let c := 0x7FFFFFF1#32
    let s := { busy with csr := { busy.csr with payloadAddr := 2#32 } }
    busy.csr.status.fatal = false ∧ base.csr.status.fatal = false ∧
      (c.getLsbD 31 = false ∧ c.getLsbD 0 = true ∧ (1#32).getLsbD 3 = false ∧ (1#32).getLsbD 0 = true ∧
        (1#32).getLsbD 31 = false) ∧
      busy.cfg.cap - 1 < (8#32).toNat ∧ (0#32).toNat = 0 ∧ fFinite 0x7FC00000#32 = false ∧
      fLt 0x3BFFFFFF#32 0x3C000000#32 = true ∧ fLt 0x43000000#32 0x43000001#32 = true ∧
      fLt 0x3F7FFFFF#32 0x3F800000#32 = true ∧ fLt 0x4B800000#32 0x4B800001#32 = true ∧ fFinite 0x7F800000#32 = false ∧
      busy.cfg.payloadMax < (3#32).toNat ∧ s.csr.status.fatal = false ∧
      s.cfg.payloadMax ≤ s.csr.payloadAddr.toNat := by decide +kernel

theorem witness_LockedWritesAreRefused :
    busy.csr.status.fatal = false ∧ busy.csr.ctrl.run = true ∧
      (let w := 0x00000028#32
       w.getLsbD 31 = false ∧ (w.getLsbD 0 = true → w.getLsbD 3 = true) ∧ w.getLsbD 0 ≠ busy.csr.ctrl.stereoEn) ∧
      (7#32).toNat ≤ busy.cfg.cap - 1 ∧ 1 ≤ (1#32).toNat ∧ (2#32).toNat ≤ busy.cfg.payloadMax ∧
      busy.csr.payloadAddr.toNat < busy.cfg.payloadMax := by decide +kernel

theorem witness_RateChangesWhileRunningHalt :
    busy.csr.status.fatal = false ∧ busy.csr.ctrl.run = true ∧ 0#32 ≠ busy.csr.srcRate ∧ legalRatio 0x43000000#32 = true ∧
      0x43000000#32 ≠ busy.csr.ratio := by decide +kernel

theorem witness_HaltedBlockRefusesWrites :
    (halted base).csr.status.fatal = true ∧ (0x004#12).toNat % 4 = 0 ∧
      ¬(0x004#12 = 0x004#12 ∧ (0x7FFFFFFF#32).getLsbD 31 = true) ∧ (0xFFC#12).toNat % 4 = 0 ∧
      ¬(0xFFC#12 = 0x004#12 ∧ (0x80000000#32).getLsbD 31 = true) := by decide +kernel

theorem witness_BothResetsRestoreTheResetState :
    (0x80000000#32).getLsbD 31 = true ∧ (0xFFFFFFFF#32).getLsbD 31 = true := by decide +kernel

theorem witness_PushChecksRefuseInOrder :
    let s := turn .audio [] [1#32, 2#32, 3#32, 4#32] busy
    2 * (if s.csr.ctrl.nch2 then 2 else 1) ≤ s.env.audIn.length ∧ (halted s).csr.status.fatal = true ∧
      s.csr.status.fatal = false ∧ base.csr.status.fatal = false ∧ base.csr.ctrl.run = false ∧ s.csr.ctrl.run = true ∧
      0 * 2 ≤ base.env.audIn.length ∧ s.latchedN ≠ 0 ∧ s.latchedN ≠ 2 := by decide +kernel

theorem witness_PushPerformsItsDatapathOperations :
    let s := turn .audio [] [1#32, 2#32] busy
    1 * (if s.csr.ctrl.nch2 then 2 else 1) ≤ s.env.audIn.length ∧ s.csr.status.fatal = false ∧ s.csr.ctrl.run = true ∧
      s.latchedN = 1 ∧ base.latchedN = 0 ∧ s.csr.ctrl.encEn = true ∧ s.csr.payloadLen ≠ 0 ∧
      s.csr.payloadLen.toNat ≤ s.cfg.payloadMax ∧ s.dp.cursor < 8 * s.csr.payloadLen.toNat := by decide +kernel

theorem witness_MonoPushAppendsThePreEmphasisedBlock :
    let s := turn .audio [] [0x3F800000#32, 0x3F800000#32] (withCtrl 0x20#32 { waiting with latchedN := 0 })
    let c := s.csr.ctrl
    2 ≤ s.env.audIn.length ∧ s.csr.status.fatal = false ∧ c.run = true ∧ s.latchedN = 0 ∧ c.stereoEn = false ∧
      c.resampEn = false ∧ c.encEn = false ∧ c.nch2 = false ∧ 2 ≤ s.cfg.cap ∧ s.ring.ipos < s.cfg.cap ∧
      s.ring.opos < s.cfg.cap ∧ 2 + (((s.ring.ipos : Int) - s.ring.opos) % s.cfg.cap).toNat + 1 ≤ s.cfg.cap := by decide +kernel

theorem witness_OnlyResetLeavesTheHaltedState :
    let s := turn (.internal 0xE1000000#32) [] [] (halted base)
    s.csr.status.fatal = true ∧ ends (step s) (fun t => t.csr.status.fatal = false) = true := by decide +kernel

theorem witness_HaltedBlockStandsStill :
    (halted busy).csr.status.fatal = true ∧ isDatapath (.csrRd 0x03C#12) = false ∧ isReset (.csrRd 0x03C#12) = false ∧
      completes (exec (.csrRd 0x03C#12) (halted busy)) = true := by decide +kernel

theorem witness_CountersCountAndSaturate :
    let s := { waiting with csr := { waiting.csr with unrCnt := 0xFFFFFFFF#32 } }
    isReset .consRead = false ∧ ends (exec .consRead s) (fun t => t.csr.unrCnt = 0xFFFFFFFF#32) = true ∧
      ends (exec .consRead waiting) (fun t => t.csr.unrCnt = 1#32) = true := by decide +kernel

theorem witness_PayloadIsImmutableWhileRunning :
    busy.csr.ctrl.run = true ∧ isReset (.csrWr 0x03C#12 1#32) = false ∧
      completes (exec (.csrWr 0x03C#12 1#32) busy) = true := by decide +kernel

theorem witness_InvariantsHoldAtReset : smallCfg.Legal := by decide +kernel

/-- The first and the last row at the default sizes, with `x` zero at row 0, tap 2; and a table of one tap. -/
theorem witness_SincTableHasThePrintedEntries :
    smallCfg.taps = 5 ∧ smallCfg.phases = 10 ∧ 9 < smallCfg.phases ∧ 4 < smallCfg.taps ∧
      ((5 : Int) - 1) * 10 + 2 * 0 - 2 * 2 * 10 = 0 ∧ ((5 : Int) - 1) * 10 + 2 * 0 - 2 * 4 * 10 ≠ 0 ∧
      (((5 : Int) - 1) * 10 + 2 * 0 - 2 * 4 * 10) % (2 * 10) = 0 ∧
      (lut { smallCfg with taps := 1, phases := 1 } 0) = [0x3F800000#32] := by decide +kernel

end Sys2Proof.Tests
end

section
/-! The parameters of the block stay what they are (00_scope R7, 20_memory R103): every named update, every operation's
meaning and every fetch keep `cfg`, and therefore so does a step. -/

namespace Sys2Proof.Machine

/-! ### The updates that keep `cfg` in each of their outcomes -/

@[simp] theorem fifoWrite_cfg (m : Nat) (zs : List F32) (s : State) : (fifoWrite m zs s).1.cfg = s.cfg := by
  obtain ⟨-, hw⟩ | ⟨-, hw⟩ := fifoWrite_cases m zs s <;> simp [hw]

@[simp] theorem pushBlock_cfg (n : Nat) (ls rs : List F32) (s : State) : (pushBlock n ls rs s).cfg = s.cfg := by
  simp [pushBlock_eq]

theorem csrWrite_accepted_cfg {r : Csr} {w : Word} {s t : State} (h : csrWrite r w s = .accepted t) : t.cfg = s.cfg := by
  obtain ⟨-, -, rfl⟩ | ⟨ht, -⟩ := csrWrite_accepted h
  · exact softReset_cfg s
  · rw [ht]

/-! ### The meanings that have more than one outcome -/

theorem execCsrRd_cfg {off : BitVec 12} {s t : State} (h : execCsrRd off s = .next t) : t.cfg = s.cfg := by
  unfold execCsrRd at h
  split at h <;> cases h
  · exact refuse_cfg ..
  · simp

theorem execCsrWr_cfg {off : BitVec 12} {w : Word} {s t : State} (h : execCsrWr off w s = .next t) : t.cfg = s.cfg := by
  obtain ⟨-, he⟩ | ⟨-, -, -, he⟩ | ⟨-, -, ⟨u, hu, he⟩ | ⟨c, -, he⟩ | ⟨c, -, he⟩⟩ := execCsrWr_cases off w s <;>
    cases he.symm.trans h
  case inr.inr.inl => exact (respond_cfg ..).trans (csrWrite_accepted_cfg hu)
  case inr.inr.inr.inr => exact fatalStop_cfg ..
  all_goals exact refuse_cfg ..

theorem execPush_cfg {n : Nat} {s t : State} (h : execPush n s = .next t) : t.cfg = s.cfg := by
  obtain ⟨-, he⟩ | ⟨-, ⟨-, he⟩ | ⟨-, ⟨-, he⟩ | ⟨-, ⟨-, he⟩ | ⟨-, ⟨-, -, he⟩ | ⟨-, ⟨-, he⟩ | ⟨-, he⟩⟩⟩⟩⟩⟩ :=
    execPush_cases n s <;> cases he.symm.trans h <;> simp

theorem execConsRead_cfg {s t : State} (h : execConsRead s = .next t) : t.cfg = s.cfg := by
  obtain ⟨-, he⟩ | ⟨-, ⟨-, he⟩ | ⟨-, he⟩⟩ := execConsRead_cases s <;> cases he.symm.trans h <;> simp

theorem execModStep_cfg {s t : State} (h : execModStep s = .next t) : t.cfg = s.cfg := by
  obtain ⟨-, he⟩ | ⟨-, ⟨-, he⟩ | ⟨-, ⟨-, he⟩ | ⟨-, he⟩⟩⟩ := execModStep_cases s <;> cases he.symm.trans h <;> simp

theorem execEncStep_cfg {s t : State} (h : execEncStep s = .next t) : t.cfg = s.cfg := by
  obtain ⟨-, he⟩ | ⟨-, ⟨-, he⟩ | ⟨-, he⟩⟩ := execEncStep_cases s <;> cases he.symm.trans h <;> simp

theorem execFifoWrite_cfg {m : Nat} {s t : State} (h : execFifoWrite m s = .next t) : t.cfg = s.cfg := by
  obtain ⟨-, he⟩ | ⟨-, he⟩ := execFifoWrite_cases m s <;> cases he.symm.trans h <;> rfl

/-! ### Every operation, every fetch, every step -/

/-- No operation changes a parameter: resets keep `cfg`, and every other meaning writes other fields. -/
theorem exec_cfg {i : Instr} {s t : State} (h : exec i s = .next t) : t.cfg = s.cfg := by
  cases i with
  | csrRd off => exact execCsrRd_cfg h
  | csrWr off w => exact execCsrWr_cfg h
  | push n => exact execPush_cfg h
  | consRead => exact execConsRead_cfg h
  | modStep => exact execModStep_cfg h
  | encStep => exact execEncStep_cfg h
  | fifoWrite m => exact execFifoWrite_cfg h
  | startCheck => cases h; simp
  | hwReset => cases h; exact hardReset_cfg s
  | preStep | rsmPush | muxStep | monoStep | dmaAdv => cases h; rfl

theorem fetch_cfg {s u : State} (h : (fetch s).state? = some u) : u.cfg = s.cfg := by
  rw [fetch_state h]

theorem step_cfg {s t : State} (h : step s = .next t) : t.cfg = s.cfg := by
  obtain ⟨i, u, hf, he⟩ | ⟨p, w, u, hf, rfl⟩ | hf := step_next h
  · exact (exec_cfg he).trans (fetch_cfg (by rw [hf]; rfl))
  · exact (illegalOp_cfg p w u).trans (fetch_cfg (by rw [hf]; rfl))
  · exact fetch_cfg (by rw [hf]; rfl)

/-- Settles O58: `step_cfg`, and the sinc table is a function of the parameters alone. -/
theorem stepKeepsTheParameters : Obligations.StepKeepsTheParameters := by
  unfold Obligations.StepKeepsTheParameters
  intro s t h
  have hcfg := step_cfg h
  exact ⟨hcfg, fun row => by rw [hcfg]⟩

end Sys2Proof.Machine
end

section
/-! Which operations a step can take, by the words that name them (30_encoding R143 to R150), and the inversion of a register
read. -/

namespace Sys2Proof.Machine

/-- A word whose reserved bits are checked names the step or none. -/
theorem eq_of_guard_ok {P : Prop} [Decidable P] {i j : Instr} {e : Reject} (h : (if P then Except.ok i else .error e) = .ok j) :
    j = i := by
  split at h <;> cases h
  rfl

theorem eq_of_unless_ok {P : Prop} [Decidable P] {i j : Instr} {e : Reject} (h : (if P then .error e else Except.ok i) = .ok j) :
    j = i := by
  split at h <;> cases h
  rfl

/-- The words that name a step, by their class (30_encoding R146 to R148). -/
theorem decodeInternal_ok {w : Word} {i : Instr} (h : decodeInternal w = .ok i) :
    (classOf w = 0x8 ∧ (i = .consRead ∨ i = .modStep)) ∨ (classOf w = 0x9 ∧ isDatapath i = true ∧ i.WellFormed) ∨
      (classOf w = 0xE ∧ (i = .dmaAdv ∨ i = .hwReset)) := by
  unfold decodeInternal at h
  obtain ⟨hc, h⟩ | ⟨-, h⟩ := ite_eq_iff.mp h
  · refine .inl ⟨hc, ?_⟩
    obtain ⟨-, h⟩ | ⟨-, h⟩ := ite_eq_iff.mp h
    · exact .inl (eq_of_guard_ok h)
    obtain ⟨-, h⟩ | ⟨-, h⟩ := ite_eq_iff.mp h
    · exact .inr (eq_of_guard_ok h)
    · cases h
  obtain ⟨hc, h⟩ | ⟨-, h⟩ := ite_eq_iff.mp h
  · refine .inr (.inl ⟨hc, ?_⟩)
    obtain ⟨-, h⟩ | ⟨-, h⟩ := ite_eq_iff.mp h
    · cases eq_of_unless_ok h; exact ⟨rfl, trivial⟩
    obtain ⟨-, h⟩ | ⟨-, h⟩ := ite_eq_iff.mp h
    · cases eq_of_unless_ok h; exact ⟨rfl, trivial⟩
    obtain ⟨-, h⟩ | ⟨-, h⟩ := ite_eq_iff.mp h
    · cases eq_of_guard_ok h; exact ⟨rfl, trivial⟩
    obtain ⟨-, h⟩ | ⟨-, h⟩ := ite_eq_iff.mp h
    · cases eq_of_guard_ok h; exact ⟨rfl, trivial⟩
    obtain ⟨-, h⟩ | ⟨-, h⟩ := ite_eq_iff.mp h
    · cases eq_of_guard_ok h; exact ⟨rfl, trivial⟩
    obtain ⟨-, h⟩ | ⟨-, h⟩ := ite_eq_iff.mp h
    · cases h; exact ⟨rfl, Nat.mod_lt _ (Nat.two_pow_pos 24)⟩
    obtain ⟨-, h⟩ | ⟨-, h⟩ := ite_eq_iff.mp h
    · cases eq_of_guard_ok h; exact ⟨rfl, trivial⟩
    · cases h
  obtain ⟨hc, h⟩ | ⟨-, h⟩ := ite_eq_iff.mp h
  · refine .inr (.inr ⟨hc, ?_⟩)
    obtain ⟨-, h⟩ | ⟨-, h⟩ := ite_eq_iff.mp h
    · exact .inl (eq_of_guard_ok h)
    obtain ⟨-, h⟩ | ⟨-, h⟩ := ite_eq_iff.mp h
    · exact .inr (eq_of_guard_ok h)
    · cases h
  · cases h

theorem decodePort_audio_push {w : Word} {n : Nat} (h : decodePort .audio w = .push n) : n < 2 ^ 16 := by
  unfold decodePort at h
  dsimp only at h
  split_ifs at h
  cases h
  exact Nat.mod_lt _ (Nat.two_pow_pos 16)

theorem fetchInternal_run {w : Word} {s u : State} {i : Instr} (h : fetchInternal w s = .run i u) :
    decodeInternal w = .ok i := by
  unfold fetchInternal at h
  split at h
  · rename_i hd; cases h; exact hd
  · cases h

theorem fetchInternal_noSuchStep {v w : Word} {s : State} (h : fetchInternal v s = .noSuchStep w) :
    ∃ e, decodeInternal w = .error e := by
  unfold fetchInternal at h
  split at h
  · cases h
  · rename_i e hd; cases h; exact ⟨e, hd⟩

theorem fetchControl_run {s u : State} {i : Instr} (h : fetchControl s = .run i u) :
    (∃ off, i = .csrRd off) ∨ ∃ off d, i = .csrWr off d := by
  unfold fetchControl at h
  repeat' split at h
  all_goals cases h
  · exact .inl ⟨_, rfl⟩
  · exact .inr ⟨_, _, rfl⟩

theorem fetchAudio_run {s u : State} {i : Instr} (h : fetchAudio s = .run i u) : ∃ n < 2 ^ 16, i = .push n := by
  unfold fetchAudio at h
  repeat' split at h
  all_goals cases h
  exact ⟨_, decodePort_audio_push ‹_›, rfl⟩

theorem consumerWord_class (s : State) : classOf (consumerWord s) = 0x8 := by
  unfold consumerWord
  split <;> rfl

/-- Where a fetched operation comes from: a port, or a word that names a step, of class 9 only in a turn that is no agent's. -/
theorem fetch_run {s u : State} {i : Instr} (h : fetch s = .run i u) :
    ((∃ off, i = .csrRd off) ∨ ∃ off d, i = .csrWr off d) ∨ (∃ n < 2 ^ 16, i = .push n) ∨
      ∃ w, decodeInternal w = .ok i ∧ (agentTurn s = true → classOf w ≠ 0x9) := by
  unfold fetch at h
  split at h
  · exact .inr (.inr ⟨_, fetchInternal_run h, fun _ => by rw [consumerWord_class]; decide⟩)
  · exact .inl (fetchControl_run h)
  · exact .inr (.inl (fetchAudio_run h))
  · rename_i hsched
    exact .inr (.inr ⟨_, fetchInternal_run h, fun ha => by simpa [agentTurn, hsched] using ha⟩)

/-- A fetched operation's operands fit their fields. -/
theorem fetch_wellFormed {s u : State} {i : Instr} (h : fetch s = .run i u) : i.WellFormed := by
  obtain (⟨off, rfl⟩ | ⟨off, d, rfl⟩) | ⟨n, hn, rfl⟩ | ⟨w, hd, -⟩ := fetch_run h
  · trivial
  · trivial
  · exact hn
  · obtain ⟨-, rfl | rfl⟩ | ⟨-, -, hwf⟩ | ⟨-, rfl | rfl⟩ := decodeInternal_ok hd
    · trivial
    · trivial
    · exact hwf
    · trivial
    · trivial

/-- In an agent's turn no class-9 operation is fetched. -/
theorem fetch_agentTurn {s u : State} {i : Instr} (ha : agentTurn s = true) (h : fetch s = .run i u) : isDatapath i = false := by
  obtain (⟨off, rfl⟩ | ⟨off, d, rfl⟩) | ⟨n, hn, rfl⟩ | ⟨w, hd, hclass⟩ := fetch_run h
  · rfl
  · rfl
  · rfl
  · obtain ⟨-, rfl | rfl⟩ | ⟨hc, -⟩ | ⟨-, rfl | rfl⟩ := decodeInternal_ok hd
    · rfl
    · rfl
    · exact absurd hc (hclass ha)
    · rfl
    · rfl

theorem fetch_noSuchStep {s : State} {w : Word} (h : fetch s = .noSuchStep w) : ∃ e, decodeInternal w = .error e := by
  unfold fetch at h
  split at h
  · exact fetchInternal_noSuchStep h
  · unfold fetchControl at h
    repeat' split at h
    all_goals cases h
  · unfold fetchAudio at h
    repeat' split at h
    all_goals cases h
  · exact fetchInternal_noSuchStep h

/-- A register read: refused as misaligned, or answered. -/
theorem execCsrRd_cases (off : BitVec 12) (s : State) :
    (aligned off = false ∧ execCsrRd off s = .next (refuse .control .busMisaligned off.toNat s)) ∨
    (aligned off = true ∧
      execCsrRd off s = .next (respond .control false (csrValue (csrAt off) s) (csrReadEffect (csrAt off) s))) := by
  unfold execCsrRd
  cases aligned off
  · exact .inl ⟨rfl, rfl⟩
  · exact .inr ⟨rfl, rfl⟩

theorem isSoftReset_iff {off : BitVec 12} {w : Word} : isSoftReset off w = true ↔ csrAt off = .ctrl ∧ w.getLsbD 31 = true := by
  simp [isSoftReset]

end Sys2Proof.Machine
end

section
/-! The invariants of 10_state R64: at reset, under each named update, under every operation, and under every step. -/

namespace Sys2Proof.Machine

/-! ### At reset -/

/-- A datapath at reset is in range whatever the registers hold: its cursor is 0, and an empty payload has no bound for it. -/
theorem invDatapath_of_dp_reset {s : State} (hl : s.cfg.Legal) (hd : s.dp = Datapath.reset s.cfg) : InvDatapath s := by
  obtain ⟨⟨-, -, -, -, -, hpayload, -⟩, -, ⟨hperiod, -⟩⟩ := hl
  have hlen : s.csr.payloadLen ≠ 0 → 0 < 8 * s.csr.payloadLen.toNat := by intro h; bv_omega
  simp only [InvDatapath, hd]
  exact ⟨by simp only [Datapath.reset]; omega, by simp only [Datapath.reset]; omega, hlen, List.length_replicate,
    List.length_replicate⟩

/-- The counter of a resampler at reset is `1.0`, the least value in range. -/
theorem counterInRange_one : CounterInRange fOne := by decide

theorem zero_cause_bits : (0#32).extractLsb' 8 8 = 0#8 := by decide

theorem legalRatio_one : legalRatio fOne = true := by decide

theorem invRegisters_resetBlock {cfg : Config} (hl : cfg.Legal) (env : Env) : InvRegisters (State.resetBlock cfg env) := by
  obtain ⟨⟨hcap, -⟩, -, -⟩ := hl
  have hone : 1 ≤ cfg.cap - 1 := by omega
  exact ⟨fun h => absurd h Bool.false_ne_true, fun h => absurd h Bool.false_ne_true, zero_cause_bits, Nat.zero_le _, le_rfl,
    hone, legalRatio_one, .inl rfl, counterInRange_one.1, Nat.zero_le _, Nat.two_pow_pos 16⟩

/-- The block at its reset values satisfies the invariants, whatever stands outside it but for the range of `DMA_CUR`. -/
theorem blockInv_resetBlock {cfg : Config} {env : Env} (hl : cfg.Legal) (he : env.dmaCur < cfg.kDesc) :
    BlockInv (State.resetBlock cfg env) := by
  have hcap : 0 < cfg.cap := by have := hl.1; omega
  have hdesc : 0 < cfg.kDesc := Nat.zero_lt_of_lt he
  have hring : InvRing (State.resetBlock cfg env) := ⟨hcap, hcap, fun _ => ⟨rfl, rfl⟩⟩
  have hcons : InvConsumer (State.resetBlock cfg env) := ⟨le_rfl, Nat.zero_le _, fun _ => rfl, fun _ => rfl⟩
  have hmod : InvModulator (State.resetBlock cfg env) := ⟨rfl, hdesc, he⟩
  exact ⟨hl, Memory.reset_wf cfg, hring, hcons, hmod, invDatapath_of_dp_reset hl rfl, invRegisters_resetBlock hl env⟩

theorem blockInv_resetOf {cfg : Config} (hl : cfg.Legal) : BlockInv (State.resetOf cfg) :=
  blockInv_resetBlock hl (show 0 < cfg.kDesc by have := hl.1; omega)

theorem invCounters_resetOf (cfg : Config) : InvCounters (State.resetOf cfg) := ⟨counterInRange_one, counterInRange_one⟩

theorem accumulatorInRange_zero : fFinite fZero = true ∧ fLe fZero fZero = true ∧ fLe fZero fCpsMax = true := by decide

theorem invAccumulator_resetOf (cfg : Config) : InvAccumulator (State.resetOf cfg) := accumulatorInRange_zero

theorem channelsInStep_resetOf (cfg : Config) : ChannelsInStep (State.resetOf cfg) := fun _ => rfl

theorem legal_defaults : Config.Legal {} := by decide

/-- Settles O55: each invariant at the reset values of any legal parameters, of which the defaults are one choice. -/
theorem invariantsHoldAtReset : Obligations.InvariantsHoldAtReset := by
  unfold Obligations.InvariantsHoldAtReset
  have hall : ∀ cfg : Config, cfg.Legal → BlockInv (State.resetOf cfg) ∧ InvCounters (State.resetOf cfg) ∧
      InvAccumulator (State.resetOf cfg) ∧ ChannelsInStep (State.resetOf cfg) := fun cfg hl =>
    ⟨blockInv_resetOf hl, invCounters_resetOf cfg, invAccumulator_resetOf cfg, channelsInStep_resetOf cfg⟩
  obtain ⟨hb, hc, ha, hs⟩ := hall {} legal_defaults
  exact ⟨hb, hc, ha, hs, hall⟩

/-! ### What a response, an event or a refusal leaves -/

/-- What stands outside the block is free, but for the range of `DMA_CUR`. -/
theorem blockInv_withEnv {s : State} {e : Env} (h : BlockInv s) (he : e.dmaCur < s.cfg.kDesc) :
    BlockInv { s with env := e } := by
  obtain ⟨hlegal, hmem, hring, hcons, ⟨halign, hptr, -⟩, hdp, hreg⟩ := h
  exact ⟨hlegal, hmem, hring, hcons, ⟨halign, hptr, he⟩, hdp, hreg⟩

theorem BlockInv.dmaCur_lt {s : State} (h : BlockInv s) : s.env.dmaCur < s.cfg.kDesc := by
  obtain ⟨-, -, -, -, ⟨-, -, hdma⟩, -⟩ := h
  exact hdma

theorem blockInv_respond {s : State} (p : Port) (e : Bool) (d : Word) (h : BlockInv s) : BlockInv (respond p e d s) := by
  cases p <;> exact blockInv_withEnv h h.dmaCur_lt

theorem blockInv_setResult {s : State} (res : List F32) (h : BlockInv s) : BlockInv (setResult res s) :=
  blockInv_withEnv h h.dmaCur_lt

theorem blockInv_dropPushWords {s : State} (n : Nat) (h : BlockInv s) : BlockInv (dropPushWords s n) :=
  blockInv_withEnv h h.dmaCur_lt

/-- Registers may be replaced where they stay legal and the payload keeps its length. -/
theorem blockInv_withCsr {s : State} {c : Csrs} (h : BlockInv s) (hlen : c.payloadLen = s.csr.payloadLen)
    (hreg : InvRegisters { s with csr := c }) : BlockInv { s with csr := c } := by
  obtain ⟨hlegal, hmem, hring, hcons, hmod, ⟨hphase, hcur, hcurLen, hhist⟩, -⟩ := h
  exact ⟨hlegal, hmem, hring, hcons, hmod, ⟨hphase, hcur, by simpa only [hlen] using hcurLen, hhist⟩, hreg⟩

/-- The flags but `FATAL`, the counters, `CAUSE` up to its zero bits, and the unchecked registers may be replaced freely. -/
theorem blockInv_withFlags {s : State} {st : Status} {irqEn : BitVec 7} {cause srcRate payloadAddr ovr unr sat : Word}
    (h : BlockInv s) (hfatal : st.fatal = s.csr.status.fatal) (hcause : cause.extractLsb' 8 8 = 0#8) :
    BlockInv { s with csr := { s.csr with
      status := st, irqEn := irqEn, cause := cause, srcRate := srcRate, payloadAddr := payloadAddr,
      ovrCnt := ovr, unrCnt := unr, satCnt := sat } } := by
  have ⟨_, _, _, _, _, _, hmono, hhalt, _, hchecked⟩ := h
  exact blockInv_withCsr h rfl ⟨hmono, by simpa only [hfatal] using hhalt, hcause, hchecked⟩

theorem BlockInv.cause_zero_bits {s : State} (h : BlockInv s) : s.csr.cause.extractLsb' 8 8 = 0#8 := by
  obtain ⟨-, -, -, -, -, -, -, -, hcause, -⟩ := h
  exact hcause

/-- A code fits the low byte of `CAUSE` (10_state R64 item 8). -/
theorem causeWord_zero_bits (c : Code) (n : Nat) : (causeWord c n).extractLsb' 8 8 = 0#8 := by
  unfold causeWord
  generalize BitVec.ofNat 16 n = info
  rw [BitVec.extractLsb'_append_eq_of_add_le (by omega)]
  cases c <;> rfl

theorem blockInv_recordRefusal {s : State} (c : Code) (n : Nat) (h : BlockInv s) : BlockInv (recordRefusal c n s) := by
  unfold recordRefusal
  split
  · exact h
  · exact blockInv_withFlags h rfl (causeWord_zero_bits c n)

theorem blockInv_refuse {s : State} (p : Port) (c : Code) (n : Nat) (h : BlockInv s) : BlockInv (refuse p c n s) :=
  blockInv_respond p _ _ (blockInv_recordRefusal c n h)

theorem blockInv_illegalOp {s : State} (p : Port) (w : Word) (h : BlockInv s) : BlockInv (illegalOp p w s) :=
  blockInv_refuse p _ _ h

theorem blockInv_halt {s : State} (c : Code) (n : Nat) (h : BlockInv s) : BlockInv (halt c n s) := by
  have ⟨_, _, _, _, _, _, hmono, _, _, hchecked⟩ := h
  exact blockInv_withCsr (s := s) (c := (halt c n s).csr) h rfl ⟨hmono, fun _ => rfl, causeWord_zero_bits c n, hchecked⟩

theorem blockInv_fatalStop {s : State} (p : Port) (c : Code) (n : Nat) (h : BlockInv s) : BlockInv (fatalStop p c n s) :=
  blockInv_respond p _ _ (blockInv_halt c n h)

/-! ### The ring and the consumer -/

theorem BlockInv.cap_pos {s : State} (h : BlockInv s) : 0 < s.cfg.cap := by
  obtain ⟨⟨⟨hcap, -⟩, -, -⟩, -⟩ := h
  omega

theorem blockInv_ringAccept {s : State} (zs : List F32) (h : BlockInv s) : BlockInv (ringAccept zs s) := by
  have hpos := h.cap_pos
  obtain ⟨hlegal, ⟨hfifo, hfifoBelow, hmem⟩, ⟨-, hring⟩, hrest⟩ := h
  exact ⟨hlegal, ⟨Memory.wf_putRing _ _ _ hfifo, Memory.below_putRing _ _ hpos hfifoBelow, hmem⟩,
    ⟨Nat.mod_lt _ hpos, hring⟩, hrest⟩

theorem blockInv_overrun {s : State} (m : Nat) (h : BlockInv s) : BlockInv (overrun m s) := by
  unfold overrun
  dsimp only
  split
  · exact blockInv_withFlags h rfl h.cause_zero_bits
  · exact blockInv_withFlags h rfl (causeWord_zero_bits _ _)

theorem blockInv_fifoWrite {s : State} (m : Nat) (zs : List F32) (h : BlockInv s) : BlockInv (fifoWrite m zs s).1 := by
  obtain ⟨-, hw⟩ | ⟨-, hw⟩ := fifoWrite_cases m zs s <;> rw [hw]
  · exact blockInv_ringAccept zs h
  · exact blockInv_overrun m h

theorem blockInv_startCheck {s : State} (h : BlockInv s) : BlockInv (startCheck s) := by
  unfold startCheck
  split
  · obtain ⟨hlegal, hmem, ⟨hipos, hopos, -⟩, hrest⟩ := h
    exact ⟨hlegal, hmem, ⟨hipos, hopos, fun hs => absurd hs.symm Bool.false_ne_true⟩, hrest⟩
  · exact h

theorem ringOldest_length (n : Nat) (s : State) : (ringOldest n s).length = n := by simp [ringOldest]

/-- A chunk that the ring buffer could hold may be read from a started ring. -/
theorem blockInv_ringRead {s : State} {n : Nat} (h : BlockInv s) (hn : n ≤ s.cfg.cap - 1) (hs : s.started = true) :
    BlockInv (ringRead n s) := by
  have hpos := h.cap_pos
  obtain ⟨hlegal, ⟨hfifo, hfifoBelow, hbuf, hbufBelow, hmem⟩, ⟨hipos, -, -⟩, hrest⟩ := h
  have hfits : 0 + (ringOldest n s).length ≤ s.cfg.cap - 1 := by rw [ringOldest_length]; omega
  exact ⟨hlegal, ⟨hfifo, hfifoBelow, Memory.wf_writeFrom _ _ hbuf, Memory.below_writeFrom _ hfits hbufBelow, hmem⟩,
    ⟨hipos, Nat.mod_lt _ hpos, fun h => absurd (hs.symm.trans h).symm Bool.false_ne_true⟩, hrest⟩

theorem blockInv_underrun {s : State} (n : Nat) (h : BlockInv s) : BlockInv (underrun n s) :=
  blockInv_withFlags h rfl (causeWord_zero_bits _ _)

/-- A chunk of at least one sample begins with nothing fed, so the consumer is not idle. -/
theorem blockInv_beginChunk {s : State} {n : Nat} (h : BlockInv s) (hpos : 1 ≤ n) (hn : n ≤ s.cfg.cap - 1)
    (hs : s.started = true) : BlockInv (beginChunk n s) := by
  obtain ⟨hlegal, hmem, ⟨hipos, hopos, -⟩, -, hrest⟩ := h
  have hcons : InvConsumer (beginChunk n s) := ⟨Nat.zero_le _, hn, by simp; omega⟩
  exact ⟨hlegal, hmem, ⟨hipos, hopos, fun h => absurd (hs.symm.trans h).symm Bool.false_ne_true⟩, hcons, hrest⟩

/-! ### The modulator -/

/-- A slot lies inside the descriptor ring, whose length is a multiple of four (10_state R64 item 4). -/
theorem BlockInv.slot_fits {s : State} (h : BlockInv s) : s.mod.slotPtr + 4 ≤ s.cfg.kDesc := by
  obtain ⟨⟨⟨-, -, hdesc, -⟩, -, -⟩, -, -, -, ⟨halign, hptr, -⟩, -⟩ := h
  omega

/-- While a chunk is fed the next sample is inside the chunk buffer (10_state R64 item 6). -/
theorem BlockInv.cidx_lt_clen {s : State} (h : BlockInv s) (hp : s.cons.phase = .proc) : s.cons.cidx < s.cons.clen := by
  obtain ⟨-, -, -, ⟨hle, -, hidle⟩, -⟩ := h
  have hne : s.cons.cidx ≠ s.cons.clen := fun he => by simp [hp] at hidle; omega
  omega

theorem modEnabled_phase {s : State} (h : modEnabled s = true) : s.cons.phase = .proc := by
  simp only [modEnabled, Bool.and_eq_true, beq_iff_eq] at h
  obtain ⟨⟨⟨hp, -⟩, -⟩, -⟩ := h
  exact hp

theorem consAdvance_invConsumer {s : State} (h : BlockInv s) (hp : s.cons.phase = .proc) :
    InvConsumer { s with cons := consAdvance s.cons } := by
  have hlt := h.cidx_lt_clen hp
  obtain ⟨-, -, -, ⟨-, hcap, -⟩, -⟩ := h
  refine ⟨hlt, hcap, ?_⟩
  simp only [consAdvance, hp]
  split <;> simp [*]

theorem modAdvance_invModulator {s : State} (h : BlockInv s) : InvModulator { s with mod := modAdvance s } := by
  have hdma := h.dmaCur_lt
  obtain ⟨⟨⟨-, -, hdesc, -⟩, -, -⟩, -, -, -, ⟨halign, -, -⟩, -⟩ := h
  refine ⟨?_, Nat.mod_lt _ (Nat.zero_lt_of_lt hdma), hdma⟩
  calc (s.mod.slotPtr + 4) % s.cfg.kDesc % 4 = (s.mod.slotPtr + 4) % 4 := Nat.mod_mod_of_dvd _ (Nat.dvd_of_mod_eq_zero hdesc)
    _ = 0 := by omega

/-- A sample fed to the modulator: its slot is inside the descriptor ring, and the consumer counts it. -/
theorem blockInv_modCommit {s : State} (h : BlockInv s) (hen : modEnabled s = true) : BlockInv (modCommit s) := by
  have hp := modEnabled_phase hen
  have hslot := h.slot_fits
  have hcons := consAdvance_invConsumer h hp
  have hmod := modAdvance_invModulator h
  have hfed : BlockInv { s with mod := modAdvance s, cons := consAdvance s.cons } := by
    obtain ⟨hlegal, ⟨hfifo, hfifoBelow, hbuf, hbufBelow, hslots, hslotsBelow, hmem⟩, ⟨hipos, hopos, hstart⟩, -, -, hrest⟩ := h
    have hstarted : s.started = false → (consAdvance s.cons).phase = .idle ∧ s.ring.opos = 0 := fun hs =>
      absurd (hp.symm.trans (hstart hs).1) (by decide)
    exact ⟨hlegal, ⟨hfifo, hfifoBelow, hbuf, hbufBelow, Memory.wf_writeFrom _ _ hslots,
      Memory.below_writeFrom _ hslot hslotsBelow, hmem⟩, ⟨hipos, hopos, hstarted⟩, hcons, hmod, hrest⟩
  unfold modCommit
  split
  · exact hfed
  · exact blockInv_withFlags hfed rfl (causeWord_zero_bits _ _)

/-! ### The datapath -/

theorem blockInv_withDp {s : State} {dp : Datapath} (h : BlockInv s) (hdp : InvDatapath { s with dp := dp }) :
    BlockInv { s with dp := dp } := by
  obtain ⟨hlegal, hmem, hring, hcons, hmod, -, hreg⟩ := h
  exact ⟨hlegal, hmem, hring, hcons, hmod, hdp, hreg⟩

theorem BlockInv.invDatapath {s : State} (h : BlockInv s) : InvDatapath s := by
  obtain ⟨-, -, -, -, -, hdp, -⟩ := h
  exact hdp

theorem BlockInv.taps_pos {s : State} (h : BlockInv s) : 1 ≤ s.cfg.taps := by
  obtain ⟨⟨⟨-, -, -, -, -, -, -, htaps, -⟩, -, -⟩, -⟩ := h
  exact htaps

/-- The datapath's ranges speak of the encoder's counters and of the lengths of the histories, and of nothing else. -/
theorem invDatapath_withChannels {s : State} {a b : Channel} {m : Fin 8} (h : InvDatapath s)
    (ha : a.hist.length = s.cfg.taps) (hb : b.hist.length = s.cfg.taps) :
    InvDatapath { s with dp := { s.dp with ch0 := a, ch1 := b, muxState := m } } := by
  obtain ⟨hphase, hcur, hcurLen, -, -⟩ := h
  exact ⟨hphase, hcur, hcurLen, ha, hb⟩

theorem chanOf_hist {s : State} (h : InvDatapath s) (c : Chan) : (chanOf s.dp c).hist.length = s.cfg.taps := by
  obtain ⟨-, -, -, h0, h1⟩ := h
  cases c
  · exact h0
  · exact h1

theorem invDatapath_setChan {s : State} (c : Chan) {ch : Channel} (h : InvDatapath s) (hc : ch.hist.length = s.cfg.taps) :
    InvDatapath { s with dp := setChan s.dp c ch } := by
  cases c
  · exact invDatapath_withChannels h hc (chanOf_hist h .ch1)
  · exact invDatapath_withChannels h (chanOf_hist h .ch0) hc

/-- One composite sample through the encoder: both counters turn round inside their ranges (44_data_encoder R260). -/
theorem invDatapath_encStep {s : State} (x : F32) (h : BlockInv s) (hlen : s.csr.payloadLen ≠ 0) :
    InvDatapath { s with dp := (encStep s.cfg s.payload s.csr.payloadLen.toNat s.dp x).2 } := by
  obtain ⟨⟨-, -, ⟨hperiod, -⟩⟩, -, -, -, -, ⟨-, hcur, hcurLen, h0, h1⟩, ⟨-, -, -, -, -, -, -, -, -, hmax, -⟩⟩ := h
  have hcurLen := hcurLen hlen
  have hpos : 0 < 8 * s.csr.payloadLen.toNat := by omega
  have hturn := Nat.mod_lt (s.dp.cursor + 1) hpos
  have hbelow : (encStep s.cfg s.payload s.csr.payloadLen.toNat s.dp x).2.cursor < 8 * s.csr.payloadLen.toNat := by
    rw [encStep_cursor]
    split
    · exact hturn
    · exact hcurLen
  exact ⟨Nat.mod_lt _ (by omega), by simp only; omega, fun _ => hbelow, by simpa using h0, by simpa using h1⟩

theorem encActive_payloadLen {c : Csrs} (h : encActive c = true) : c.payloadLen ≠ 0 := by
  simp only [encActive, Bool.and_eq_true, bne_iff_ne] at h
  exact h.2

/-- The encoder's stage over a block, sample by sample, from any datapath in range. -/
theorem blockInv_encoderStage {s : State} {dp : Datapath} (zs : List F32) (h : BlockInv { s with dp := dp }) :
    BlockInv { s with dp := (encoderStage s dp zs).2 } := by
  unfold encoderStage
  split
  · rename_i hact
    exact mapState_keeps (fun d => BlockInv { s with dp := d })
      (fun d x hd => blockInv_withDp (s := { s with dp := d }) hd
        (invDatapath_encStep x hd (encActive_payloadLen hact))) dp zs h
  · exact h

/-- A channel's stage keeps the length of its history at `Q`. -/
theorem channelStage_taps {s : State} {ch : Channel} (xs : List F32) (htaps : 1 ≤ s.cfg.taps)
    (h : ch.hist.length = s.cfg.taps) : (channelStage s ch xs).2.hist.length = s.cfg.taps :=
  (channelStage_hist s ch xs (by omega)).trans h

theorem blockInv_cascade {s : State} (ls rs : List F32) (h : BlockInv s) :
    BlockInv { s with dp := (cascade s ls rs).2 } := by
  have htaps := h.taps_pos
  have hdp := h.invDatapath
  have ⟨_, _, _, h0, h1⟩ := hdp
  rw [cascade_eq]
  refine blockInv_encoderStage _ ?_
  rw [compositeStage_dp]
  refine blockInv_withDp h (invDatapath_withChannels hdp (channelStage_taps ls htaps h0) ?_)
  split
  · exact channelStage_taps rs htaps h1
  · exact h1

theorem blockInv_withLatchedN {s : State} {n : Nat} (h : BlockInv s) (hn : n < 2 ^ 16) : BlockInv { s with latchedN := n } := by
  obtain ⟨hlegal, hmem, hring, hcons, hmod, hdp,
    ⟨hmono, hhalt, hcause, hdelay, hchunk, hchunkMax, hratio, hcps, hindex, hlen, -⟩⟩ := h
  exact ⟨hlegal, hmem, hring, hcons, hmod, hdp,
    ⟨hmono, hhalt, hcause, hdelay, hchunk, hchunkMax, hratio, hcps, hindex, hlen, hn⟩⟩

theorem blockInv_pushBlock {s : State} {n : Nat} (ls rs : List F32) (h : BlockInv s) (hn : n < 2 ^ 16) :
    BlockInv (pushBlock n ls rs s) := by
  rw [pushBlock_eq]
  have hdatapath := blockInv_withLatchedN (blockInv_cascade ls rs h) hn
  exact blockInv_respond _ _ _ (blockInv_startCheck (blockInv_fifoWrite _ _ hdatapath))

/-! ### Register access -/

theorem blockInv_csrReadEffect {s : State} (r : Csr) (h : BlockInv s) : BlockInv (csrReadEffect r s) := by
  unfold csrReadEffect
  split
  · exact blockInv_withFlags h rfl h.cause_zero_bits
  · exact h

/-- A legal write of `CTRL` to a block that is not halted; a change of `CTRL[3:0]` leaves the datapath at reset. -/
theorem blockInv_writeCtrl {s : State} {w : Word} (h : BlockInv s) (hlegal : legalCtrl w = true)
    (hrun : s.csr.status.fatal = false) : BlockInv (writeCtrl w s) := by
  have hmono : (ctrlOf w).stereoEn = true → (ctrlOf w).nch2 = true := by
    intro hst
    have hbit : w.getLsbD 0 = true := hst
    rw [legalCtrl, hbit] at hlegal
    exact hlegal
  have hstored : BlockInv { s with csr := { s.csr with ctrl := ctrlOf w } } := by
    have ⟨_, _, _, _, _, _, _, _, hchecked⟩ := h
    exact blockInv_withCsr h rfl ⟨hmono, fun hf => absurd (hrun.symm.trans hf) Bool.false_ne_true, hchecked⟩
  unfold writeCtrl
  split
  · exact hstored
  · exact blockInv_withDp hstored (invDatapath_of_dp_reset h.1 rfl)

theorem BlockInv.cap_le {s : State} (h : BlockInv s) : s.cfg.cap ≤ 2 ^ 24 := by
  obtain ⟨⟨⟨-, hcap, -⟩, -, -⟩, -⟩ := h
  exact hcap

theorem setWidth_toNat_of_lt {n : Nat} {w : Word} (h : w.toNat < 2 ^ n) : (w.setWidth n).toNat = w.toNat := by
  rw [BitVec.toNat_setWidth, Nat.mod_eq_of_lt h]

theorem blockInv_writeDelay {s : State} {w : Word} (h : BlockInv s) (hw : legalDelay s.cfg w = true) :
    BlockInv { s with csr := { s.csr with delay := w.setWidth 24 } } := by
  have hpos := h.cap_pos
  have hcap := h.cap_le
  have ⟨_, _, _, _, _, _, hmono, hhalt, hcause, _, hchecked⟩ := h
  have hw : w.toNat ≤ s.cfg.cap - 1 := of_decide_eq_true hw
  have hval : (w.setWidth 24).toNat = w.toNat := setWidth_toNat_of_lt (by omega)
  exact blockInv_withCsr h rfl ⟨hmono, hhalt, hcause, hval ▸ hw, hchecked⟩

theorem blockInv_writeChunk {s : State} {w : Word} (h : BlockInv s) (hw : legalChunk s.cfg w = true) :
    BlockInv { s with csr := { s.csr with chunk := w.setWidth 24 } } := by
  have hpos := h.cap_pos
  have hcap := h.cap_le
  have ⟨_, _, _, _, _, _, hmono, hhalt, hcause, hdelay, _, _, hchecked⟩ := h
  obtain ⟨hone, hmax⟩ : 1 ≤ w.toNat ∧ w.toNat ≤ s.cfg.cap - 1 := of_decide_eq_true hw
  have hval : (w.setWidth 24).toNat = w.toNat := setWidth_toNat_of_lt (by omega)
  exact blockInv_withCsr h rfl ⟨hmono, hhalt, hcause, hdelay, hval ▸ hone, hval ▸ hmax, hchecked⟩

/-- The three checked real-valued registers may be replaced by legal values. -/
theorem blockInv_writeReals {s : State} {ratio cps modIndex : F32} (h : BlockInv s) (hr : legalRatio ratio = true)
    (hc : cps = fZero ∨ legalCps cps = true) (hm : fFinite modIndex = true) :
    BlockInv { s with csr := { s.csr with ratio := ratio, cps := cps, modIndex := modIndex } } := by
  have ⟨_, _, _, _, _, _, hmono, hhalt, hcause, hdelay, hchunk, hchunkMax, _, _, _, hrest⟩ := h
  exact blockInv_withCsr h rfl ⟨hmono, hhalt, hcause, hdelay, hchunk, hchunkMax, hr, hc, hm, hrest⟩

/-- A write of `PAYLOAD_LEN` moves the cursor to 0, which is inside every payload of at least one byte. -/
theorem blockInv_writePayloadLen {s : State} {w : Word} (h : BlockInv s) (hw : legalPayloadLen s.cfg w = true) :
    BlockInv { s with csr := { s.csr with payloadLen := w.setWidth 17 }, dp := { s.dp with cursor := 0 } } := by
  obtain ⟨hlegal, hmem, hring, hcons, hmod, ⟨hphase, -, -, hhist⟩,
    ⟨hmono, hhalt, hcause, hdelay, hchunk, hchunkMax, hratio, hcps, hindex, -, hlatched⟩⟩ := h
  have ⟨⟨_, _, _, _, _, hpos, hmax, _⟩, _, _⟩ := hlegal
  have hw : w.toNat ≤ s.cfg.payloadMax := of_decide_eq_true hw
  have hval : (w.setWidth 17).toNat = w.toNat := setWidth_toNat_of_lt (by omega)
  exact ⟨hlegal, hmem, hring, hcons, hmod, ⟨hphase, by simp only; omega, fun hne => by simp only at hne ⊢; bv_omega, hhist⟩,
    ⟨hmono, hhalt, hcause, hdelay, hchunk, hchunkMax, hratio, hcps, hindex, hval ▸ hw, hlatched⟩⟩

/-- A byte written inside the payload memory. -/
theorem blockInv_writePayload {s : State} {i : Nat} (b : Byte) (h : BlockInv s) (hi : i < s.cfg.payloadMax) :
    BlockInv { s with payload := Memory.write 0x00#8 s.payload i b } := by
  obtain ⟨hlegal, ⟨hfifo, hfifoBelow, hbuf, hbufBelow, hslots, hslotsBelow, hpay, hpayBelow⟩, hrest⟩ := h
  exact ⟨hlegal, ⟨hfifo, hfifoBelow, hbuf, hbufBelow, hslots, hslotsBelow, Memory.wf_write i b hpay,
    Memory.below_write b hi hpayBelow⟩, hrest⟩

theorem blockInv_softReset {s : State} (h : BlockInv s) : BlockInv (softReset s) := blockInv_resetBlock h.1 h.dmaCur_lt

theorem blockInv_hardReset {s : State} (h : BlockInv s) : BlockInv (hardReset s) :=
  blockInv_resetBlock h.1 (Nat.zero_lt_of_lt h.dmaCur_lt)

theorem BlockInv.cps_legal {s : State} (h : BlockInv s) : s.csr.cps = fZero ∨ legalCps s.csr.cps = true := by
  obtain ⟨-, -, -, -, -, -, -, -, -, -, -, -, -, hcps, -⟩ := h
  exact hcps

theorem BlockInv.ratio_legal {s : State} (h : BlockInv s) : legalRatio s.csr.ratio = true := by
  obtain ⟨-, -, -, -, -, -, -, -, -, -, -, -, hratio, -⟩ := h
  exact hratio

theorem BlockInv.modIndex_finite {s : State} (h : BlockInv s) : fFinite s.csr.modIndex = true := by
  obtain ⟨-, -, -, -, -, -, -, -, -, -, -, -, -, -, hindex, -⟩ := h
  exact hindex

/-- An accepted register write; in a halted block only the soft reset is one (60_exceptions R389). -/
theorem blockInv_csrWrite {r : Csr} {w : Word} {s t : State} (h : BlockInv s)
    (hreset : s.csr.status.fatal = true → r = .ctrl ∧ w.getLsbD 31 = true) (hw : csrWrite r w s = .accepted t) :
    BlockInv t := by
  cases r <;> simp only [csrWrite] at hw
  case ctrl =>
    split at hw
    · cases hw; exact blockInv_softReset h
    · rename_i hbit
      obtain ⟨hlegal, -, rfl⟩ := checkedWrite_accepted hw
      exact blockInv_writeCtrl h hlegal (Bool.eq_false_iff.mpr fun hf => hbit (hreset hf).2)
  case delay => obtain ⟨hlegal, -, rfl⟩ := checkedWrite_accepted hw; exact blockInv_writeDelay h hlegal
  case chunk => obtain ⟨hlegal, -, rfl⟩ := checkedWrite_accepted hw; exact blockInv_writeChunk h hlegal
  case ratio =>
    obtain ⟨hlegal, -, rfl⟩ := rateWrite_accepted hw
    exact blockInv_writeReals h hlegal h.cps_legal h.modIndex_finite
  case cps =>
    obtain ⟨hlegal, -, rfl⟩ := checkedWrite_accepted hw
    exact blockInv_writeReals h h.ratio_legal (.inr hlegal) h.modIndex_finite
  case modIndex =>
    obtain ⟨hlegal, -, rfl⟩ := checkedWrite_accepted hw
    exact blockInv_writeReals h h.ratio_legal h.cps_legal hlegal
  case payloadLen => obtain ⟨hlegal, -, rfl⟩ := checkedWrite_accepted hw; exact blockInv_writePayloadLen h hlegal
  case payloadData =>
    obtain ⟨hlegal, -, rfl⟩ := checkedWrite_accepted hw
    exact blockInv_withFlags (blockInv_writePayload _ h (of_decide_eq_true hlegal)) rfl h.cause_zero_bits
  case srcRate =>
    obtain ⟨-, -, rfl⟩ := rateWrite_accepted hw
    exact blockInv_withFlags h rfl h.cause_zero_bits
  case cause => cases hw; exact blockInv_withFlags h rfl zero_cause_bits
  case status | irqEn | payloadAddr => cases hw; exact blockInv_withFlags h rfl h.cause_zero_bits
  all_goals cases hw; exact h

/-! ### Every operation, every fetch, every step -/

theorem execCsrRd_blockInv {off : BitVec 12} {s t : State} (h : BlockInv s) (he : execCsrRd off s = .next t) : BlockInv t := by
  obtain ⟨-, hx⟩ | ⟨-, hx⟩ := execCsrRd_cases off s <;> cases hx.symm.trans he
  · exact blockInv_refuse _ _ _ h
  · exact blockInv_respond _ _ _ (blockInv_csrReadEffect _ h)

theorem execCsrWr_blockInv {off : BitVec 12} {w : Word} {s t : State} (h : BlockInv s) (he : execCsrWr off w s = .next t) :
    BlockInv t := by
  obtain ⟨-, hx⟩ | ⟨-, -, -, hx⟩ | ⟨-, hreset, ⟨u, hu, hx⟩ | ⟨c, -, hx⟩ | ⟨c, -, hx⟩⟩ := execCsrWr_cases off w s <;>
    cases hx.symm.trans he
  · exact blockInv_refuse _ _ _ h
  · exact blockInv_refuse _ _ _ h
  · exact blockInv_respond _ _ _ (blockInv_csrWrite h (fun hf => isSoftReset_iff.mp (hreset hf)) hu)
  · exact blockInv_refuse _ _ _ h
  · exact blockInv_fatalStop _ _ _ h

theorem execPush_blockInv {n : Nat} {s t : State} (h : BlockInv s) (hn : n < 2 ^ 16) (he : execPush n s = .next t) :
    BlockInv t := by
  have hd := blockInv_dropPushWords n h
  obtain ⟨-, hx⟩ | ⟨-, ⟨-, hx⟩ | ⟨-, ⟨-, hx⟩ | ⟨-, ⟨-, hx⟩ | ⟨-, ⟨-, -, hx⟩ | ⟨-, ⟨-, hx⟩ | ⟨-, hx⟩⟩⟩⟩⟩⟩ :=
    execPush_cases n s <;> cases hx.symm.trans he
  · exact h
  · exact blockInv_refuse _ _ _ hd
  · exact blockInv_refuse _ _ _ hd
  · exact blockInv_refuse _ _ _ hd
  · exact blockInv_fatalStop _ _ _ hd
  · exact blockInv_pushBlock _ _ hd hn

theorem BlockInv.chunk_range {s : State} (h : BlockInv s) : 1 ≤ s.csr.chunk.toNat ∧ s.csr.chunk.toNat ≤ s.cfg.cap - 1 := by
  obtain ⟨-, -, -, -, -, -, -, -, -, -, hone, hmax, -⟩ := h
  exact ⟨hone, hmax⟩

theorem consEnabled_started {s : State} (h : consEnabled s = true) : s.started = true := by
  simp only [consEnabled, Bool.and_eq_true] at h
  obtain ⟨⟨-, hs⟩, -⟩ := h
  exact hs

theorem execConsRead_blockInv {s t : State} (h : BlockInv s) (he : execConsRead s = .next t) : BlockInv t := by
  obtain ⟨hone, hmax⟩ := h.chunk_range
  obtain ⟨-, hx⟩ | ⟨hen, ⟨-, hx⟩ | ⟨-, hx⟩⟩ := execConsRead_cases s <;> cases hx.symm.trans he
  · exact h
  · have hs := consEnabled_started hen
    exact blockInv_beginChunk (blockInv_ringRead h hmax hs) hone hmax hs
  · exact blockInv_beginChunk (blockInv_underrun _ h) hone hmax (consEnabled_started hen)

theorem execModStep_blockInv {s t : State} (h : BlockInv s) (he : execModStep s = .next t) : BlockInv t := by
  obtain ⟨-, hx⟩ | ⟨hen, ⟨-, hx⟩ | ⟨-, ⟨-, hx⟩ | ⟨-, hx⟩⟩⟩ := execModStep_cases s <;> cases hx.symm.trans he
  · exact h
  · exact blockInv_modCommit h hen

theorem execEncStep_blockInv {s t : State} (h : BlockInv s) (he : execEncStep s = .next t) : BlockInv t := by
  obtain ⟨-, hx⟩ | ⟨hact, ⟨-, hx⟩ | ⟨-, hx⟩⟩ := execEncStep_cases s <;> cases hx.symm.trans he
  · exact blockInv_setResult _ h
  · exact blockInv_setResult _ (blockInv_withDp h (invDatapath_encStep _ h (encActive_payloadLen hact)))

theorem execFifoWrite_blockInv {m : Nat} {s t : State} (h : BlockInv s) (he : execFifoWrite m s = .next t) : BlockInv t := by
  cases he
  have hw := blockInv_fifoWrite m (argList s m) h
  exact blockInv_withEnv hw hw.dmaCur_lt

theorem execRsmPush_blockInv {c : Chan} {s t : State} (h : BlockInv s) (he : execRsmPush c s = .next t) : BlockInv t := by
  have hhist := chanOf_hist h.invDatapath c
  have htaps := h.taps_pos
  have hkept : (rsmPush s.cfg s.csr.ratio (chanOf s.dp c) (arg s 0)).2.hist.length = s.cfg.taps := by
    rw [rsmPush_hist, rsmShift_length _ (by omega), hhist]
  cases he
  exact blockInv_setResult _ (blockInv_withDp h (invDatapath_setChan c h.invDatapath hkept))

/-- Every operation with operands that its word can hold keeps the invariants. -/
theorem exec_blockInv {i : Instr} {s t : State} (hi : i.WellFormed) (h : BlockInv s) (he : exec i s = .next t) : BlockInv t := by
  cases i with
  | csrRd off => exact execCsrRd_blockInv h he
  | csrWr off w => exact execCsrWr_blockInv h he
  | push n => exact execPush_blockInv h hi he
  | consRead => exact execConsRead_blockInv h he
  | modStep => exact execModStep_blockInv h he
  | preStep c =>
    cases he
    exact blockInv_setResult _ (blockInv_withDp h (invDatapath_setChan c h.invDatapath (chanOf_hist h.invDatapath c)))
  | rsmPush c => exact execRsmPush_blockInv h he
  | muxStep =>
    cases he
    have ⟨_, _, _, h0, h1⟩ := h.invDatapath
    exact blockInv_setResult _ (blockInv_withDp h (invDatapath_withChannels h.invDatapath h0 h1))
  | monoStep => cases he; exact blockInv_setResult _ h
  | encStep => exact execEncStep_blockInv h he
  | fifoWrite m => exact execFifoWrite_blockInv h he
  | startCheck => cases he; exact blockInv_setResult _ (blockInv_startCheck h)
  | dmaAdv => cases he; exact blockInv_withEnv h (Nat.mod_lt _ (Nat.zero_lt_of_lt h.dmaCur_lt))
  | hwReset => cases he; exact blockInv_hardReset h

theorem fetch_blockInv {s u : State} (h : BlockInv s) (hf : (fetch s).state? = some u) : BlockInv u := by
  rw [fetch_state hf]
  exact blockInv_withEnv h h.dmaCur_lt

theorem step_blockInv {s t : State} (h : BlockInv s) (hstep : step s = .next t) : BlockInv t := by
  obtain ⟨i, u, hf, he⟩ | ⟨p, w, u, hf, rfl⟩ | hf := step_next hstep
  · exact exec_blockInv (fetch_wellFormed hf) (fetch_blockInv h (by rw [hf]; rfl)) he
  · exact blockInv_illegalOp p w (fetch_blockInv h (by rw [hf]; rfl))
  · exact fetch_blockInv h (by rw [hf]; rfl)

/-- Settles O56: every fetch, every operation and every refusal keeps them. -/
theorem stepKeepsTheInvariants : Obligations.StepKeepsTheInvariants := by
  unfold Obligations.StepKeepsTheInvariants
  exact fun s t h hstep => step_blockInv h hstep

end Sys2Proof.Machine
end

section
/-! No step faults under the invariants (20_memory R101): every operation completes, and only a turn that names no step is
refused. -/

namespace Sys2Proof.Machine

/-- An active encoder is inside its precondition (10_state R64 item 5). -/
theorem encReady_of_blockInv {s : State} (h : BlockInv s) (hact : encActive s.csr = true) :
    encReady s.cfg s.csr s.dp = true := by
  obtain ⟨-, -, -, -, -, ⟨-, -, hcur, -⟩, ⟨-, -, -, -, -, -, -, -, -, hlen, -⟩⟩ := h
  exact decide_eq_true ⟨hlen, hcur (encActive_payloadLen hact)⟩

theorem encoderOk_of_blockInv {s : State} (h : BlockInv s) : encoderOk s = true := by
  unfold encoderOk
  cases hact : encActive s.csr
  · rfl
  · exact encReady_of_blockInv h hact

theorem execPush_completes {s : State} (n : Nat) (h : BlockInv s) : ∃ t, execPush n s = .next t := by
  obtain ⟨-, hx⟩ | ⟨-, ⟨-, hx⟩ | ⟨-, ⟨-, hx⟩ | ⟨-, ⟨-, hx⟩ | ⟨-, ⟨-, -, hx⟩ | ⟨-, ⟨hok, -⟩ | ⟨-, hx⟩⟩⟩⟩⟩⟩ :=
    execPush_cases n s
  case inr.inr.inr.inr.inr.inl => exact absurd (hok.symm.trans (encoderOk_of_blockInv h)) Bool.false_ne_true
  all_goals exact ⟨_, hx⟩

theorem execEncStep_completes {s : State} (h : BlockInv s) : ∃ t, execEncStep s = .next t := by
  obtain ⟨-, hx⟩ | ⟨hact, ⟨hready, -⟩ | ⟨-, hx⟩⟩ := execEncStep_cases s
  · exact ⟨_, hx⟩
  · exact absurd (hready.symm.trans (encReady_of_blockInv h hact)) Bool.false_ne_true
  · exact ⟨_, hx⟩

/-- The sample is inside the chunk buffer, and the slot inside the descriptor ring. -/
theorem execModStep_completes {s : State} (h : BlockInv s) : ∃ t, execModStep s = .next t := by
  obtain ⟨-, hx⟩ | ⟨hen, ⟨hbuf, -⟩ | ⟨-, ⟨hslot, -⟩ | ⟨-, hx⟩⟩⟩ := execModStep_cases s
  · exact ⟨_, hx⟩
  · have hfed := h.cidx_lt_clen (modEnabled_phase hen)
    obtain ⟨-, -, -, ⟨-, hclen, -⟩, -⟩ := h
    omega
  · have hfits := h.slot_fits
    omega
  · exact ⟨_, hx⟩

theorem execCsrRd_completes (off : BitVec 12) (s : State) : ∃ t, execCsrRd off s = .next t := by
  obtain ⟨-, hx⟩ | ⟨-, hx⟩ := execCsrRd_cases off s
  · exact ⟨_, hx⟩
  · exact ⟨_, hx⟩

theorem execCsrWr_completes (off : BitVec 12) (w : Word) (s : State) : ∃ t, execCsrWr off w s = .next t := by
  obtain ⟨-, hx⟩ | ⟨-, -, -, hx⟩ | ⟨-, -, ⟨u, -, hx⟩ | ⟨c, -, hx⟩ | ⟨c, -, hx⟩⟩ := execCsrWr_cases off w s
  all_goals exact ⟨_, hx⟩

theorem execConsRead_completes (s : State) : ∃ t, execConsRead s = .next t := by
  obtain ⟨-, hx⟩ | ⟨-, ⟨-, hx⟩ | ⟨-, hx⟩⟩ := execConsRead_cases s
  all_goals exact ⟨_, hx⟩

theorem exec_completes {s : State} (i : Instr) (h : BlockInv s) : ∃ t, exec i s = .next t := by
  cases i with
  | csrRd off => exact execCsrRd_completes off s
  | csrWr off w => exact execCsrWr_completes off w s
  | push n => exact execPush_completes n h
  | consRead => exact execConsRead_completes s
  | modStep => exact execModStep_completes h
  | encStep => exact execEncStep_completes h
  | preStep | rsmPush | muxStep | monoStep | fifoWrite | startCheck | dmaAdv | hwReset => exact ⟨_, rfl⟩

/-- A step from a state of the invariants goes on, or a turn named no step. -/
theorem step_completes {s : State} (h : BlockInv s) :
    (∃ t, step s = .next t) ∨ ∃ w, step s = .refused (.noSuchStep w) ∧ ∃ e, decodeInternal w = .error e := by
  cases hf : fetch s with
  | run i u =>
    rw [step_of_run hf]
    exact .inl (exec_completes i (fetch_blockInv h (by rw [hf]; rfl)))
  | illegal p w u => exact .inl ⟨_, step_of_illegal hf⟩
  | idle u => exact .inl ⟨_, step_of_idle hf⟩
  | noSuchStep w => exact .inr ⟨w, by rw [step, hf], fetch_noSuchStep hf⟩

/-- Settles O59: every outcome of a step under the invariants is one `step_completes` names. -/
theorem noStepFaultsUnderTheInvariants : Obligations.NoStepFaultsUnderTheInvariants := by
  unfold Obligations.NoStepFaultsUnderTheInvariants
  intro s h
  obtain ⟨t, ht⟩ | ⟨w, hw, he⟩ := step_completes h
  · exact ⟨fun f hf => (by cases ht.symm.trans hf), fun r hr => (by cases ht.symm.trans hr)⟩
  · refine ⟨fun f hf => (by cases hw.symm.trans hf), fun r hr => ?_⟩
    cases hw.symm.trans hr
    exact ⟨w, rfl, he⟩

end Sys2Proof.Machine
end

section
/-! The registers an update leaves, and the event counters (10_state R60): every operation but a reset leaves a counter or
counts one event. -/

namespace Sys2Proof.Machine

/-! ### The registers each update leaves -/

theorem recordRefusal_csr (c : Code) (n : Nat) (s : State) :
    (recordRefusal c n s).csr = { s.csr with
      status := (recordRefusal c n s).csr.status, cause := (recordRefusal c n s).csr.cause } := by
  unfold recordRefusal
  split <;> rfl

theorem csrReadEffect_csr (r : Csr) (s : State) :
    (csrReadEffect r s).csr = { s.csr with payloadAddr := (csrReadEffect r s).csr.payloadAddr } := by
  unfold csrReadEffect
  split <;> rfl

/-- Of a `PUSH` only a dropped block touches a register. -/
theorem pushBlock_csr (n : Nat) (ls rs : List F32) (s : State) :
    (pushBlock n ls rs s).csr = s.csr ∨ ∃ m, (pushBlock n ls rs s).csr = (overrun m s).csr := by
  simp only [pushBlock_eq, respond_csr, startCheck_csr]
  obtain ⟨-, hw⟩ | ⟨-, hw⟩ := fifoWrite_cases (cascade s ls rs).1.length (cascade s ls rs).1
    { s with dp := (cascade s ls rs).2, latchedN := n } <;> rw [hw]
  · exact .inl rfl
  · exact .inr ⟨(cascade s ls rs).1.length, by simp only [overrun_csr]⟩

/-! ### The event counters (10_state R60) -/

/-- An event counter left alone, or one event further and never past `0xFFFFFFFF`. -/
def CountsAtMostOne (n m : Word) : Prop := m = n ∨ m.toNat = min (n.toNat + 1) 0xFFFFFFFF

/-- Each of the three event counters counts at most one event. -/
def CountersFollow (c d : Csrs) : Prop :=
  CountsAtMostOne c.ovrCnt d.ovrCnt ∧ CountsAtMostOne c.unrCnt d.unrCnt ∧ CountsAtMostOne c.satCnt d.satCnt

theorem countsAtMostOne_satInc (n : Word) : CountsAtMostOne n (satInc n) := .inr (satInc_toNat n)

/-- Whatever the other registers do, counters that stay follow. -/
theorem countersFollow_of_eq {c d : Csrs} (ho : d.ovrCnt = c.ovrCnt) (hu : d.unrCnt = c.unrCnt) (hs : d.satCnt = c.satCnt) :
    CountersFollow c d := ⟨.inl ho, .inl hu, .inl hs⟩

theorem countersFollow_refl (c : Csrs) : CountersFollow c c := countersFollow_of_eq rfl rfl rfl

theorem refuse_countersFollow (p : Port) (c : Code) (n : Nat) (s : State) : CountersFollow s.csr (refuse p c n s).csr := by
  rw [refuse_csr, recordRefusal_csr]
  exact countersFollow_refl _

theorem fatalStop_countersFollow (p : Port) (c : Code) (n : Nat) (s : State) : CountersFollow s.csr (fatalStop p c n s).csr := by
  rw [fatalStop_csr]
  exact countersFollow_refl _

theorem overrun_countersFollow (m : Nat) (s : State) : CountersFollow s.csr (overrun m s).csr := by
  rw [overrun_csr]
  exact ⟨countsAtMostOne_satInc _, .inl rfl, .inl rfl⟩

theorem underrun_countersFollow (m : Nat) (s : State) : CountersFollow s.csr (underrun m s).csr :=
  ⟨.inl rfl, countsAtMostOne_satInc _, .inl rfl⟩

theorem modCommit_countersFollow (s : State) : CountersFollow s.csr (modCommit s).csr := by
  rw [modCommit_csr]
  split
  · exact countersFollow_refl _
  · exact ⟨.inl rfl, .inl rfl, countsAtMostOne_satInc _⟩

theorem pushBlock_countersFollow (n : Nat) (ls rs : List F32) (s : State) :
    CountersFollow s.csr (pushBlock n ls rs s).csr := by
  obtain hc | ⟨m, hc⟩ := pushBlock_csr n ls rs s <;> rw [hc]
  · exact countersFollow_refl _
  · exact overrun_countersFollow m s

theorem execCsrRd_countersFollow {off : BitVec 12} {s t : State} (h : execCsrRd off s = .next t) :
    CountersFollow s.csr t.csr := by
  obtain ⟨-, hx⟩ | ⟨-, hx⟩ := execCsrRd_cases off s <;> cases hx.symm.trans h
  · exact refuse_countersFollow _ _ _ s
  · rw [respond_csr, csrReadEffect_csr]
    exact countersFollow_refl _

theorem execCsrWr_countersFollow {off : BitVec 12} {w : Word} {s t : State} (h : execCsrWr off w s = .next t)
    (hr : isReset (.csrWr off w) = false) : CountersFollow s.csr t.csr := by
  obtain ⟨-, hx⟩ | ⟨-, -, -, hx⟩ | ⟨hal, -, ⟨u, hu, hx⟩ | ⟨c, -, hx⟩ | ⟨c, -, hx⟩⟩ := execCsrWr_cases off w s <;>
    cases hx.symm.trans h
  case inr.inr.inl =>
    rw [respond_csr]
    obtain ⟨hctrl, hbit, -⟩ | ⟨-, -, ho, hun, hs⟩ := csrWrite_accepted hu
    · have hreset : isReset (.csrWr off w) = true := by simp [isReset, isSoftReset, hal, hctrl, hbit]
      exact absurd (hr.symm.trans hreset) Bool.false_ne_true
    · exact countersFollow_of_eq ho hun hs
  case inr.inr.inr.inr => exact fatalStop_countersFollow _ _ _ s
  all_goals exact refuse_countersFollow _ _ _ s

theorem execPush_countersFollow {n : Nat} {s t : State} (h : execPush n s = .next t) : CountersFollow s.csr t.csr := by
  obtain ⟨-, hx⟩ | ⟨-, ⟨-, hx⟩ | ⟨-, ⟨-, hx⟩ | ⟨-, ⟨-, hx⟩ | ⟨-, ⟨-, -, hx⟩ | ⟨-, ⟨-, hx⟩ | ⟨-, hx⟩⟩⟩⟩⟩⟩ :=
    execPush_cases n s <;> cases hx.symm.trans h
  · exact countersFollow_refl _
  · exact refuse_countersFollow _ _ _ (dropPushWords s n)
  · exact refuse_countersFollow _ _ _ (dropPushWords s n)
  · exact refuse_countersFollow _ _ _ (dropPushWords s n)
  · exact fatalStop_countersFollow _ _ _ (dropPushWords s n)
  · exact pushBlock_countersFollow _ _ _ (dropPushWords s n)

theorem execConsRead_countersFollow {s t : State} (h : execConsRead s = .next t) : CountersFollow s.csr t.csr := by
  obtain ⟨-, hx⟩ | ⟨-, ⟨-, hx⟩ | ⟨-, hx⟩⟩ := execConsRead_cases s <;> cases hx.symm.trans h
  · exact countersFollow_refl _
  · exact countersFollow_refl _
  · exact underrun_countersFollow _ s

theorem execModStep_countersFollow {s t : State} (h : execModStep s = .next t) : CountersFollow s.csr t.csr := by
  obtain ⟨-, hx⟩ | ⟨-, ⟨-, hx⟩ | ⟨-, ⟨-, hx⟩ | ⟨-, hx⟩⟩⟩ := execModStep_cases s <;> cases hx.symm.trans h
  · exact countersFollow_refl _
  · exact modCommit_countersFollow s

theorem execEncStep_countersFollow {s t : State} (h : execEncStep s = .next t) : CountersFollow s.csr t.csr := by
  obtain ⟨-, hx⟩ | ⟨-, ⟨-, hx⟩ | ⟨-, hx⟩⟩ := execEncStep_cases s <;> cases hx.symm.trans h
  · exact countersFollow_refl _
  · exact countersFollow_refl _

theorem execFifoWrite_countersFollow {m : Nat} {s t : State} (h : execFifoWrite m s = .next t) : CountersFollow s.csr t.csr := by
  obtain ⟨-, hx⟩ | ⟨-, hx⟩ := execFifoWrite_cases m s <;> cases hx.symm.trans h
  · exact countersFollow_refl _
  · exact overrun_countersFollow m s

theorem exec_countersFollow {i : Instr} {s t : State} (h : exec i s = .next t) (hr : isReset i = false) :
    CountersFollow s.csr t.csr := by
  cases i with
  | csrRd off => exact execCsrRd_countersFollow h
  | csrWr off w => exact execCsrWr_countersFollow h hr
  | push n => exact execPush_countersFollow h
  | consRead => exact execConsRead_countersFollow h
  | modStep => exact execModStep_countersFollow h
  | encStep => exact execEncStep_countersFollow h
  | fifoWrite m => exact execFifoWrite_countersFollow h
  | startCheck =>
    cases h
    rw [setResult_csr, startCheck_csr]
    exact countersFollow_refl _
  | hwReset => cases hr
  | preStep | rsmPush | muxStep | monoStep | dmaAdv => cases h; exact countersFollow_refl _

/-- Settles O52: `exec_countersFollow`, whose three parts are the statement's. -/
theorem countersCountAndSaturate : Obligations.CountersCountAndSaturate := by
  unfold Obligations.CountersCountAndSaturate
  exact fun s t i h hr => exec_countersFollow h hr

end Sys2Proof.Machine
end

section
/-! Two channels stay in step (10_state R64 item 3, 42_resampler R225 item 5): both are given equally many frames, and a
change of their number leaves both at reset. -/

namespace Sys2Proof.Machine

/-- Whatever keeps both channels and their number keeps them in step. -/
theorem channelsInStep_of_frame {s t : State} (h : ChannelsInStep s) (h0 : t.dp.ch0 = s.dp.ch0) (h1 : t.dp.ch1 = s.dp.ch1)
    (hn : t.csr.ctrl.nch2 = s.csr.ctrl.nch2) : ChannelsInStep t := by
  intro htwo
  rw [h0, h1]
  exact h (hn.symm.trans htwo)

theorem refuse_channelsInStep {s : State} (p : Port) (c : Code) (n : Nat) (h : ChannelsInStep s) :
    ChannelsInStep (refuse p c n s) := by
  refine channelsInStep_of_frame h (by rw [refuse_dp]) (by rw [refuse_dp]) ?_
  rw [refuse_csr, recordRefusal_csr]

theorem fatalStop_channelsInStep {s : State} (p : Port) (c : Code) (n : Nat) (h : ChannelsInStep s) :
    ChannelsInStep (fatalStop p c n s) :=
  channelsInStep_of_frame h (by rw [fatalStop_dp]) (by rw [fatalStop_dp]) (by rw [fatalStop_csr]; rfl)

theorem respond_channelsInStep {s : State} (p : Port) (e : Bool) (d : Word) (h : ChannelsInStep s) :
    ChannelsInStep (respond p e d s) := by
  cases p <;> exact h

theorem channelsInStep_of_dp_reset {s : State} (hd : s.dp = Datapath.reset s.cfg) : ChannelsInStep s := by
  intro
  rw [hd]
  rfl

/-- A write of `CTRL` keeps the number of channels, or leaves both channels at reset. -/
theorem writeCtrl_channelsInStep {s : State} (w : Word) (h : ChannelsInStep s) : ChannelsInStep (writeCtrl w s) := by
  unfold writeCtrl
  split
  · rename_i hlow
    simp only [ctrlLow, Prod.mk.injEq] at hlow
    obtain ⟨-, -, -, hn⟩ := hlow
    exact channelsInStep_of_frame h rfl rfl hn
  · exact channelsInStep_of_dp_reset rfl

theorem csrWrite_channelsInStep {r : Csr} {w : Word} {s t : State} (h : ChannelsInStep s) (hw : csrWrite r w s = .accepted t) :
    ChannelsInStep t := by
  cases r <;> simp only [csrWrite] at hw
  case ctrl =>
    split at hw
    · cases hw; exact channelsInStep_of_dp_reset rfl
    · obtain ⟨-, -, rfl⟩ := checkedWrite_accepted hw; exact writeCtrl_channelsInStep w h
  case srcRate | ratio => obtain ⟨-, -, rfl⟩ := rateWrite_accepted hw; exact h
  case delay | chunk | cps | modIndex | payloadLen | payloadData => obtain ⟨-, -, rfl⟩ := checkedWrite_accepted hw; exact h
  all_goals cases hw; exact h

/-- Two channels with equal counters have equal counters after equally many frames. -/
theorem channelStage_counter (s : State) {a b : Channel} (ls rs : List F32) (hlen : ls.length = rs.length) (h : a.t = b.t) :
    (channelStage s a ls).2.t = (channelStage s b rs).2.t := by
  have hpre := mapState_related (f := preStep s.cfg s.csr.srcRate) (g := preStep s.cfg s.csr.srcRate)
    (fun c d => c.t = d.t) (fun _ _ _ _ hcd => hcd) a b ls rs hlen h
  simp only [channelStage_eq]
  split
  · exact mapState_related (f := rsmPush s.cfg s.csr.ratio) (g := rsmPush s.cfg s.csr.ratio) (fun c d => c.t = d.t)
      (fun c d x y hcd => rsmPush_counter _ _ c d x y hcd) _ _ _ _ (by rw [mapState_length, mapState_length, hlen]) hpre
  · exact hpre

@[simp] theorem compositeStage_ch0 (s : State) (dp : Datapath) (fs : List (F32 × F32)) :
    (compositeStage s dp fs).2.ch0 = dp.ch0 := by rw [compositeStage_dp]

@[simp] theorem compositeStage_ch1 (s : State) (dp : Datapath) (fs : List (F32 × F32)) :
    (compositeStage s dp fs).2.ch1 = dp.ch1 := by rw [compositeStage_dp]

@[simp] theorem encoderStage_ch0 (s : State) (dp : Datapath) (zs : List F32) : (encoderStage s dp zs).2.ch0 = dp.ch0 :=
  (encoderStage_dp s dp zs).1

@[simp] theorem encoderStage_ch1 (s : State) (dp : Datapath) (zs : List F32) : (encoderStage s dp zs).2.ch1 = dp.ch1 :=
  (encoderStage_dp s dp zs).2.1

theorem cascade_ch0 (s : State) (ls rs : List F32) : (cascade s ls rs).2.ch0 = (channelStage s s.dp.ch0 ls).2 := by
  simp [cascade_eq]

/-- With two channels, channel 1 goes through its own stage. -/
theorem cascade_ch1 (s : State) (ls rs : List F32) (h : s.csr.ctrl.nch2 = true) :
    (cascade s ls rs).2.ch1 = (channelStage s s.dp.ch1 rs).2 := by
  simp [cascade_eq, h]

@[simp] theorem fifoWrite_dp (m : Nat) (zs : List F32) (s : State) : (fifoWrite m zs s).1.dp = s.dp := by
  obtain ⟨-, hw⟩ | ⟨-, hw⟩ := fifoWrite_cases m zs s <;> simp [hw]

theorem pushBlock_dp (n : Nat) (ls rs : List F32) (s : State) : (pushBlock n ls rs s).dp = (cascade s ls rs).2 := by
  simp [pushBlock_eq]

theorem pushBlock_ctrl (n : Nat) (ls rs : List F32) (s : State) : (pushBlock n ls rs s).csr.ctrl = s.csr.ctrl := by
  obtain hc | ⟨m, hc⟩ := pushBlock_csr n ls rs s <;> rw [hc]
  rw [overrun_csr]

/-- Both channels of a block take equally many frames, so their counters stay equal. -/
theorem pushBlock_channelsInStep {s : State} (n : Nat) {ls rs : List F32} (h : ChannelsInStep s)
    (hlen : s.csr.ctrl.nch2 = true → ls.length = rs.length) : ChannelsInStep (pushBlock n ls rs s) := by
  intro htwo
  rw [pushBlock_ctrl] at htwo
  rw [pushBlock_dp, cascade_ch0, cascade_ch1 s ls rs htwo]
  exact channelStage_counter s ls rs (hlen htwo) (h htwo)

/-- The data words of a `PUSH` on two channels fall into halves of `N` samples (30_encoding R145). -/
theorem pushLeft_length_eq_pushRight {s : State} {n : Nat} (hwords : pushWords s n ≤ s.env.audIn.length)
    (htwo : s.csr.ctrl.nch2 = true) : (pushLeft s n).length = (pushRight s n).length := by
  have hpw : pushWords s n = n * 2 := by rw [pushWords, channels, if_pos htwo]
  rw [pushLeft, pushRight, List.length_take, List.length_drop, List.length_take]
  omega

theorem execCsrRd_channelsInStep {off : BitVec 12} {s t : State} (h : ChannelsInStep s) (he : execCsrRd off s = .next t) :
    ChannelsInStep t := by
  obtain ⟨-, hx⟩ | ⟨-, hx⟩ := execCsrRd_cases off s <;> cases hx.symm.trans he
  · exact refuse_channelsInStep _ _ _ h
  · refine respond_channelsInStep _ _ _ (channelsInStep_of_frame h (by rw [csrReadEffect_dp]) (by rw [csrReadEffect_dp]) ?_)
    rw [csrReadEffect_csr]

theorem execCsrWr_channelsInStep {off : BitVec 12} {w : Word} {s t : State} (h : ChannelsInStep s)
    (he : execCsrWr off w s = .next t) : ChannelsInStep t := by
  obtain ⟨-, hx⟩ | ⟨-, -, -, hx⟩ | ⟨-, -, ⟨u, hu, hx⟩ | ⟨c, -, hx⟩ | ⟨c, -, hx⟩⟩ := execCsrWr_cases off w s <;>
    cases hx.symm.trans he
  · exact refuse_channelsInStep _ _ _ h
  · exact refuse_channelsInStep _ _ _ h
  · exact respond_channelsInStep _ _ _ (csrWrite_channelsInStep h hu)
  · exact refuse_channelsInStep _ _ _ h
  · exact fatalStop_channelsInStep _ _ _ h

theorem execPush_channelsInStep {n : Nat} {s t : State} (h : ChannelsInStep s) (he : execPush n s = .next t) :
    ChannelsInStep t := by
  have hd : ChannelsInStep (dropPushWords s n) := h
  obtain ⟨-, hx⟩ | ⟨hwords, ⟨-, hx⟩ | ⟨-, ⟨-, hx⟩ | ⟨-, ⟨-, hx⟩ | ⟨-, ⟨-, -, hx⟩ | ⟨-, ⟨-, hx⟩ | ⟨-, hx⟩⟩⟩⟩⟩⟩ :=
    execPush_cases n s <;> cases hx.symm.trans he
  · exact h
  · exact refuse_channelsInStep _ _ _ hd
  · exact refuse_channelsInStep _ _ _ hd
  · exact refuse_channelsInStep _ _ _ hd
  · exact fatalStop_channelsInStep _ _ _ hd
  · exact pushBlock_channelsInStep n hd (pushLeft_length_eq_pushRight hwords)

theorem execConsRead_channelsInStep {s t : State} (h : ChannelsInStep s) (he : execConsRead s = .next t) :
    ChannelsInStep t := by
  obtain ⟨-, hx⟩ | ⟨-, ⟨-, hx⟩ | ⟨-, hx⟩⟩ := execConsRead_cases s <;> cases hx.symm.trans he
  all_goals exact h

theorem modCommit_ctrl (s : State) : (modCommit s).csr.ctrl = s.csr.ctrl := by
  rw [modCommit_csr]
  split <;> rfl

theorem execModStep_channelsInStep {s t : State} (h : ChannelsInStep s) (he : execModStep s = .next t) : ChannelsInStep t := by
  obtain ⟨-, hx⟩ | ⟨-, ⟨-, hx⟩ | ⟨-, ⟨-, hx⟩ | ⟨-, hx⟩⟩⟩ := execModStep_cases s <;> cases hx.symm.trans he
  · exact h
  · exact channelsInStep_of_frame h (by rw [modCommit_dp]) (by rw [modCommit_dp]) (by rw [modCommit_ctrl])

theorem exec_channelsInStep {i : Instr} {s t : State} (hi : isDatapath i = false) (h : ChannelsInStep s)
    (he : exec i s = .next t) : ChannelsInStep t := by
  cases i with
  | csrRd off => exact execCsrRd_channelsInStep h he
  | csrWr off w => exact execCsrWr_channelsInStep h he
  | push n => exact execPush_channelsInStep h he
  | consRead => exact execConsRead_channelsInStep h he
  | modStep => exact execModStep_channelsInStep h he
  | dmaAdv => cases he; exact h
  | hwReset => cases he; exact channelsInStep_of_dp_reset rfl
  | preStep | rsmPush | muxStep | monoStep | encStep | fifoWrite | startCheck => cases hi

theorem fetch_channelsInStep {s u : State} (h : ChannelsInStep s) (hf : (fetch s).state? = some u) : ChannelsInStep u := by
  rw [fetch_state hf]
  exact h

/-- Settles O57: an agent's turn fetches no class-9 operation, and every other operation keeps the channels in step. -/
theorem stepKeepsTheChannelsInStep : Obligations.StepKeepsTheChannelsInStep := by
  unfold Obligations.StepKeepsTheChannelsInStep
  intro s t h ha hstep
  obtain ⟨i, u, hf, he⟩ | ⟨p, w, u, hf, rfl⟩ | hf := step_next hstep
  · exact exec_channelsInStep (fetch_agentTurn ha hf) (fetch_channelsInStep h (by rw [hf]; rfl)) he
  · exact refuse_channelsInStep _ _ _ (fetch_channelsInStep h (by rw [hf]; rfl))
  · exact fetch_channelsInStep h (by rw [hf]; rfl)

end Sys2Proof.Machine
end

section
/-! Reads of `PAYLOAD_DATA` (10_state R58). -/

namespace Sys2Proof.Machine

/-- Settles O35, by whether the pointer is inside the memory; a byte as a word is its value. -/
theorem payloadReadsAdvanceThePointer : Obligations.PayloadReadsAdvanceThePointer := by
  unfold Obligations.PayloadReadsAdvanceThePointer
  intro s
  have hread : exec (.csrRd 0x03C#12) s =
      .next (respond .control false (csrValue .payloadData s) (csrReadEffect .payloadData s)) := rfl
  rw [hread]
  split
  · rename_i hin
    simp only [csrValue, csrReadEffect, hin, and_self, if_true, BitVec.ofNat_toNat]
  · rename_i hout
    simp only [csrValue, csrReadEffect, hout, and_false, if_false]

end Sys2Proof.Machine
end

section
/-! The fields of an operation word, and what the two ports make of the word of an operation of theirs (30_encoding R142 to
R150). -/

namespace Sys2Proof

/-- No field of an operation word runs into another. -/
theorem opWord_toNat {cls op arg : Nat} (hc : cls < 2 ^ 4) (ho : op < 2 ^ 4) (ha : arg < 2 ^ 24) :
    (opWord cls op arg).toNat = cls * 2 ^ 28 + op * 2 ^ 24 + arg := by
  rw [opWord, BitVec.toNat_ofNat]
  exact Nat.mod_eq_of_lt (by omega)

theorem classOf_opWord {cls op arg : Nat} (hc : cls < 2 ^ 4) (ho : op < 2 ^ 4) (ha : arg < 2 ^ 24) :
    classOf (opWord cls op arg) = cls := by
  rw [classOf, field, opWord_toNat hc ho ha]
  omega

theorem opOf_opWord {cls op arg : Nat} (hc : cls < 2 ^ 4) (ho : op < 2 ^ 4) (ha : arg < 2 ^ 24) :
    opOf (opWord cls op arg) = op := by
  rw [opOf, field, opWord_toNat hc ho ha]
  omega

/-- A field inside `ARG` is that field of the argument. -/
theorem field_opWord {cls op arg hi lo : Nat} (hc : cls < 2 ^ 4) (ho : op < 2 ^ 4) (ha : arg < 2 ^ 24) (hlo : lo ≤ hi)
    (hhi : hi < 24) : field (opWord cls op arg) hi lo = arg / 2 ^ lo % 2 ^ (hi - lo + 1) := by
  have hsplit : 2 ^ 24 = 2 ^ lo * (2 ^ (hi - lo + 1) * 2 ^ (23 - hi)) := by
    rw [← pow_add, ← pow_add]
    congr 1
    omega
  have hword : cls * 2 ^ 28 + op * 2 ^ 24 + arg
      = arg + 2 ^ lo * (2 ^ (hi - lo + 1) * (2 ^ (23 - hi) * (cls * 2 ^ 4 + op))) := by
    linear_combination (cls * 2 ^ 4 + op) * hsplit
  rw [field, opWord_toNat hc ho ha, hword, Nat.add_mul_div_left _ _ (Nat.two_pow_pos lo), Nat.add_mul_mod_self_left]

theorem decodePort_control_csrRd (off : BitVec 12) : decodePort .control (opWord 0x1 0x0 off.toNat) = .csrRd off := by
  have hoff := off.isLt
  simp (disch := omega) [decodePort, classOf_opWord, opOf_opWord, field_opWord, Nat.div_eq_of_lt, Nat.mod_eq_of_lt]

theorem decodePort_control_csrWr (off : BitVec 12) : decodePort .control (opWord 0x1 0x1 off.toNat) = .csrWr off := by
  have hoff := off.isLt
  simp (disch := omega) [decodePort, classOf_opWord, opOf_opWord, field_opWord, Nat.div_eq_of_lt, Nat.mod_eq_of_lt]

theorem decodePort_audio_opWord {n : Nat} (hn : n < 2 ^ 16) : decodePort .audio (opWord 0x2 0x0 n) = .push n := by
  simp (disch := omega) [decodePort, classOf_opWord, opOf_opWord, field_opWord, Nat.div_eq_of_lt, Nat.mod_eq_of_lt]

end Sys2Proof
end

section
/-! Taking the next operation of the total order (20_memory R112): whose turn it is, and what that agent fetches. -/

namespace Sys2Proof.Machine

/-! ### Whose turn it is -/

theorem fetch_of_no_turn {s : State} (h : s.env.sched = []) : fetch s = fetchInternal (consumerWord s) s := by
  simp only [fetch, h]

theorem fetch_of_control {s : State} {turns : List Turn} (h : s.env.sched = .control :: turns) :
    fetch s = fetchControl { s with env := { s.env with sched := turns } } := by
  simp only [fetch, h]

theorem fetch_of_audio {s : State} {turns : List Turn} (h : s.env.sched = .audio :: turns) :
    fetch s = fetchAudio { s with env := { s.env with sched := turns } } := by
  simp only [fetch, h]

theorem fetch_of_internal {s : State} {w : Word} {turns : List Turn} (h : s.env.sched = .internal w :: turns) :
    fetch s = fetchInternal w { s with env := { s.env with sched := turns } } := by
  simp only [fetch, h]

/-! ### What the agent fetches -/

theorem fetchControl_csrRd {s : State} {off : BitVec 12} {rest : List Word} (h : s.env.ctlIn = encode (.csrRd off) ++ rest) :
    fetchControl s = .run (.csrRd off) { s with env := { s.env with ctlIn := rest } } := by
  simp only [fetchControl, h, encode, List.cons_append, List.nil_append, decodePort_control_csrRd]

theorem fetchControl_csrWr {s : State} {off : BitVec 12} {d : Word} {rest : List Word}
    (h : s.env.ctlIn = encode (.csrWr off d) ++ rest) :
    fetchControl s = .run (.csrWr off d) { s with env := { s.env with ctlIn := rest } } := by
  simp only [fetchControl, h, encode, List.cons_append, List.nil_append, decodePort_control_csrWr]

/-- A `PUSH` is fetched once all its data words are on the port, and leaves them there. -/
theorem fetchAudio_push {s : State} {n : Nat} {rest : List Word} (hn : n < 2 ^ 16) (h : s.env.audIn = encode (.push n) ++ rest)
    (hwords : pushWords s n ≤ rest.length) :
    fetchAudio s = .run (.push n) { s with env := { s.env with audIn := rest } } := by
  simp only [fetchAudio, h, encode, List.cons_append, List.nil_append, decodePort_audio_opWord hn, Nat.not_lt.mpr hwords,
    if_false]

theorem fetchInternal_of_ok {w : Word} {i : Instr} (s : State) (h : decodeInternal w = .ok i) : fetchInternal w s = .run i s := by
  simp only [fetchInternal, h]

/-- The consumer sequencer's word names the step of its phase (45_fifo R288). -/
theorem decodeInternal_consumerWord (s : State) :
    decodeInternal (consumerWord s) = .ok (if s.cons.phase = .idle then .consRead else .modStep) := by
  unfold consumerWord
  cases s.cons.phase <;> rfl

/-- Settles O6, agent by agent: whose turn it is, what that agent fetches, and that a step performs it. -/
theorem stepRunsTheDecodedOperation : Obligations.StepRunsTheDecodedOperation := by
  unfold Obligations.StepRunsTheDecodedOperation
  intro s turns
  refine ⟨?csrRd, ?csrWr, ?push, ?internal, ?consumer⟩
  case csrRd =>
    intro off rest hturn hin
    exact step_of_run ((fetch_of_control hturn).trans (fetchControl_csrRd hin))
  case csrWr =>
    intro off d rest hturn hin
    exact step_of_run ((fetch_of_control hturn).trans (fetchControl_csrWr hin))
  case push =>
    intro n rest hn hturn hin hwords
    exact step_of_run ((fetch_of_audio hturn).trans (fetchAudio_push hn hin hwords))
  case internal =>
    intro i w hi hturn
    exact step_of_run ((fetch_of_internal hturn).trans (fetchInternal_of_ok _ hi))
  case consumer =>
    intro hturn
    exact step_of_run ((fetch_of_no_turn hturn).trans (fetchInternal_of_ok s (decodeInternal_consumerWord s)))

end Sys2Proof.Machine
end

section
/-! Misaligned register accesses (20_memory R107). -/

namespace Sys2Proof.Machine

/-- The whole of a refusal on the control port (60_exceptions R381, R388). -/
theorem refuse_control_eq (c : Code) {n : Nat} (s : State) (hn : n < 2 ^ 16) :
    refuse .control c n s =
      { s with
        csr := if s.csr.status.fatal then s.csr
          else { s.csr with
            status := { s.csr.status with cfgErr := true }
            cause := BitVec.ofNat 32 (n * 2 ^ 16 + codeNum c) }
        env := { s.env with ctlOut := some ⟨true, codeWord c⟩ } } := by
  rw [refuse, recordRefusal_eq, causeWord_eq c n hn]
  rfl

theorem aligned_eq_false {off : BitVec 12} (h : off.toNat % 4 ≠ 0) : aligned off = false := by
  simpa [aligned] using h

theorem execCsrRd_misaligned {off : BitVec 12} (s : State) (h : aligned off = false) :
    execCsrRd off s = .next (refuse .control .busMisaligned off.toNat s) := by
  simp [execCsrRd, h]

theorem execCsrWr_misaligned {off : BitVec 12} (w : Word) (s : State) (h : aligned off = false) :
    execCsrWr off w s = .next (refuse .control .busMisaligned off.toNat s) := by
  simp [execCsrWr, h]

/-- Settles O36: the check of the offset comes first in both accesses, and a refusal is what it says. -/
theorem misalignedAccessesAreRefused : Obligations.MisalignedAccessesAreRefused := by
  unfold Obligations.MisalignedAccessesAreRefused
  intro s off w hoff
  have hrefusal := refuse_control_eq .busMisaligned s (show off.toNat < 2 ^ 16 by omega)
  have haligned := aligned_eq_false hoff
  exact ⟨(execCsrRd_misaligned s haligned).trans (congrArg Host.Outcome.next hrefusal),
    (execCsrWr_misaligned w s haligned).trans (congrArg Host.Outcome.next hrefusal)⟩

end Sys2Proof.Machine
end

section
/-! A word is its three fields (30_encoding R142), and what it takes to be the word of an operation. -/

namespace Sys2Proof

/-- A field is the bits between its ends (00_scope R10). -/
theorem field_eq_toNat_extractLsb' (w : Word) (hi lo : Nat) : field w hi lo = (w.extractLsb' lo (hi - lo + 1)).toNat := by
  rw [field, BitVec.extractLsb'_toNat, Nat.shiftRight_eq_div_pow]

/-- A word with a given class, operation and argument is the operation word of the three. -/
theorem opWord_of_fields {w : Word} {cls op arg : Nat} (hc : classOf w = cls) (ho : opOf w = op) (ha : argOf w = arg) :
    opWord cls op arg = w := by
  subst hc ho ha
  apply BitVec.eq_of_toNat_eq
  have hw := w.isLt
  have hcls : classOf w < 2 ^ 4 := Nat.mod_lt _ (Nat.two_pow_pos 4)
  have hop : opOf w < 2 ^ 4 := Nat.mod_lt _ (Nat.two_pow_pos 4)
  have harg : argOf w < 2 ^ 24 := Nat.mod_lt _ (Nat.two_pow_pos 24)
  rw [opWord_toNat hcls hop harg, classOf, opOf, argOf, field, field, field]
  omega

theorem argOf_opWord {cls op arg : Nat} (hc : cls < 2 ^ 4) (ho : op < 2 ^ 4) (ha : arg < 2 ^ 24) :
    argOf (opWord cls op arg) = arg := by
  rw [argOf, field_opWord hc ho ha (Nat.zero_le _) (by decide), Nat.pow_zero, Nat.div_one, Nat.mod_eq_of_lt ha]

/-- With the reserved bits of `CSR_RD` and `CSR_WR` zero, `ARG` is the offset (R144). -/
theorem argOf_of_offset_reserved {w : Word} (h : field w 23 12 = 0) : argOf w = (BitVec.ofNat 12 (field w 11 0)).toNat := by
  rw [BitVec.toNat_ofNat]
  unfold argOf field at *
  omega

/-- With the reserved bits of `PUSH` zero, `ARG` is the number of frames (R145). -/
theorem argOf_of_length_reserved {w : Word} (h : field w 23 16 = 0) : argOf w = field w 15 0 := by
  unfold argOf field at *
  omega

/-- With the reserved bits of `PRE_STEP` and `RSM_PUSH` zero, `ARG` is the number of the channel (R147). -/
theorem argOf_of_channel_reserved {w : Word} (h : field w 23 1 = 0) :
    argOf w = (if field w 0 0 = 0 then Chan.ch0 else Chan.ch1).toNat := by
  unfold argOf field at *
  split
  · rw [Chan.toNat]; omega
  · rw [Chan.toNat]; omega

end Sys2Proof
end

section
/-! Decoding the words of an operation (30_encoding R144 to R149). -/

namespace Sys2Proof

/-! ### Which decoder reads a word -/

theorem decode_of_class_one {w : Word} (rest : List Word) (h : classOf w = 0x1) :
    decode (w :: rest) = fromVerdict w rest (decodePort .control w) := by
  simp only [decode, h, if_true]

theorem decode_of_class_two {w : Word} (rest : List Word) (h : classOf w = 0x2) :
    decode (w :: rest) = fromVerdict w rest (decodePort .audio w) := by
  simp [decode, h]

theorem decode_of_internal {w : Word} {i : Instr} (rest : List Word) (h1 : classOf w ≠ 0x1) (h2 : classOf w ≠ 0x2)
    (h : decodeInternal w = .ok i) : decode (w :: rest) = .ok (i, rest) := by
  simp only [decode, h1, h2, h, if_false, Except.map]

/-! ### The words of the operations -/

theorem decode_encode_csrRd (off : BitVec 12) (rest : List Word) :
    decode (encode (.csrRd off) ++ rest) = .ok (.csrRd off, rest) := by
  have hoff := off.isLt
  rw [encode, List.singleton_append, decode_of_class_one rest (classOf_opWord (by decide) (by decide) (by omega)),
    decodePort_control_csrRd, fromVerdict]

theorem decode_encode_csrWr (off : BitVec 12) (d : Word) (rest : List Word) :
    decode (encode (.csrWr off d) ++ rest) = .ok (.csrWr off d, rest) := by
  have hoff := off.isLt
  rw [encode, List.cons_append, List.singleton_append,
    decode_of_class_one (d :: rest) (classOf_opWord (by decide) (by decide) (by omega)), decodePort_control_csrWr, fromVerdict]

theorem decode_encode_push {n : Nat} (hn : n < 2 ^ 16) (rest : List Word) :
    decode (encode (.push n) ++ rest) = .ok (.push n, rest) := by
  rw [encode, List.singleton_append, decode_of_class_two rest (classOf_opWord (by decide) (by decide) (by omega)),
    decodePort_audio_opWord hn, fromVerdict]

theorem decodeInternal_fifoWrite {m : Nat} (hm : m < 2 ^ 24) : decodeInternal (opWord 0x9 0x5 m) = .ok (.fifoWrite m) := by
  simp (disch := omega) [decodeInternal, classOf_opWord, opOf_opWord, argOf_opWord]

theorem decode_encode_fifoWrite {m : Nat} (hm : m < 2 ^ 24) (rest : List Word) :
    decode (encode (.fifoWrite m) ++ rest) = .ok (.fifoWrite m, rest) := by
  have hclass : classOf (opWord 0x9 0x5 m) = 0x9 := classOf_opWord (by decide) (by decide) hm
  exact decode_of_internal rest (by omega) (by omega) (decodeInternal_fifoWrite hm)

/-- Settles O1, operation by operation: an operation with an operand by the fields of its word, the others by their one word. -/
theorem encodedOperationsDecode : Obligations.EncodedOperationsDecode := by
  unfold Obligations.EncodedOperationsDecode
  intro i rest hwf
  cases i with
  | csrRd off => exact decode_encode_csrRd off rest
  | csrWr off d => exact decode_encode_csrWr off d rest
  | push n => exact decode_encode_push hwf rest
  | fifoWrite m => exact decode_encode_fifoWrite hwf rest
  | preStep c | rsmPush c => cases c <;> exact decode_of_internal rest (by decide) (by decide) rfl
  | consRead | modStep | muxStep | monoStep | encStep | startCheck | dmaAdv | hwReset =>
    exact decode_of_internal rest (by decide) (by decide) rfl

end Sys2Proof
end

section
/-! The words that decode to an operation (30_encoding R149 to R151): no other word is read as it. -/

namespace Sys2Proof

open Machine

/-! ### The words that name a step (R146 to R148) -/

/-- A step without an operand is named by the one word with `ARG` zero. -/
theorem encode_of_plain {w : Word} {i j : Instr} {e : Reject} {cls op : Nat} (hc : classOf w = cls) (ho : opOf w = op)
    (hi : encode i = [opWord cls op 0]) (h : (if argOf w = 0 then Except.ok i else .error e) = .ok j) : encode j = [w] := by
  split at h
  next ha => cases h; rw [hi, opWord_of_fields hc ho ha]
  next => cases h

/-- A step of one channel is named by the word with the channel in `ARG[0]` and the other bits of `ARG` zero. -/
theorem encode_of_perChan {w : Word} {f : Chan → Instr} {j : Instr} {e : Reject} {cls op : Nat} (hc : classOf w = cls)
    (ho : opOf w = op) (hf : ∀ c, encode (f c) = [opWord cls op c.toNat])
    (h : (if field w 23 1 ≠ 0 then .error e else Except.ok (f (if field w 0 0 = 0 then .ch0 else .ch1))) = .ok j) :
    encode j = [w] := by
  split at h
  next => cases h
  next ha => cases h; rw [hf, opWord_of_fields hc ho (argOf_of_channel_reserved (not_not.mp ha))]

/-- The word that names a step is the step's own. -/
theorem encode_of_decodeInternal {w : Word} {i : Instr} (h : decodeInternal w = .ok i) : encode i = [w] := by
  unfold decodeInternal at h
  obtain ⟨hc, h⟩ | ⟨-, h⟩ := ite_eq_iff.mp h
  · obtain ⟨ho, h⟩ | ⟨-, h⟩ := ite_eq_iff.mp h
    · exact encode_of_plain hc ho rfl h
    obtain ⟨ho, h⟩ | ⟨-, h⟩ := ite_eq_iff.mp h
    · exact encode_of_plain hc ho rfl h
    · cases h
  obtain ⟨hc, h⟩ | ⟨-, h⟩ := ite_eq_iff.mp h
  · obtain ⟨ho, h⟩ | ⟨-, h⟩ := ite_eq_iff.mp h
    · exact encode_of_perChan hc ho (fun _ => rfl) h
    obtain ⟨ho, h⟩ | ⟨-, h⟩ := ite_eq_iff.mp h
    · exact encode_of_perChan hc ho (fun _ => rfl) h
    obtain ⟨ho, h⟩ | ⟨-, h⟩ := ite_eq_iff.mp h
    · exact encode_of_plain hc ho rfl h
    obtain ⟨ho, h⟩ | ⟨-, h⟩ := ite_eq_iff.mp h
    · exact encode_of_plain hc ho rfl h
    obtain ⟨ho, h⟩ | ⟨-, h⟩ := ite_eq_iff.mp h
    · exact encode_of_plain hc ho rfl h
    obtain ⟨ho, h⟩ | ⟨-, h⟩ := ite_eq_iff.mp h
    · cases h; rw [encode, opWord_of_fields hc ho rfl]
    obtain ⟨ho, h⟩ | ⟨-, h⟩ := ite_eq_iff.mp h
    · exact encode_of_plain hc ho rfl h
    · cases h
  obtain ⟨hc, h⟩ | ⟨-, h⟩ := ite_eq_iff.mp h
  · obtain ⟨ho, h⟩ | ⟨-, h⟩ := ite_eq_iff.mp h
    · exact encode_of_plain hc ho rfl h
    obtain ⟨ho, h⟩ | ⟨-, h⟩ := ite_eq_iff.mp h
    · exact encode_of_plain hc ho rfl h
    · cases h
  · cases h

theorem decodeInternal_wellFormed {w : Word} {i : Instr} (h : decodeInternal w = .ok i) : i.WellFormed := by
  obtain ⟨-, rfl | rfl⟩ | ⟨-, -, hwf⟩ | ⟨-, rfl | rfl⟩ := decodeInternal_ok h
  case inr.inl => exact hwf
  all_goals trivial

/-! ### The words of the ports (R144, R145) -/

/-- The word of the operation that a port's verdict names; an `ILLEGAL` word names none. -/
def Verdict.word? : Verdict → Option Word
  | .csrRd off => some (opWord 0x1 0x0 off.toNat)
  | .csrWr off => some (opWord 0x1 0x1 off.toNat)
  | .push n => some (opWord 0x2 0x0 n)
  | .illegal _ => none

/-- The word that names a port's operation is the operation's own. -/
theorem word_of_decodePort {p : Port} {w v : Word} (h : (decodePort p w).word? = some v) : v = w := by
  cases p with
  | control =>
    unfold decodePort at h
    dsimp only at h
    split_ifs at h with hrd hres hwr hres
    · cases h
    · cases h; exact opWord_of_fields hrd.1 hrd.2 (argOf_of_offset_reserved (not_not.mp hres))
    · cases h
    · cases h; exact opWord_of_fields hwr.1 hwr.2 (argOf_of_offset_reserved (not_not.mp hres))
    · cases h
  | audio =>
    unfold decodePort at h
    dsimp only at h
    split_ifs at h with hpush hres
    · cases h
    · cases h; exact opWord_of_fields hpush.1 hpush.2 (argOf_of_length_reserved (not_not.mp hres))
    · cases h

theorem decodePort_push_lt {p : Port} {w : Word} {n : Nat} (h : decodePort p w = .push n) : n < 2 ^ 16 := by
  cases p with
  | control =>
    unfold decodePort at h
    dsimp only at h
    split_ifs at h
  | audio => exact decodePort_audio_push h

/-- The operation a verdict stands for has the verdict's word, and takes the data word of a `CSR_WR` with it. -/
theorem encode_of_fromVerdict {w : Word} {tail rest : List Word} {v : Verdict} {i : Instr}
    (hfits : ∀ n, v = .push n → n < 2 ^ 16) (h : fromVerdict w tail v = .ok (i, rest)) :
    i.WellFormed ∧ ∃ u, v.word? = some u ∧ encode i ++ rest = u :: tail := by
  cases v with
  | csrRd off => cases h; exact ⟨trivial, _, rfl, rfl⟩
  | csrWr off =>
    cases tail with
    | nil => cases h
    | cons d tail => cases h; exact ⟨trivial, _, rfl, rfl⟩
  | push n => cases h; exact ⟨hfits n rfl, _, rfl, rfl⟩
  | illegal k => cases k <;> cases h

/-- What a port reads as an operation is the operation's own words. -/
theorem encode_of_port {p : Port} {w : Word} {tail rest : List Word} {i : Instr}
    (h : fromVerdict w tail (decodePort p w) = .ok (i, rest)) : i.WellFormed ∧ encode i ++ rest = w :: tail := by
  obtain ⟨hwf, u, hu, hwords⟩ := encode_of_fromVerdict (fun _ => decodePort_push_lt) h
  exact ⟨hwf, word_of_decodePort hu ▸ hwords⟩

/-- Settles O2, by who reads the first word: a port (`encode_of_port`), or no port (`encode_of_decodeInternal`). -/
theorem decodedWordsAreTheirEncoding : Obligations.DecodedWordsAreTheirEncoding := by
  unfold Obligations.DecodedWordsAreTheirEncoding
  intro ws rest i h
  cases ws with
  | nil => cases h
  | cons w tail =>
    unfold decode at h
    obtain ⟨-, h⟩ | ⟨-, h⟩ := ite_eq_iff.mp h
    · exact encode_of_port h
    obtain ⟨-, h⟩ | ⟨-, h⟩ := ite_eq_iff.mp h
    · exact encode_of_port h
    cases hd : decodeInternal w with
    | error e => rw [hd] at h; cases h
    | ok j =>
      rw [hd] at h
      cases h
      exact ⟨decodeInternal_wellFormed hd, by rw [encode_of_decodeInternal hd, List.singleton_append]⟩

end Sys2Proof
end

section
/-! The opcode map (30_encoding R153). -/

namespace Sys2Proof

/-- Two rows whose patterns differ in a bit that both masks keep match no common word. -/
theorem no_word_matches_both {a b : OpcodeRow} (h : a.pattern &&& b.mask ≠ b.pattern &&& a.mask) (w : Word) :
    ¬(w &&& a.mask = a.pattern ∧ w &&& b.mask = b.pattern) := by
  rintro ⟨ha, hb⟩
  apply h
  rw [← ha, ← hb, BitVec.and_assoc, BitVec.and_assoc, BitVec.and_comm a.mask]

theorem opcodeMap_patterns_differ :
    opcodeMap.Pairwise fun a b => a.pattern &&& b.mask ≠ b.pattern &&& a.mask := by
  decide

/-- Settles O4: the patterns of any two rows differ where both masks look. -/
theorem opcodeRowsAreDisjoint : Obligations.OpcodeRowsAreDisjoint := by
  unfold Obligations.OpcodeRowsAreDisjoint
  exact opcodeMap_patterns_differ.imp no_word_matches_both

end Sys2Proof
end

section
/-! What a port makes of a word, by the bits of the word (30_encoding R150, R151). -/

namespace Sys2Proof

theorem classOf_eq_iff (w : Word) {c : Nat} (hc : c < 2 ^ 4) : classOf w = c ↔ w.extractLsb' 28 4 = BitVec.ofNat 4 c := by
  rw [classOf, field_eq_toNat_extractLsb', ← BitVec.toNat_inj, BitVec.toNat_ofNat, Nat.mod_eq_of_lt hc]

theorem opOf_eq_iff (w : Word) {op : Nat} (ho : op < 2 ^ 4) : opOf w = op ↔ w.extractLsb' 24 4 = BitVec.ofNat 4 op := by
  rw [opOf, field_eq_toNat_extractLsb', ← BitVec.toNat_inj, BitVec.toNat_ofNat, Nat.mod_eq_of_lt ho]

theorem field_ne_zero_iff (w : Word) (hi lo : Nat) : field w hi lo ≠ 0 ↔ w.extractLsb' lo (hi - lo + 1) ≠ 0#(hi - lo + 1) := by
  rw [field_eq_toNat_extractLsb', ne_eq, ne_eq, ← BitVec.toNat_inj, BitVec.toNat_ofNat, Nat.zero_mod]

/-- The control port's decoding function, in bit fields. -/
theorem decodePort_control_eq (w : Word) :
    decodePort .control w =
      if w.extractLsb' 28 4 = 0x1#4 ∧ w.extractLsb' 24 4 = 0x0#4 then
        (if w.extractLsb' 12 12 ≠ 0#12 then .illegal .csrRd else .csrRd (w.extractLsb' 0 12))
      else if w.extractLsb' 28 4 = 0x1#4 ∧ w.extractLsb' 24 4 = 0x1#4 then
        (if w.extractLsb' 12 12 ≠ 0#12 then .illegal .csrWr else .csrWr (w.extractLsb' 0 12))
      else .illegal .none := by
  have hoff : BitVec.ofNat 12 (field w 11 0) = w.extractLsb' 0 12 := by
    rw [field_eq_toNat_extractLsb', BitVec.ofNat_toNat, BitVec.setWidth_eq]
  simp only [decodePort, hoff, classOf_eq_iff w (show 0x1 < 2 ^ 4 by decide), opOf_eq_iff w (show 0x0 < 2 ^ 4 by decide),
    opOf_eq_iff w (show 0x1 < 2 ^ 4 by decide), field_ne_zero_iff]

/-- The audio port's decoding function, in bit fields. -/
theorem decodePort_audio_eq (w : Word) :
    decodePort .audio w =
      if w.extractLsb' 28 4 = 0x2#4 ∧ w.extractLsb' 24 4 = 0x0#4 then
        (if w.extractLsb' 16 8 ≠ 0#8 then .illegal .push else .push (w.extractLsb' 0 16).toNat)
      else .illegal .none := by
  have hn : field w 15 0 = (w.extractLsb' 0 16).toNat := field_eq_toNat_extractLsb' w 15 0
  simp only [decodePort, hn, classOf_eq_iff w (show 0x2 < 2 ^ 4 by decide), opOf_eq_iff w (show 0x0 < 2 ^ 4 by decide),
    field_ne_zero_iff]

/-- Settles O5, clause by clause in the two ports' decoding functions. -/
theorem portsRefuseOtherWords : Obligations.PortsRefuseOtherWords := by
  unfold Obligations.PortsRefuseOtherWords
  intro w cls op
  refine ⟨?rd, ?rdIllegal, ?wr, ?wrIllegal, ?control, ?push, ?pushIllegal, ?audio, ?internal⟩
  case rd | rdIllegal | wr | wrIllegal =>
    intro hc ho hres
    simp [decodePort_control_eq, cls, op, hc, ho, hres]
  case push | pushIllegal =>
    intro hc ho hres
    simp [decodePort_audio_eq, cls, op, hc, ho, hres]
  case control =>
    intro hother
    rw [decodePort_control_eq, if_neg fun h => hother ⟨h.1, .inl h.2⟩, if_neg fun h => hother ⟨h.1, .inr h.2⟩]
  case audio =>
    intro hother
    rw [decodePort_audio_eq, if_neg hother]
  case internal =>
    intro p hc
    cases p with
    | control => obtain hc | hc | hc := hc <;> simp [decodePort_control_eq, cls, hc]
    | audio => obtain hc | hc | hc := hc <;> simp [decodePort_audio_eq, cls, hc]

end Sys2Proof
end

section
/-! What becomes of an `ILLEGAL` word (30_encoding R150, 60_exceptions R381, R388). -/

namespace Sys2Proof.Machine

/-- The response and the recording of an `ILLEGAL` word, in a port's own response field. -/
theorem illegalOp_eq (p : Port) (w : Word) (s : State) :
    illegalOp p w s =
      respond p true 9#32 { s with
        csr := if s.csr.status.fatal then s.csr
          else { s.csr with
            status := { s.csr.status with cfgErr := true }
            cause := BitVec.ofNat 32 (field w 31 16 * 2 ^ 16 + 9) } } := by
  have hinfo : field w 31 16 < 2 ^ 16 := Nat.mod_lt _ (Nat.two_pow_pos 16)
  rw [illegalOp, refuse, recordRefusal_eq, causeWord_eq .illegalOp _ hinfo]
  rfl

/-- An `ILLEGAL` word is fetched with the `n` data words it consumes, once they are on the port. -/
theorem fetchControl_illegal {s : State} {w : Word} {rest : List Word} {k : Framing} {n : Nat} (hin : s.env.ctlIn = w :: rest)
    (hk : decodePort .control w = .illegal k) (hn : illegalWords s k w = n) (hwords : n ≤ rest.length) :
    fetchControl s = .illegal .control w { s with env := { s.env with ctlIn := rest.drop n } } := by
  simp only [fetchControl, hin, hk, hn, Nat.not_lt.mpr hwords, if_false]

theorem fetchAudio_illegal {s : State} {w : Word} {rest : List Word} {k : Framing} {n : Nat} (hin : s.env.audIn = w :: rest)
    (hk : decodePort .audio w = .illegal k) (hn : illegalWords s k w = n) (hwords : n ≤ rest.length) :
    fetchAudio s = .illegal .audio w { s with env := { s.env with audIn := rest.drop n } } := by
  simp only [fetchAudio, hin, hk, hn, Nat.not_lt.mpr hwords, if_false]

/-- Settles O7, port by port: the word is fetched with the data words of its framing, and a step refuses it. -/
theorem illegalWordsAreRefused : Obligations.IllegalWordsAreRefused := by
  unfold Obligations.IllegalWordsAreRefused
  intro s turns w rest k nch2 words csr hwords
  have hconsumed : illegalWords s k w = words := by cases k <;> rfl
  refine ⟨?control, ?audio⟩
  case control =>
    intro hturn hin hk
    rw [step_of_illegal ((fetch_of_control hturn).trans (fetchControl_illegal hin hk hconsumed hwords)), illegalOp_eq]
    rfl
  case audio =>
    intro hturn hin hk
    rw [step_of_illegal ((fetch_of_audio hturn).trans (fetchAudio_illegal hin hk hconsumed hwords)), illegalOp_eq]
    rfl

end Sys2Proof.Machine
end

section
/-! Words written out from their bit fields (30_encoding R144 to R148). -/

namespace Sys2Proof

/-- Settles O3: the decoder computes each of these words. -/
theorem writtenWordsDecode : Obligations.WrittenWordsDecode := by
  unfold Obligations.WrittenWordsDecode
  exact ⟨rfl, rfl, rfl, rfl, rfl, rfl, rfl, rfl⟩

end Sys2Proof
end

section
/-! Zeros in binary32 arithmetic (00_scope R12): which zero a difference or a quotient is, and what adding one does. -/

namespace Sys2Proof.Machine

theorem fVal_eq_zero_iff {b : Nat} : fVal b = 0 ↔ b = 0 := by
  constructor
  · intro h
    by_contra hb
    have h1 : fVal 1 ≤ fVal b := fVal_mono (by omega)
    rw [h] at h1
    exact absurd h1 (by decide)
  · rintro rfl; rfl

theorem fUnits_eq_zero_iff (x : F32) : fUnits x = 0 ↔ x.toNat % 2 ^ 31 = 0 := by
  rw [← fVal_eq_zero_iff, ← fMag_eq, fUnits]
  split <;> omega

theorem fNearest_zero {den : Nat} (hd : 0 < den) : fNearest 0 den = 0 := by
  simpa [fVal] using fNearest_exact (b := 0) (by decide) hd

/-- A finite value other than zero is packed as itself. -/
theorem fPack_fUnits {x : F32} (hx : fFinite x = true) (h0 : fUnits x ≠ 0) :
    fPack (decide (fUnits x < 0)) (fUnits x).natAbs 1 = x := by
  have hb : x.toNat % 2 ^ 31 ≤ 0x7F800000 := Nat.le_of_lt ((fFinite_iff x).mp hx)
  have hmag : (fUnits x).natAbs = fVal (x.toNat % 2 ^ 31) * 1 := by
    rw [← fMag_eq, fUnits]; split <;> omega
  have hsign : decide (fUnits x < 0) = fSign x := by
    rw [fUnits] at h0 ⊢
    cases fSign x <;> simp at h0 ⊢; omega
  rw [fPack, hmag, fNearest_exact hb one_pos, hsign, fBits_self]

/-- A finite value minus itself is `+0.0`. -/
theorem flSub_self {x : F32} (hx : fFinite x = true) : flSub x x = fZero := by
  have hneg : fFinite (fNeg x) = true := by rwa [fFinite_fNeg]
  have hsign : (fSign x && fSign (fNeg x)) = false := by rw [(fNeg_toNat x).2, Bool.and_not_self]
  have hsum : fUnits x + fUnits (fNeg x) = 0 := by rw [fUnits_fNeg]; omega
  simp only [flSub, flAdd, fFinite_not_nan hx, fFinite_not_nan hneg, fFinite_not_inf hx, fFinite_not_inf hneg, hsum, hsign]
  rfl

/-- `+0.0` over a number other than zero, an infinity too, is the zero of that number's sign. -/
theorem flDiv_fZero {b : F32} (hnan : fIsNaN b = false) (hzero : fIsZero b = false) : flDiv fZero b = fBits (fSign b) 0 := by
  have hmag : 0 < fMag b := by
    rw [Nat.pos_iff_ne_zero, fMag_eq, ne_eq, fVal_eq_zero_iff]
    simpa [fIsZero] using hzero
  have hfinite : fPack (fSign b) 0 (fMag b) = fBits (fSign b) 0 := by rw [fPack, fNearest_zero hmag]
  have hsign : (fSign fZero != fSign b) = fSign b := Bool.false_bne _
  have hnum : fMag fZero * 2 ^ 149 = 0 := by decide
  simp only [flDiv, hnan, hzero, hsign, hnum, hfinite, show fIsNaN fZero = false from rfl, show fIsInf fZero = false from rfl,
    Bool.or_self, Bool.false_eq_true, if_false, ite_self]

/-- A zero added to a finite value leaves it, unless it turns `-0.0` into `+0.0`. -/
theorem flAdd_fBits_zero {x : F32} {neg : Bool} (hx : fFinite x = true) (hneg : x = 0x80000000#32 → neg = true) :
    flAdd x (fBits neg 0) = x := by
  have hfinite : fFinite (fBits neg 0) = true := by cases neg <;> rfl
  have hunits : fUnits (fBits neg 0) = 0 := by cases neg <;> rfl
  simp only [flAdd, fFinite_not_nan hx, fFinite_not_nan hfinite, fFinite_not_inf hx, fFinite_not_inf hfinite, hunits,
    Int.add_zero, Bool.or_self, Bool.false_eq_true, if_false, fSign_fBits neg (Nat.zero_le _)]
  split
  · rename_i h0
    have hself := fBits_self x
    rw [(fUnits_eq_zero_iff x).mp h0] at hself
    cases hs : fSign x with
    | false => rwa [hs] at hself
    | true =>
      rw [hs] at hself
      rwa [hneg hself.symm]
  · rename_i h0
    exact fPack_fUnits hx h0

end Sys2Proof.Machine
end

section
/-! The pre-emphasis filter (41_preemphasis): `PRE_STEP` by its formula, and what it makes of a repeated sample. -/

namespace Sys2Proof.Machine

/-! ### The operation -/

/-- `PRE_STEP` on operand 0: its output is the result, and the channel's state after the sample is put back. -/
theorem exec_preStep (c : Chan) (s : State) :
    exec (.preStep c) s =
      .next (setResult [(preStep s.cfg s.csr.srcRate (chanOf s.dp c) (arg s 0)).1]
        { s with dp := setChan s.dp c (preStep s.cfg s.csr.srcRate (chanOf s.dp c) (arg s 0)).2 }) :=
  rfl

/-- The word of `PRE_STEP` is of class 9, which neither port takes. -/
theorem decodePort_preStep (p : Port) (c : Chan) : decodePort p (opWord 0x9 0x0 c.toNat) = .illegal .none := by
  obtain ⟨-, -, -, -, -, -, -, -, internal⟩ := portsRefuseOtherWords (opWord 0x9 0x0 c.toNat)
  exact internal p (.inr (.inl (by cases c <;> rfl)))

/-- Settles O8, channel by channel: the word is of class 9, and the meaning is the formula by `exec_preStep`. -/
theorem preStepFollowsItsFormula : Obligations.PreStepFollowsItsFormula := by
  unfold Obligations.PreStepFollowsItsFormula
  intro c s
  cases c with
  | ch0 => exact ⟨rfl, fun p => decodePort_preStep p .ch0, exec_preStep .ch0 s⟩
  | ch1 => exact ⟨rfl, fun p => decodePort_preStep p .ch1, exec_preStep .ch1 s⟩

/-! ### A repeated sample -/

/-- The difference of the two samples is `+0.0`, the quotient is a zero with the sign of `1 - k`, and adding it leaves the
sample. -/
theorem preStep_repeated {cfg : Config} {srcRate : Word} {ch : Channel} {x : F32} (hx : fFinite x = true) (hlast : x = ch.last)
    (hnan : fIsNaN (preDen cfg srcRate) = false) (hzero : fIsZero (preDen cfg srcRate) = false)
    (hneg : x = 0x80000000#32 → fSign (preDen cfg srcRate) = true) : (preStep cfg srcRate ch x).1 = x := by
  calc (preStep cfg srcRate ch x).1
      = flAdd x (flDiv (flSub x x) (preDen cfg srcRate)) := by rw [preStep, ← hlast]
    _ = flAdd x (fBits (fSign (preDen cfg srcRate)) 0) := by rw [flSub_self hx, flDiv_fZero hnan hzero]
    _ = x := flAdd_fBits_zero hx hneg

/-- Settles O9: the result of `PRE_STEP` is the output of `preStep`, which `preStep_repeated` says is the sample. -/
theorem preStepPassesDcUnchanged : Obligations.PreStepPassesDcUnchanged := by
  unfold Obligations.PreStepPassesDcUnchanged
  intro c s x ch den hx hlast hnan hzero hneg
  have hch : ch = chanOf s.dp c := by cases c <;> rfl
  rw [hch] at hlast
  exact ⟨_, exec_preStep c s, congrArg (fun y => [y]) (preStep_repeated hx hlast hnan hzero hneg)⟩

end Sys2Proof.Machine
end

section
/-! The resampler's loop (42_resampler R220, R222): the counters it sees, where it ends, and what it emits. -/

namespace Sys2Proof.Machine

/-! ### Comparisons and bounds of the counter, in units of `2^-149` -/

theorem fLt_iff {x y : F32} (hx : fFinite x = true) (hy : fFinite y = true) : fLt x y = true ↔ fUnits x < fUnits y := by
  simp [fLt, fFinite_not_nan hx, fFinite_not_nan hy]

theorem fLe_iff {x y : F32} (hx : fFinite x = true) (hy : fFinite y = true) : fLe x y = true ↔ fUnits x ≤ fUnits y := by
  simp [fLe, fFinite_not_nan hx, fFinite_not_nan hy]

theorem fFinite_fOne : fFinite fOne = true := by decide

theorem fUnits_fOne : fUnits fOne = 2 ^ 149 := by decide

theorem fUnits_fCpsMax : fUnits fCpsMax = 2 ^ 173 := by decide

theorem counterInRange_iff (t : F32) :
    CounterInRange t ↔ fFinite t = true ∧ 2 ^ 149 ≤ fUnits t ∧ fUnits t < 2 ^ 173 := by
  refine and_congr_right fun ht => ?_
  rw [fLe_iff fFinite_fOne ht, fLt_iff ht (by decide), fUnits_fOne, fUnits_fCpsMax]

theorem legalRatio_iff (r : F32) : legalRatio r = true ↔ fFinite r = true ∧ 2 ^ 142 ≤ fUnits r ∧ fUnits r ≤ 2 ^ 156 := by
  have hmin : fFinite fRatioMin = true ∧ fUnits fRatioMin = 2 ^ 142 := by decide
  have hmax : fFinite fRatioMax = true ∧ fUnits fRatioMax = 2 ^ 156 := by decide
  simp only [legalRatio, Bool.and_eq_true, and_assoc]
  refine and_congr_right fun hr => ?_
  rw [fLe_iff hmin.1 hr, fLe_iff hr hmax.1, hmin.2, hmax.2]

/-- The decrement leaves a counter from `0.0` on and below `2^24`. -/
theorem flSub_one_bounds {t : F32} (ht : CounterInRange t) :
    fFinite (flSub t fOne) = true ∧ 0 ≤ fUnits (flSub t fOne) ∧ fUnits (flSub t fOne) < 2 ^ 173 := by
  obtain ⟨hfin, hlow, hhigh⟩ := (counterInRange_iff t).mp ht
  obtain ⟨hnan, hge, hle⟩ := flSub_bounds hfin fFinite_fOne
  rw [fUnits_fOne] at hge hle
  have hpos : 0 ≤ fUnits (flSub t fOne) := hge fZero rfl (show (0 : Int) ≤ _ by omega)
  have hself : fUnits (flSub t fOne) ≤ fUnits t := hle t hfin (by omega)
  exact ⟨fFinite_of_between (lo := fZero) hnan rfl hfin hpos hself, hpos, by omega⟩

/-- One pass: a counter below `1.0` and not below `k × 2^-7` is afterwards not below `(k + 1) × 2^-7`, which is representable, so
that rounding cannot go under it. -/
theorem flAdd_ratio_bounds {t ratio : F32} {k : Nat} (hr : legalRatio ratio = true) (hfin : fFinite t = true)
    (hlt : fUnits t < 2 ^ 149) (hk : k < 128) (hlow : k * 2 ^ 142 ≤ fUnits t) :
    fFinite (flAdd t ratio) = true ∧ (k + 1 : Nat) * 2 ^ 142 ≤ fUnits (flAdd t ratio) ∧ fUnits (flAdd t ratio) < 2 ^ 173 := by
  obtain ⟨hrfin, hrmin, hrmax⟩ := (legalRatio_iff ratio).mp hr
  obtain ⟨hnan, hge, hle⟩ := flAdd_bounds hfin hrfin
  obtain ⟨y, hyfin, hy⟩ := exists_units (n := ((k + 1 : Nat) : Int)) (j := 142) (by omega) (by omega)
  obtain ⟨z, hzfin, hz⟩ := exists_units (n := 1) (j := 157) (by decide) (by decide)
  have hlow' := hge y hyfin (by omega)
  have hhigh := hle z hzfin (by omega)
  exact ⟨fFinite_of_between hnan hyfin hzfin hlow' hhigh, by omega, by omega⟩

/-! ### A run of the loop -/

/-- `while t < 1.0` of R220 run to its own end: from the counter `t` it sees the counters `ts`, and it stops at `last`. -/
inductive LoopRun (ratio : F32) : F32 → List F32 → F32 → Prop
  | stop {t : F32} (h : fLt t fOne = false) : LoopRun ratio t [] t
  | pass {t last : F32} {ts : List F32} (h : fLt t fOne = true) (rest : LoopRun ratio (flAdd t ratio) ts last) :
      LoopRun ratio t (t :: ts) last

variable {ratio t last : F32} {ts : List F32}

theorem LoopRun.starts (h : LoopRun ratio t ts last) : ∃ tail, ts ++ [last] = t :: tail := by
  cases h with
  | stop => exact ⟨[], rfl⟩
  | pass => exact ⟨_, rfl⟩

/-- Each counter is one `RATIO` further than the one before. -/
theorem LoopRun.isChain (h : LoopRun ratio t ts last) : List.IsChain (fun a b => b = flAdd a ratio) (ts ++ [last]) := by
  induction h with
  | stop => exact .singleton _
  | pass _ rest ih =>
    obtain ⟨tail, htail⟩ := rest.starts
    rw [htail] at ih
    rw [List.cons_append, htail]
    exact .cons_cons rfl ih

theorem LoopRun.below_one (h : LoopRun ratio t ts last) : ∀ u ∈ ts, fLt u fOne = true := by
  induction h with
  | stop => exact fun u hu => absurd hu List.not_mem_nil
  | pass hlt _ ih => exact List.forall_mem_cons.mpr ⟨hlt, ih⟩

theorem LoopRun.last_not_below_one (h : LoopRun ratio t ts last) : fLt last fOne = false := by
  induction h with
  | stop hstop => exact hstop
  | pass _ _ ih => exact ih

/-- The loop of the model, cut after no fewer passes than the run has, is the run (log entry 6). -/
theorem rsmLoop_of_run (cfg : Config) (hist : List F32) (h : LoopRun ratio t ts last) {n : Nat} (hn : ts.length ≤ n) :
    rsmLoop cfg ratio hist n t = (ts.map fun u => rsmDot fZero hist (lut cfg (rsmRow cfg u)), last) := by
  induction h generalizing n with
  | stop hstop =>
    cases n with
    | zero => rfl
    | succ n => simp [rsmLoop, hstop]
  | pass hlt _ ih =>
    cases n with
    | zero => simp at hn
    | succ n => simp [rsmLoop, hlt, ih (by simpa using hn)]

/-- After `k` of 128 passes the counter is not below `k × 2^-7`, so the loop ends within the other `n`; and the pass that ends it
adds at most `2^7`. -/
theorem exists_loopRun {k n : Nat} (hr : legalRatio ratio = true) (hkn : k + n = 128) (hfin : fFinite t = true)
    (hlow : k * 2 ^ 142 ≤ fUnits t) (hhigh : fUnits t < 2 ^ 173) :
    ∃ ts last, LoopRun ratio t ts last ∧ ts.length ≤ n ∧ CounterInRange last := by
  induction n generalizing k t with
  | zero =>
    have hone : 2 ^ 149 ≤ fUnits t := by omega
    have hstop : fLt t fOne = false := by
      rw [Bool.eq_false_iff, ne_eq, fLt_iff hfin fFinite_fOne, fUnits_fOne]
      omega
    exact ⟨[], t, .stop hstop, le_rfl, (counterInRange_iff t).mpr ⟨hfin, hone, hhigh⟩⟩
  | succ n ih =>
    cases hlt : fLt t fOne with
    | false =>
      have hone : ¬fUnits t < 2 ^ 149 := by rw [← fUnits_fOne, ← fLt_iff hfin fFinite_fOne, hlt]; exact Bool.false_ne_true
      exact ⟨[], t, .stop hlt, Nat.zero_le _, (counterInRange_iff t).mpr ⟨hfin, not_lt.mp hone, hhigh⟩⟩
    | true =>
      have hbelow : fUnits t < 2 ^ 149 := by rwa [fLt_iff hfin fFinite_fOne, fUnits_fOne] at hlt
      obtain ⟨hfin', hlow', hhigh'⟩ := flAdd_ratio_bounds hr hfin hbelow (by omega) hlow
      obtain ⟨ts, last, hrun, hlen, hlast⟩ := ih (by omega) hfin' hlow' hhigh'
      exact ⟨t :: ts, last, .pass hlt hrun, Nat.succ_le_succ hlen, hlast⟩

/-- From a counter in range the loop ends within 128 passes, and the counter is in range again (R222). -/
theorem exists_loopRun_of_counterInRange (hr : legalRatio ratio = true) (ht : CounterInRange t) :
    ∃ ts last, LoopRun ratio (flSub t fOne) ts last ∧ ts.length ≤ 128 ∧ CounterInRange last := by
  obtain ⟨hfin, hpos, hhigh⟩ := flSub_one_bounds ht
  exact exists_loopRun (k := 0) hr rfl hfin (by simpa using hpos) hhigh

/-! ### One input sample -/

theorem rsmPush_of_run (cfg : Config) {ch : Channel} (x : F32) (h : LoopRun ratio (flSub ch.t fOne) ts last)
    (hlen : ts.length ≤ 128) :
    rsmPush cfg ratio ch x =
      (ts.map fun u => rsmDot fZero (rsmShift ch.hist x) (lut cfg (rsmRow cfg u)),
        { ch with hist := rsmShift ch.hist x, t := last }) := by
  simp only [rsmPush, rsmLoop_of_run cfg (rsmShift ch.hist x) h (show ts.length ≤ rsmPasses from hlen)]

/-- `RSM_PUSH` on operand 0: the outputs are the result, and the channel's state after the sample is put back. -/
theorem exec_rsmPush (c : Chan) (s : State) :
    exec (.rsmPush c) s =
      .next (setResult (rsmPush s.cfg s.csr.ratio (chanOf s.dp c) (arg s 0)).1
        { s with dp := setChan s.dp c (rsmPush s.cfg s.csr.ratio (chanOf s.dp c) (arg s 0)).2 }) :=
  rfl

/-- The dot product adds the products one at a time, in the order of the two lists (R224). -/
theorem rsmDot_eq_foldl (acc : F32) (hs ls : List F32) :
    rsmDot acc hs ls = (hs.zip ls).foldl (fun a p => flAdd a (flMul p.1 p.2)) acc := by
  induction hs generalizing acc ls with
  | nil => rfl
  | cons h hs ih =>
    cases ls with
    | nil => rfl
    | cons l ls => exact ih _ ls

/-- Settles O10: `exists_loopRun_of_counterInRange` gives the counters, and `rsmPush_of_run` the outputs and the channel. -/
theorem rsmPushRunsItsLoopToTheEnd : Obligations.RsmPushRunsItsLoopToTheEnd := by
  unfold Obligations.RsmPushRunsItsLoopToTheEnd
  intro c s x ch hist row dot ht hr
  have hch : ch = chanOf s.dp c := by cases c <;> rfl
  rw [hch] at ht
  obtain ⟨ts, last, hrun, hlen, -⟩ := exists_loopRun_of_counterInRange hr ht
  obtain ⟨tail, hstart⟩ := hrun.starts
  refine ⟨ts, last, by rw [hstart, hch]; rfl, hrun.isChain, hrun.below_one, hrun.last_not_below_one, hlen, ?_⟩
  rw [exec_rsmPush, rsmPush_of_run s.cfg (arg s 0) hrun hlen]
  simp only [rsmDot_eq_foldl]
  cases c <;> rfl

end Sys2Proof.Machine
end

section
/-! Both resamplers' counters stay in range (42_resampler R222, 10_state R33): only `RSM_PUSH` and the `PUSH` that runs it move
a counter, and only a reset or a change of `CTRL[3:0]` puts it back to `1.0`. -/

namespace Sys2Proof.Machine

theorem invCounters_of_dp {s t : State} (h : InvCounters s) (hd : t.dp = s.dp) : InvCounters t := by
  rw [InvCounters, hd]
  exact h

theorem invCounters_of_dp_reset {s : State} (hd : s.dp = Datapath.reset s.cfg) : InvCounters s := by
  rw [InvCounters, hd]
  exact invCounters_resetOf s.cfg

theorem chanOf_counterInRange {s : State} (h : InvCounters s) (c : Chan) : CounterInRange (chanOf s.dp c).t := by
  cases c
  · exact h.1
  · exact h.2

/-! ### The operations that move a counter -/

theorem rsmPush_counterInRange (cfg : Config) {ratio : F32} {ch : Channel} (x : F32) (hr : legalRatio ratio = true)
    (h : CounterInRange ch.t) : CounterInRange (rsmPush cfg ratio ch x).2.t := by
  obtain ⟨ts, last, hrun, hlen, hlast⟩ := exists_loopRun_of_counterInRange hr h
  rw [rsmPush_of_run cfg x hrun hlen]
  exact hlast

/-- Pre-emphasis leaves the counter, and every input's resampling leaves it in range. -/
theorem channelStage_counterInRange {s : State} {ch : Channel} (xs : List F32) (hr : legalRatio s.csr.ratio = true)
    (h : CounterInRange ch.t) : CounterInRange (channelStage s ch xs).2.t :=
  channelStage_keeps (fun c => CounterInRange c.t) s ch xs (fun _ _ hc => hc)
    (fun _ x hc => rsmPush_counterInRange s.cfg x hr hc) h

/-- With one channel, channel 1 does not move (42_resampler R229). -/
theorem cascade_ch1_of_one (s : State) (ls rs : List F32) (h : s.csr.ctrl.nch2 = false) :
    (cascade s ls rs).2.ch1 = s.dp.ch1 := by
  simp [cascade_eq, h]

theorem pushBlock_invCounters {s : State} (n : Nat) (ls rs : List F32) (hr : legalRatio s.csr.ratio = true)
    (h : InvCounters s) : InvCounters (pushBlock n ls rs s) := by
  rw [InvCounters, pushBlock_dp, cascade_ch0]
  refine ⟨channelStage_counterInRange ls hr h.1, ?_⟩
  cases htwo : s.csr.ctrl.nch2 with
  | false => rw [cascade_ch1_of_one s ls rs htwo]; exact h.2
  | true => rw [cascade_ch1 s ls rs htwo]; exact channelStage_counterInRange rs hr h.2

theorem invCounters_setChan {s : State} (c : Chan) {ch : Channel} (h : InvCounters s) (hc : CounterInRange ch.t) :
    InvCounters { s with dp := setChan s.dp c ch } := by
  cases c
  · exact ⟨hc, h.2⟩
  · exact ⟨h.1, hc⟩

theorem execRsmPush_invCounters {c : Chan} {s t : State} (hr : legalRatio s.csr.ratio = true) (h : InvCounters s)
    (he : execRsmPush c s = .next t) : InvCounters t := by
  cases he
  exact invCounters_setChan c h (rsmPush_counterInRange s.cfg (arg s 0) hr (chanOf_counterInRange h c))

/-! ### The others -/

theorem execPush_invCounters {n : Nat} {s t : State} (hr : legalRatio s.csr.ratio = true) (h : InvCounters s)
    (he : execPush n s = .next t) : InvCounters t := by
  have hd : InvCounters (dropPushWords s n) := h
  obtain ⟨-, hx⟩ | ⟨-, ⟨-, hx⟩ | ⟨-, ⟨-, hx⟩ | ⟨-, ⟨-, hx⟩ | ⟨-, ⟨-, -, hx⟩ | ⟨-, ⟨-, hx⟩ | ⟨-, hx⟩⟩⟩⟩⟩⟩ :=
    execPush_cases n s <;> cases hx.symm.trans he
  · exact h
  · exact invCounters_of_dp hd (refuse_dp ..)
  · exact invCounters_of_dp hd (refuse_dp ..)
  · exact invCounters_of_dp hd (refuse_dp ..)
  · exact invCounters_of_dp hd (fatalStop_dp ..)
  · exact pushBlock_invCounters n _ _ hr hd

/-- A write of `CTRL` keeps the datapath, or reinitialises it (47_host_interface R345). -/
theorem writeCtrl_invCounters {s : State} (w : Word) (h : InvCounters s) : InvCounters (writeCtrl w s) := by
  unfold writeCtrl
  split
  · exact h
  · exact invCounters_of_dp_reset rfl

theorem csrWrite_invCounters {r : Csr} {w : Word} {s t : State} (h : InvCounters s) (hw : csrWrite r w s = .accepted t) :
    InvCounters t := by
  cases r <;> simp only [csrWrite] at hw
  case ctrl =>
    split at hw
    · cases hw; exact invCounters_of_dp_reset rfl
    · obtain ⟨-, -, rfl⟩ := checkedWrite_accepted hw; exact writeCtrl_invCounters w h
  case srcRate | ratio => obtain ⟨-, -, rfl⟩ := rateWrite_accepted hw; exact h
  case delay | chunk | cps | modIndex | payloadLen | payloadData => obtain ⟨-, -, rfl⟩ := checkedWrite_accepted hw; exact h
  all_goals cases hw; exact h

theorem execCsrWr_invCounters {off : BitVec 12} {w : Word} {s t : State} (h : InvCounters s)
    (he : execCsrWr off w s = .next t) : InvCounters t := by
  obtain ⟨-, hx⟩ | ⟨-, -, -, hx⟩ | ⟨-, -, ⟨u, hu, hx⟩ | ⟨c, -, hx⟩ | ⟨c, -, hx⟩⟩ := execCsrWr_cases off w s <;>
    cases hx.symm.trans he
  case inr.inr.inl => exact invCounters_of_dp (csrWrite_invCounters h hu) (respond_dp ..)
  case inr.inr.inr.inr => exact invCounters_of_dp h (fatalStop_dp ..)
  all_goals exact invCounters_of_dp h (refuse_dp ..)

theorem execCsrRd_dp {off : BitVec 12} {s t : State} (he : execCsrRd off s = .next t) : t.dp = s.dp := by
  obtain ⟨-, hx⟩ | ⟨-, hx⟩ := execCsrRd_cases off s <;> cases hx.symm.trans he
  · exact refuse_dp ..
  · rw [respond_dp, csrReadEffect_dp]

theorem execConsRead_dp {s t : State} (he : execConsRead s = .next t) : t.dp = s.dp := by
  obtain ⟨-, hx⟩ | ⟨-, ⟨-, hx⟩ | ⟨-, hx⟩⟩ := execConsRead_cases s <;> cases hx.symm.trans he
  all_goals rfl

theorem execModStep_dp {s t : State} (he : execModStep s = .next t) : t.dp = s.dp := by
  obtain ⟨-, hx⟩ | ⟨-, ⟨-, hx⟩ | ⟨-, ⟨-, hx⟩ | ⟨-, hx⟩⟩⟩ := execModStep_cases s <;> cases hx.symm.trans he
  · rfl
  · exact modCommit_dp s

theorem execFifoWrite_dp {m : Nat} {s t : State} (he : execFifoWrite m s = .next t) : t.dp = s.dp := by
  obtain ⟨-, hx⟩ | ⟨-, hx⟩ := execFifoWrite_cases m s <;> cases hx.symm.trans he
  all_goals rfl

theorem execEncStep_invCounters {s t : State} (h : InvCounters s) (he : execEncStep s = .next t) : InvCounters t := by
  obtain ⟨-, hx⟩ | ⟨-, ⟨-, hx⟩ | ⟨-, hx⟩⟩ := execEncStep_cases s <;> cases hx.symm.trans he
  · exact h
  · simp only [InvCounters, setResult_dp, encStep_ch0, encStep_ch1]
    exact h

/-- Every operation keeps the counters in range while the ratio is legal. -/
theorem exec_invCounters {i : Instr} {s t : State} (hr : legalRatio s.csr.ratio = true) (h : InvCounters s)
    (he : exec i s = .next t) : InvCounters t := by
  cases i with
  | csrRd off => exact invCounters_of_dp h (execCsrRd_dp he)
  | csrWr off w => exact execCsrWr_invCounters h he
  | push n => exact execPush_invCounters hr h he
  | consRead => exact invCounters_of_dp h (execConsRead_dp he)
  | modStep => exact invCounters_of_dp h (execModStep_dp he)
  | preStep c => cases he; exact invCounters_setChan c h (chanOf_counterInRange h c)
  | rsmPush c => exact execRsmPush_invCounters hr h he
  | encStep => exact execEncStep_invCounters h he
  | fifoWrite m => exact invCounters_of_dp h (execFifoWrite_dp he)
  | startCheck => cases he; exact invCounters_of_dp h (by rw [setResult_dp, startCheck_dp])
  | hwReset => cases he; exact invCounters_of_dp_reset rfl
  | muxStep | monoStep | dmaAdv => cases he; exact h

theorem fetch_invCounters {s u : State} (h : InvCounters s) (hf : (fetch s).state? = some u) : InvCounters u := by
  rw [fetch_state hf]
  exact h

/-- Settles O13: the invariants make `RATIO` legal, and then every fetch, every operation and every refusal keeps the counters in
range. -/
theorem stepKeepsCountersInRange : Obligations.StepKeepsCountersInRange := by
  unfold Obligations.StepKeepsCountersInRange
  intro s t hb h hstep
  obtain ⟨i, u, hf, he⟩ | ⟨p, w, u, hf, rfl⟩ | hf := step_next hstep
  · have hu : (fetch s).state? = some u := by rw [hf]; rfl
    exact exec_invCounters (fetch_blockInv hb hu).ratio_legal (fetch_invCounters h hu) he
  · exact invCounters_of_dp (fetch_invCounters h (by rw [hf]; rfl)) (illegalOp_dp p w u)
  · exact fetch_invCounters h (by rw [hf]; rfl)

end Sys2Proof.Machine
end

section
/-! How many samples the resampler emits at `RATIO = 1.0` and `RATIO = 2.0` (42_resampler R225). -/

namespace Sys2Proof.Machine

/-- `RSM_PUSH` where the loop's run is known. -/
theorem exec_rsmPush_of_run (c : Chan) {s : State} {ts : List F32} {last : F32}
    (h : LoopRun s.csr.ratio (flSub (chanOf s.dp c).t fOne) ts last) (hlen : ts.length ≤ 128) :
    ∃ t, exec (.rsmPush c) s = .next t ∧ t.env.res.length = ts.length ∧ (chanOf t.dp c).t = last ∧ t.csr = s.csr := by
  refine ⟨_, exec_rsmPush c s, ?_, ?_, rfl⟩ <;> rw [rsmPush_of_run s.cfg (arg s 0) h hlen]
  · exact List.length_map ..
  · exact congrArg Channel.t (chanOf_setChan ..)

/-- The same for one sample handed to it. -/
theorem perform_rsmPush_of_run (c : Chan) {s : State} (x : F32) {ts : List F32} {last : F32}
    (h : LoopRun s.csr.ratio (flSub (chanOf s.dp c).t fOne) ts last) (hlen : ts.length ≤ 128) :
    ∃ ys t, perform (.rsmPush c) [x] s = some (ys, t) ∧ ys.length = ts.length ∧ (chanOf t.dp c).t = last ∧
      t.csr.ratio = s.csr.ratio := by
  obtain ⟨t, hexec, hres, hlast, hcsr⟩ := exec_rsmPush_of_run (s := handArgs [x] s) c h hlen
  exact ⟨t.env.res, t, by rw [perform, hexec], hres, hlast, by rw [hcsr, handArgs_csr]⟩

/-- One more block in front of a sequence of blocks. -/
theorem performEach_cons {i : Instr} {xs ys zs : List F32} {rest : List (List F32)} {s t u : State}
    (h : perform i xs s = some (ys, t)) (hrest : performEach i rest t = some (zs, u)) :
    performEach i (xs :: rest) s = some (ys ++ zs, u) := by
  rw [performEach, h]
  simp only [hrest]

/-! ### The runs: exact sums of small integers -/

/-- At `RATIO = 1.0` an input takes the counter from `1.0` to `0.0`, and one pass puts it back. -/
theorem loopRun_one : LoopRun fOne (flSub fOne fOne) [fZero] fOne := .pass (by decide) (.stop (by decide))

/-- At `RATIO = 2.0` an input at `1.0` makes one pass, which leaves the counter at `2.0`. -/
theorem loopRun_two_of_one : LoopRun fTwo (flSub fOne fOne) [fZero] fTwo := .pass (by decide) (.stop (by decide))

/-- At `RATIO = 2.0` an input at `2.0` makes no pass, and the counter is left at `1.0`. -/
theorem loopRun_two_of_two : LoopRun fTwo (flSub fTwo fOne) [] fOne := .stop (by decide)

/-- Settles O11: the loop's run is `loopRun_one`. -/
theorem ratioOneEmitsOneOutput : Obligations.RatioOneEmitsOneOutput := by
  unfold Obligations.RatioOneEmitsOneOutput
  intro c s hratio ht
  have hch : (chanOf s.dp c).t = fOne := by cases c <;> exact ht
  have hrun : LoopRun s.csr.ratio (flSub (chanOf s.dp c).t fOne) [fZero] fOne := by rw [hratio, hch]; exact loopRun_one
  obtain ⟨t, hexec, hres, hlast, -⟩ := exec_rsmPush_of_run c hrun (by decide)
  obtain ⟨y, hy⟩ := List.length_eq_one_iff.mp hres
  exact ⟨t, y, hexec, hy, by cases c <;> exact hlast⟩

/-- At `RATIO = 2.0` the counter alternates between `1.0` and `2.0`, and of every two inputs the one at `1.0` emits. -/
theorem performEach_ratio_two (c : Chan) {s : State} (xs : List F32) (hratio : s.csr.ratio = fTwo) :
    ((chanOf s.dp c).t = fOne → ∃ ys t, performEach (.rsmPush c) (xs.map fun x => [x]) s = some (ys, t) ∧
        ys.length = (xs.length + 1) / 2) ∧
    ((chanOf s.dp c).t = fTwo → ∃ ys t, performEach (.rsmPush c) (xs.map fun x => [x]) s = some (ys, t) ∧
        ys.length = xs.length / 2) := by
  induction xs generalizing s with
  | nil => exact ⟨fun _ => ⟨[], s, rfl, rfl⟩, fun _ => ⟨[], s, rfl, rfl⟩⟩
  | cons x xs ih =>
    constructor <;> intro ht
    · have hrun : LoopRun s.csr.ratio (flSub (chanOf s.dp c).t fOne) [fZero] fTwo := by
        rw [hratio, ht]; exact loopRun_two_of_one
      obtain ⟨ys, t, hx, hys, hlast, hkept⟩ := perform_rsmPush_of_run c x hrun (by decide)
      obtain ⟨zs, u, hxs, hzs⟩ := (ih (hkept.trans hratio)).2 hlast
      refine ⟨ys ++ zs, u, performEach_cons hx hxs, ?_⟩
      rw [List.length_append, hys, hzs, List.length_singleton, List.length_cons]
      omega
    · have hrun : LoopRun s.csr.ratio (flSub (chanOf s.dp c).t fOne) [] fOne := by
        rw [hratio, ht]; exact loopRun_two_of_two
      obtain ⟨ys, t, hx, hys, hlast, hkept⟩ := perform_rsmPush_of_run c x hrun (by decide)
      obtain ⟨zs, u, hxs, hzs⟩ := (ih (hkept.trans hratio)).1 hlast
      refine ⟨ys ++ zs, u, performEach_cons hx hxs, ?_⟩
      rw [List.length_append, hys, hzs, List.length_nil, List.length_cons]
      omega

/-- Settles O12: the case of `performEach_ratio_two` that starts at `1.0`. -/
theorem ratioTwoEmitsHalf : Obligations.RatioTwoEmitsHalf := by
  unfold Obligations.RatioTwoEmitsHalf
  intro c s xs hratio ht
  exact (performEach_ratio_two c xs hratio).1 (by cases c <;> exact ht)

end Sys2Proof.Machine
end

section
/-! The sinc table (42_resampler R226): the printed one, and its entries where `x` is an integer. -/

namespace Sys2Proof.Machine

/-- `sinc` is 1 at 0, and zero at every other integer. -/
theorem sincPi_integer {num : Int} {den : Nat} (h : num % den = 0) : sincPi num den = if num = 0 then fOne else fZero := by
  have hint : num.natAbs % den = 0 := Nat.mod_eq_zero_of_dvd (Int.natCast_dvd.mp (Int.dvd_of_emod_eq_zero h))
  simp only [sincPi, hint, Int.natAbs_eq_zero, if_true]

/-! ### The rows -/

theorem lut_default {cfg : Config} (ht : cfg.taps = 5) (hp : cfg.phases = 10) (row : Nat) : lut cfg row = lutDefault row :=
  if_pos ⟨ht, hp⟩

theorem lut_formula {cfg : Config} (h : ¬(cfg.taps = 5 ∧ cfg.phases = 10)) (row : Nat) :
    lut cfg row = (List.range cfg.taps).map (lutFormula cfg.taps cfg.phases row) :=
  if_neg h

theorem lutDefault_length (row : Nat) : (lutDefault row).length = 5 := by
  unfold lutDefault
  split <;> rfl

theorem lut_length (cfg : Config) (row : Nat) : (lut cfg row).length = cfg.taps := by
  by_cases h : cfg.taps = 5 ∧ cfg.phases = 10
  · rw [lut_default h.1 h.2, lutDefault_length, h.1]
  · rw [lut_formula h, List.length_map, List.length_range]

/-! ### The entries at integers -/

/-- `x = (Q - 1)/2 + s/S - q` of an entry, times `2S`: `x` is an integer where `2S` divides it. -/
def lutTwoSx (cfg : Config) (row tap : Nat) : Int := ((cfg.taps : Int) - 1) * cfg.phases + 2 * row - 2 * tap * cfg.phases

theorem lutFormula_eq (cfg : Config) (row tap : Nat) :
    lutFormula cfg.taps cfg.phases row tap = sincPi (lutTwoSx cfg row tap) (2 * cfg.phases : Nat) := rfl

/-- The first row of the printed table is 1 at tap 2, and zero elsewhere. -/
theorem lutDefault_zero_entry : ∀ tap < 5, (lutDefault 0)[tap]? = some (if tap = 2 then fOne else fZero) := by
  decide

/-- Where `x` is an integer the entry is exact: by the formula, or, in the printed table, because only the first row has integers,
and 0 only at tap 2. -/
theorem lut_entry_integer {cfg : Config} {row tap : Nat} (hrow : row < cfg.phases) (htap : tap < cfg.taps)
    (h : lutTwoSx cfg row tap % (2 * cfg.phases) = 0) :
    (lut cfg row)[tap]? = some (if lutTwoSx cfg row tap = 0 then fOne else fZero) := by
  by_cases hd : cfg.taps = 5 ∧ cfg.phases = 10
  · obtain ⟨ht, hp⟩ := hd
    have hx : lutTwoSx cfg row tap = 40 + 2 * row - 20 * tap := by rw [lutTwoSx, ht, hp]; omega
    rw [hx, hp] at h
    have hrow0 : row = 0 := by omega
    have hzero : lutTwoSx cfg row tap = 0 ↔ tap = 2 := by omega
    rw [lut_default ht hp, hrow0, lutDefault_zero_entry tap (by omega), ← hrow0]
    simp only [hzero]
  · rw [lut_formula hd, List.getElem?_map, List.getElem?_range htap, Option.map_some, lutFormula_eq,
      sincPi_integer (by exact_mod_cast h)]

/-- Settles O60: the printed rows are the model's own, and `lut_length` and `lut_entry_integer` hold at every size. -/
theorem sincTableHasThePrintedEntries : Obligations.SincTableHasThePrintedEntries := by
  unfold Obligations.SincTableHasThePrintedEntries
  refine ⟨?printed, ?sizes⟩
  case printed =>
    intro cfg ht hp
    rw [funext (lut_default ht hp)]
    rfl
  case sizes =>
    intro cfg row tap hrow htap twoSx
    have hentry := lut_entry_integer hrow htap
    refine ⟨lut_length cfg row, fun h0 => ?_, fun h0 hint => (hentry hint).trans (congrArg some (if_neg h0))⟩
    have hx : lutTwoSx cfg row tap = 0 := h0
    exact (hentry (by rw [hx, Int.zero_emod])).trans (congrArg some (if_pos hx))

end Sys2Proof.Machine
end

section
/-! Doubling and halving in binary32 (00_scope R12): `(x + x) × 0.5` gives every finite `x` below `2^127` back, bit for bit. -/

namespace Sys2Proof.Machine

theorem fFinite_of_fExp_lt {x : F32} (hx : fExp x < 254) : fFinite x = true :=
  bne_iff_ne.mpr (by omega)

/-- Twice a value below `2^127` is again a value: a subnormal's bits double, and any other's exponent grows by one. -/
theorem exists_fVal_double {b : Nat} (hb : b < 0x7F000000) : ∃ c, c < 0x7F800000 ∧ fVal c = 2 * fVal b := by
  by_cases hsub : b / 2 ^ 23 = 0
  · refine ⟨2 * b, by omega, ?_⟩
    have hone : 2 * b / 2 ^ 23 - 1 = 0 := by omega
    rw [fVal, fVal, if_pos hsub, hone]
    split <;> omega
  · refine ⟨b + 2 ^ 23, by omega, ?_⟩
    have hexp : (b + 2 ^ 23) / 2 ^ 23 - 1 = b / 2 ^ 23 - 1 + 1 := by omega
    rw [fVal, fVal, if_neg hsub, if_neg (by omega), Nat.add_mod_right, hexp, pow_succ]
    ring

theorem natAbs_fUnits (x : F32) : (fUnits x).natAbs = fMag x := by
  rw [fUnits]; split <;> omega

theorem decide_fUnits_neg {x : F32} (h0 : fUnits x ≠ 0) : decide (fUnits x < 0) = fSign x := by
  rw [fUnits] at h0 ⊢
  cases hsign : fSign x with
  | false => exact decide_eq_false (by simp)
  | true =>
    rw [hsign, if_pos rfl] at h0
    exact decide_eq_true (by rw [if_pos rfl]; omega)

/-- The sum of a finite value with itself, a zero too, is twice its magnitude under its own sign. -/
theorem flAdd_self {x : F32} (hx : fFinite x = true) : flAdd x x = fPack (fSign x) (2 * fMag x) 1 := by
  simp only [flAdd, fFinite_not_nan hx, fFinite_not_inf hx, Bool.or_self, Bool.and_self, Bool.false_eq_true, if_false,
    ← Int.two_mul]
  rw [← natAbs_fUnits]
  split
  · rename_i hzero
    rw [show (fUnits x).natAbs = 0 by omega, fPack, fNearest_zero one_pos]
  · rename_i hzero
    have hneg : (2 * fUnits x < 0) = (fUnits x < 0) := propext (by omega)
    simp only [hneg, decide_fUnits_neg (show fUnits x ≠ 0 by omega), Int.natAbs_mul]
    rfl

/-- A finite value times `0.5` is half its magnitude under its own sign, rounded once. -/
theorem flMul_fHalf {x : F32} (hx : fFinite x = true) : flMul x fHalf = fPack (fSign x) (fMag x * 2 ^ 148) (2 ^ 149) := by
  have hhalf : fIsNaN fHalf = false ∧ fIsInf fHalf = false ∧ fSign fHalf = false ∧ fMag fHalf = 2 ^ 148 := by decide
  obtain ⟨hnan, hinf, hsign, hmag⟩ := hhalf
  simp only [flMul, fFinite_not_nan hx, fFinite_not_inf hx, hnan, hinf, hsign, hmag, Bool.or_self, Bool.false_eq_true,
    if_false, Bool.bne_false]

/-- The sum of a value below `2^127` with itself is exact: the value of twice the magnitude. -/
theorem exists_flAdd_self {x : F32} (hx : fExp x < 254) :
    ∃ c, c < 0x7F800000 ∧ fVal c = 2 * fMag x ∧ flAdd x x = fBits (fSign x) c := by
  have hb : x.toNat % 2 ^ 31 < 0x7F000000 := by rw [fExp] at hx; omega
  obtain ⟨c, hc, hval⟩ := exists_fVal_double hb
  rw [← fMag_eq] at hval
  refine ⟨c, hc, hval, ?_⟩
  rw [flAdd_self (fFinite_of_fExp_lt hx), ← hval, fPack, ← Nat.mul_one (fVal c), fNearest_exact hc.le one_pos]

theorem fFinite_flAdd_self {x : F32} (hx : fExp x < 254) : fFinite (flAdd x x) = true := by
  obtain ⟨c, hc, -, hsum⟩ := exists_flAdd_self hx
  rw [hsum, fFinite_iff, fBits_mod _ hc.le]
  exact hc

/-- The mean of a value below `2^127` with itself is the value, `-0.0` included. -/
theorem flMul_flAdd_self_fHalf {x : F32} (hx : fExp x < 254) : flMul (flAdd x x) fHalf = x := by
  have hfinite := fFinite_flAdd_self hx
  obtain ⟨c, hc, hval, hsum⟩ := exists_flAdd_self hx
  have hmag : fMag (flAdd x x) = 2 * fMag x := by rw [hsum, fMag_eq, fBits_mod _ hc.le, hval]
  have hsign : fSign (flAdd x x) = fSign x := by rw [hsum, fSign_fBits _ hc.le]
  have hpow : 2 * 2 ^ 148 = 2 ^ 149 := by norm_num
  have hb : x.toNat % 2 ^ 31 ≤ 0x7F800000 := ((fFinite_iff x).mp (fFinite_of_fExp_lt hx)).le
  calc flMul (flAdd x x) fHalf
      = fPack (fSign x) (2 * fMag x * 2 ^ 148) (2 ^ 149) := by rw [flMul_fHalf hfinite, hmag, hsign]
    _ = fPack (fSign x) (fVal (x.toNat % 2 ^ 31) * 2 ^ 149) (2 ^ 149) := by rw [fMag_eq, Nat.mul_comm 2, Nat.mul_assoc, hpow]
    _ = x := by rw [fPack, fNearest_exact hb (by positivity), fBits_self]

/-- A value other than `-0.0` does not become `-0.0` by doubling, since halving would give it back. -/
theorem flAdd_self_ne_negZero {x : F32} (hx : fExp x < 254) (hneg : x ≠ 0x80000000#32) : flAdd x x ≠ 0x80000000#32 := by
  intro hsum
  have hhalf := flMul_flAdd_self_fHalf hx
  rw [hsum] at hhalf
  exact hneg (hhalf.symm.trans (by decide))

/-- `+0.0` times a finite value is the zero of that value's sign. -/
theorem flMul_fZero {b : F32} (hb : fFinite b = true) : flMul fZero b = fBits (fSign b) 0 := by
  have hsign : (fSign fZero != fSign b) = fSign b := Bool.false_bne _
  have hnum : fMag fZero * fMag b = 0 := Nat.zero_mul _
  simp only [flMul, fFinite_not_nan hb, fFinite_not_inf hb, hsign, hnum, show fIsNaN fZero = false from rfl,
    show fIsInf fZero = false from rfl, Bool.or_self, Bool.false_eq_true, if_false, fPack, fNearest_zero (Nat.two_pow_pos 149)]

end Sys2Proof.Machine
end

section
/-! The stereo multiplexer and the mono path (43_stereo_mux): `MUX_STEP` and `MONO_STEP` by their formulas, and what the
multiplexer makes of identical channels. -/

namespace Sys2Proof.Machine

/-! ### The operations -/

/-- `MUX_STEP` on operands 0 and 1: the composite sample is the result, and the phase goes one further. -/
theorem exec_muxStep (s : State) :
    exec .muxStep s =
      .next (setResult [muxOut s.cfg s.dp.muxState (arg s 0) (arg s 1)]
        { s with dp := { s.dp with muxState := s.dp.muxState + 1 } }) :=
  rfl

/-- `MONO_STEP` on operands 0 and 1: only the result changes. -/
theorem exec_monoStep (s : State) :
    exec .monoStep s = .next (setResult [monoStep (channels s.csr.ctrl) (arg s 0, arg s 1)] s) :=
  rfl

theorem monoStep_channels (c : Ctrl) (l r : F32) :
    monoStep (channels c) (l, r) = if c.nch2 = false then l else flMul (flAdd l r) fHalf := by
  cases h : c.nch2 <;> simp [monoStep, channels, h]

/-- Neither port takes a word of class 9. -/
theorem decodePort_of_class_nine {w : Word} (h : w.extractLsb' 28 4 = 0x9#4) (p : Port) : decodePort p w = .illegal .none := by
  obtain ⟨-, -, -, -, -, -, -, -, internal⟩ := portsRefuseOtherWords w
  exact internal p (.inr (.inl h))

/-- Settles O14: the tables are the rule's, entry by entry, and the meaning is the formula by `exec_muxStep`. -/
theorem muxStepFollowsItsFormula : Obligations.MuxStepFollowsItsFormula := by
  unfold Obligations.MuxStepFollowsItsFormula
  intro s l r st doubleSine pilotSine a b c d h f g
  have hdouble : doubleSine = double st := by
    simp only [doubleSine]
    generalize st = k
    fin_cases k <;> rfl
  have hpilot : pilotSine = pilot st := by
    simp only [pilotSine]
    generalize st = k
    fin_cases k <;> rfl
  have hout : flAdd f g = muxOut s.cfg st l r := by
    simp only [f, g, h, d, c, hdouble, hpilot]
    rfl
  refine ⟨rfl, decodePort_of_class_nine rfl, st + 1, Fin.val_add st 1, ?_⟩
  rw [hout]
  exact exec_muxStep s

/-- Settles O16: the number of channels is `CTRL.NCH2` by `monoStep_channels`. -/
theorem monoStepFollowsItsFormula : Obligations.MonoStepFollowsItsFormula := by
  unfold Obligations.MonoStepFollowsItsFormula
  intro s l r
  refine ⟨rfl, decodePort_of_class_nine rfl, ?_⟩
  rw [exec_monoStep, monoStep_channels]
  rfl

/-! ### Identical channels -/

theorem fFinite_double (st : Fin 8) : fFinite (double st) = true := by
  revert st
  decide

/-- Of identical channels the difference is `+0.0`, the cross term a zero, and the halved sum the channels' own value. -/
theorem muxOut_identical (cfg : Config) (st : Fin 8) {l : F32} (hneg : l ≠ 0x80000000#32) (hexp : fExp l < 254) :
    muxOut cfg st l l = flAdd (flMul cfg.muxGain l) (flMul cfg.pilotGain (pilot st)) := by
  have hcross : flMul (flSub l l) (double st) = fBits (fSign (double st)) 0 := by
    rw [flSub_self (fFinite_of_fExp_lt hexp), flMul_fZero (fFinite_double st)]
  have hsum : flAdd (flAdd l l) (fBits (fSign (double st)) 0) = flAdd l l :=
    flAdd_fBits_zero (fFinite_flAdd_self hexp) fun hz => absurd hz (flAdd_self_ne_negZero hexp hneg)
  simp only [muxOut, hcross, hsum, flMul_flAdd_self_fHalf hexp]

/-- Settles O15: the result of `MUX_STEP` is `muxOut`, which `muxOut_identical` computes. -/
theorem muxOfIdenticalChannelsIsGainAndPilot : Obligations.MuxOfIdenticalChannelsIsGainAndPilot := by
  unfold Obligations.MuxOfIdenticalChannelsIsGainAndPilot
  intro s l hsame hneg hexp
  have hout : muxOut s.cfg s.dp.muxState (arg s 0) (arg s 1) = muxOut s.cfg s.dp.muxState l l :=
    congrArg (muxOut s.cfg s.dp.muxState l) hsame.symm
  exact ⟨_, exec_muxStep s, congrArg (fun y => [y]) (hout.trans (muxOut_identical s.cfg s.dp.muxState hneg hexp))⟩

end Sys2Proof.Machine
end

section
/-! The data encoder (44_data_encoder): `ENC_STEP` by its formula, what an inactive encoder passes, and the payload bits that a run
of `ENC_STEP` fetches. -/

namespace Sys2Proof.Machine

/-! ### When it runs (R260, R261) -/

theorem encActive_iff (c : Csrs) : encActive c = true ↔ c.ctrl.encEn = true ∧ c.payloadLen ≠ 0 := by
  rw [encActive, Bool.and_eq_true, bne_iff_ne]

theorem encActive_of_length {c : Csrs} (hen : c.ctrl.encEn = true) (hlen : 1 ≤ c.payloadLen.toNat) : encActive c = true :=
  (encActive_iff c).mpr ⟨hen, fun hz => absurd (hz ▸ hlen) (by decide)⟩

theorem encActive_eq_false {c : Csrs} (h : c.ctrl.encEn = false ∨ c.payloadLen = 0) : encActive c = false := by
  rw [Bool.eq_false_iff, ne_eq, encActive_iff]
  rintro ⟨hen, hlen⟩
  obtain hoff | hempty := h
  · exact Bool.false_ne_true (hoff.symm.trans hen)
  · exact hlen hempty

/-- An active `ENC_STEP` under its precondition: the sample of `encStep` is the result, and its state is put back. -/
theorem exec_encStep {s : State} (hact : encActive s.csr = true) (hready : encReady s.cfg s.csr s.dp = true) :
    exec .encStep s =
      .next (setResult [(encStep s.cfg s.payload s.csr.payloadLen.toNat s.dp (arg s 0)).1]
        { s with dp := (encStep s.cfg s.payload s.csr.payloadLen.toNat s.dp (arg s 0)).2 }) := by
  obtain ⟨hoff, -⟩ | ⟨-, ⟨hout, -⟩ | ⟨-, hx⟩⟩ := execEncStep_cases s
  · exact absurd (hoff.symm.trans hact) Bool.false_ne_true
  · exact absurd (hout.symm.trans hready) Bool.false_ne_true
  · exact hx

theorem exec_encStep_inactive {s : State} (hoff : encActive s.csr = false) : exec .encStep s = .next (setResult [arg s 0] s) := by
  obtain ⟨-, hx⟩ | ⟨hact, -⟩ := execEncStep_cases s
  · exact hx
  · exact absurd (hoff.symm.trans hact) Bool.false_ne_true

/-- Settles O18: neither the stage of a `PUSH` nor an `ENC_STEP` of its own does anything while `encActive` is false. -/
theorem inactiveEncoderPassesSamples : Obligations.InactiveEncoderPassesSamples := by
  unfold Obligations.InactiveEncoderPassesSamples
  intro s dp zs h
  have hoff := encActive_eq_false h
  refine ⟨?_, exec_encStep_inactive hoff⟩
  rw [encoderStage, hoff]
  rfl

/-! ### One sample (R260, R262) -/

/-- The bit fetch moves the cursor and the symbol bit, each at phase 0 only. -/
theorem encFetch_eq (p : List Host.Cell) (len : Nat) (dp : Datapath) :
    encFetch p len dp = { dp with
      cursor := if dp.encPhase = 0 then (dp.cursor + 1) % (8 * len) else dp.cursor
      sym := if dp.encPhase = 0 then dp.sym ^^ payloadBit p dp.cursor else dp.sym } := by
  unfold encFetch
  split <;> rfl

/-- The printed table of R262, at the phase modulo 8. -/
theorem sub_ofNat (ph : Nat) :
    sub (Fin.ofNat 8 ph) = match ph % 8 with
      | 0 => 0x00000000#32 | 1 => 0x3F3504F3#32 | 2 => 0x3F800000#32 | 3 => 0x3F3504F3#32
      | 4 => 0x00000000#32 | 5 => 0xBF3504F3#32 | 6 => 0xBF800000#32 | _ => 0xBF3504F3#32 := by
  have hval : (Fin.ofNat 8 ph).val = ph % 8 := rfl
  rw [← hval]
  generalize Fin.ofNat 8 ph = k
  fin_cases k <;> rfl

/-- Settles O17: the meaning is `encStep` by `exec_encStep`, whose parts are the formula's own once the fetch is written as
`encFetch_eq` and the sine as `sub_ofNat`. -/
theorem encStepFollowsItsFormula : Obligations.EncStepFollowsItsFormula := by
  unfold Obligations.EncStepFollowsItsFormula
  intro s x len n ph bit cursor sym e sv level sine y hen hone hmax hcur
  have hsine : sub (Fin.ofNat 8 ph) = sine := sub_ofNat ph
  have hstep : encStep s.cfg s.payload len s.dp x =
      (y, { s.dp with cursor := cursor, sym := sym, level := level, encPhase := (ph + 1) % s.cfg.encPeriod }) := by
    simp only [encStep, encFetch_eq, encAdd, y, ← hsine]
    rfl
  calc exec .encStep s
      = .next (setResult [(encStep s.cfg s.payload len s.dp x).1] { s with dp := (encStep s.cfg s.payload len s.dp x).2 }) :=
        exec_encStep (encActive_of_length hen hone) (decide_eq_true ⟨hmax, hcur⟩)
    _ = _ := by rw [hstep]; rfl

/-! ### A run of samples (R263, R264) -/

/-- How many payload bits `k` samples from phase 0 fetch, with a symbol of `period` samples. -/
def bitsFetched (period k : Nat) : Nat := (k + period - 1) / period

/-- The symbol bit after the first `n` bits of the payload, taken circularly. -/
def symbolAfter (p : List Host.Cell) (len : Nat) (sym : Bool) (n : Nat) : Bool :=
  (List.range n).foldl (fun b j => b ^^ payloadBit p (j % (8 * len))) sym

/-- Where the encoder stands `k` samples after phase 0, cursor 0 and the symbol bit `sym`. -/
structure EncoderAt (cfg : Config) (p : List Host.Cell) (len : Nat) (sym : Bool) (k : Nat) (dp : Datapath) : Prop where
  phase : dp.encPhase = k % cfg.encPeriod
  cursor : dp.cursor = bitsFetched cfg.encPeriod k % (8 * len)
  symbol : dp.sym = symbolAfter p len sym (bitsFetched cfg.encPeriod k)

theorem bitsFetched_zero {period : Nat} (h : 1 ≤ period) : bitsFetched period 0 = 0 :=
  Nat.div_eq_of_lt (by omega)

/-- A sample fetches a bit exactly at phase 0. -/
theorem bitsFetched_succ {period : Nat} (h : 1 ≤ period) (k : Nat) :
    bitsFetched period (k + 1) = if k % period = 0 then bitsFetched period k + 1 else bitsFetched period k := by
  have hnext : k + 1 + period - 1 = k + period - 1 + 1 := by omega
  have hlast : k + period - 1 + 1 = k + period := by omega
  rw [bitsFetched, bitsFetched, hnext, Nat.succ_div, hlast]
  simp only [Nat.dvd_iff_mod_eq_zero, Nat.add_mod_right]
  split <;> rfl

theorem symbolAfter_succ (p : List Host.Cell) (len : Nat) (sym : Bool) (n : Nat) :
    symbolAfter p len sym (n + 1) = (symbolAfter p len sym n ^^ payloadBit p (n % (8 * len))) := by
  simp only [symbolAfter, List.range_succ, List.foldl_append, List.foldl_cons, List.foldl_nil]

theorem EncoderAt.initial {cfg : Config} {dp : Datapath} (p : List Host.Cell) (len : Nat) (hperiod : 1 ≤ cfg.encPeriod)
    (hphase : dp.encPhase = 0) (hcursor : dp.cursor = 0) : EncoderAt cfg p len dp.sym 0 dp where
  phase := by rw [hphase, Nat.zero_mod]
  cursor := by rw [hcursor, bitsFetched_zero hperiod, Nat.zero_mod]
  symbol := by rw [bitsFetched_zero hperiod]; rfl

/-- One more sample: at phase 0 the next bit in order is fetched, and at any other phase none is. -/
theorem EncoderAt.next {cfg : Config} {p : List Host.Cell} {len k : Nat} {sym : Bool} {dp : Datapath}
    (hperiod : 1 ≤ cfg.encPeriod) (x : F32) (h : EncoderAt cfg p len sym k dp) :
    EncoderAt cfg p len sym (k + 1) (encStep cfg p len dp x).2 where
  phase := by rw [encStep_encPhase, h.phase, Nat.mod_add_mod]
  cursor := by
    rw [encStep_cursor, h.phase, h.cursor, bitsFetched_succ hperiod]
    split
    · rw [Nat.mod_add_mod]
    · rfl
  symbol := by
    rw [encStep_sym, h.phase, h.cursor, h.symbol, bitsFetched_succ hperiod]
    split
    · rw [symbolAfter_succ]
    · rfl

/-- `ENC_STEP` performed on a sample: one result, and only the datapath and the environment differ. -/
theorem perform_encStep {s : State} (x : F32) (hact : encActive s.csr = true) (hready : encReady s.cfg s.csr s.dp = true) :
    ∃ y env, perform .encStep [x] s =
      some ([y], { s with dp := (encStep s.cfg s.payload s.csr.payloadLen.toNat s.dp x).2, env := env }) := by
  have hexec := exec_encStep (s := handArgs [x] s) hact hready
  exact ⟨_, _, by rw [perform, hexec]; rfl⟩

/-- A run of any length from where the encoder stands: the precondition holds before every sample, since the cursor is always taken
modulo the payload's length in bits. -/
theorem encodeBlock_run {s : State} {sym : Bool} {k : Nat} (xs : List F32) (hen : s.csr.ctrl.encEn = true)
    (hone : 1 ≤ s.csr.payloadLen.toNat) (hmax : s.csr.payloadLen.toNat ≤ s.cfg.payloadMax) (hperiod : 1 ≤ s.cfg.encPeriod)
    (h : EncoderAt s.cfg s.payload s.csr.payloadLen.toNat sym k s.dp) :
    ∃ ys t, encodeBlock xs s = some (ys, t) ∧ ys.length = xs.length ∧
      EncoderAt s.cfg s.payload s.csr.payloadLen.toNat sym (k + xs.length) t.dp := by
  induction xs generalizing s k with
  | nil => exact ⟨[], s, rfl, rfl, h⟩
  | cons x xs ih =>
    have hcur : s.dp.cursor < 8 * s.csr.payloadLen.toNat := by rw [h.cursor]; exact Nat.mod_lt _ (by omega)
    obtain ⟨y, env, hx⟩ := perform_encStep x (encActive_of_length hen hone) (decide_eq_true ⟨hmax, hcur⟩)
    obtain ⟨ys, t, hxs, hlen, hlast⟩ :=
      ih (s := { s with dp := (encStep s.cfg s.payload s.csr.payloadLen.toNat s.dp x).2, env := env }) hen hone hmax hperiod
        (h.next hperiod x)
    refine ⟨y :: ys, t, performEach_cons hx hxs, congrArg Nat.succ hlen, ?_⟩
    rwa [List.length_cons, Nat.add_comm xs.length, ← Nat.add_assoc]

/-- Settles O19: a run from phase 0 and cursor 0 (`encodeBlock_run`), read off the invariant. -/
theorem encoderVisitsEveryPayloadBitInOrder : Obligations.EncoderVisitsEveryPayloadBitInOrder := by
  unfold Obligations.EncoderVisitsEveryPayloadBitInOrder
  intro s xs len fetched hen hone hmax hperiod hphase hcursor
  obtain ⟨ys, t, hrun, hlen, hlast⟩ :=
    encodeBlock_run xs hen hone hmax hperiod (.initial s.payload len hperiod hphase hcursor)
  rw [Nat.zero_add] at hlast
  exact ⟨ys, t, hrun, hlen, hlast.phase, hlast.cursor, hlast.symbol⟩

end Sys2Proof.Machine
end

section
/-! The ring buffer and the consumer's reads (45_fifo): the ring as a queue under a write and a read, `FIFO_WRITE` and `CONS_READ` by
their two outcomes, `START_CHECK`, and the holds of the consumer's two operations. -/

namespace Sys2Proof.Machine

/-! ### The occupancy (R280) -/

theorem occupancy_lt {s : State} (hcap : 0 < s.cfg.cap) : occupancy s < s.cfg.cap := by
  have hlt := Int.emod_lt_of_pos ((s.ring.ipos : Int) - s.ring.opos) (Int.natCast_pos.mpr hcap)
  have hnonneg := Int.emod_nonneg ((s.ring.ipos : Int) - s.ring.opos) (Int.natCast_pos.mpr hcap).ne'
  unfold occupancy
  omega

/-- The occupancy is how far the read cursor stands behind the write cursor, round the ring. -/
theorem opos_add_occupancy {s : State} (hcap : 0 < s.cfg.cap) : s.ring.opos + occupancy s ≡ s.ring.ipos [MOD s.cfg.cap] := by
  have hnonneg := Int.emod_nonneg ((s.ring.ipos : Int) - s.ring.opos) (Int.natCast_pos.mpr hcap).ne'
  rw [← Int.natCast_modEq_iff, Nat.cast_add, occupancy, Int.toNat_of_nonneg hnonneg]
  calc (s.ring.opos : Int) + ((s.ring.ipos : Int) - s.ring.opos) % s.cfg.cap
      ≡ s.ring.opos + (s.ring.ipos - s.ring.opos) [ZMOD s.cfg.cap] := (Int.mod_modEq _ _).add_left _
    _ = s.ring.ipos := by omega

/-- Two offsets below the ring's size that lead from one place to the same entry are the same. -/
theorem offset_unique {size base j k : Nat} (hj : j < size) (hk : k < size) (h : base + j ≡ base + k [MOD size]) : j = k :=
  (Nat.ModEq.add_left_cancel' base h).eq_of_lt_of_lt hj hk

theorem occupancy_eq {s : State} {k : Nat} (hk : k < s.cfg.cap) (h : s.ring.opos + k ≡ s.ring.ipos [MOD s.cfg.cap]) :
    occupancy s = k := by
  have hcap : 0 < s.cfg.cap := Nat.zero_lt_of_lt hk
  exact offset_unique (occupancy_lt hcap) hk ((opos_add_occupancy hcap).trans h.symm)

/-- One entry always stays free (R280). -/
theorem le_freeSpace_iff {s : State} {m : Nat} (hcap : 0 < s.cfg.cap) :
    m ≤ freeSpace s ↔ m + occupancy s + 1 ≤ s.cfg.cap := by
  have hlt := occupancy_lt hcap
  unfold freeSpace
  omega

/-! ### Consecutive entries of the ring -/

/-- The `n` entries of the ring from `base` on, round its end. -/
def ringSpan (s : State) (base n : Nat) : List F32 := (List.range n).map fun i => fifoRead s ((base + i) % s.cfg.cap)

theorem ringOldest_eq_ringSpan (n : Nat) (s : State) : ringOldest n s = ringSpan s s.ring.opos n := rfl

theorem ringContents_eq_ringSpan (s : State) : ringContents s = ringSpan s s.ring.opos (occupancy s) := rfl

theorem ringSpan_length (s : State) (base n : Nat) : (ringSpan s base n).length = n := by
  rw [ringSpan, List.length_map, List.length_range]

theorem ringSpan_add (s : State) (base m n : Nat) : ringSpan s base (m + n) = ringSpan s base m ++ ringSpan s (base + m) n := by
  simp only [ringSpan, List.range_add, List.map_append, List.map_map, Function.comp_def, Nat.add_assoc]

/-- Where a span begins matters modulo the ring's size only. -/
theorem ringSpan_modEq {s : State} {a b : Nat} (n : Nat) (h : a ≡ b [MOD s.cfg.cap]) : ringSpan s a n = ringSpan s b n :=
  List.map_congr_left fun i _ => congrArg (fifoRead s) (h.add_right i)

/-! ### A write: the block goes to the end of the queue (R281, R284) -/

theorem fifoRead_ringAccept_of_ne {s : State} {zs : List F32} {a : Nat}
    (h : ∀ i < zs.length, a ≠ (s.ring.ipos + i) % s.cfg.cap) : fifoRead (ringAccept zs s) a = fifoRead s a :=
  Memory.read_putRing_of_ne _ _ zs _ a h

theorem occupancy_ringAccept {s : State} {zs : List F32} (h : zs.length + occupancy s + 1 ≤ s.cfg.cap) :
    occupancy (ringAccept zs s) = occupancy s + zs.length := by
  apply occupancy_eq
  · rw [ringAccept_cfg]
    omega
  · calc s.ring.opos + (occupancy s + zs.length)
        = s.ring.opos + occupancy s + zs.length := (Nat.add_assoc _ _ _).symm
      _ ≡ s.ring.ipos + zs.length [MOD s.cfg.cap] := (opos_add_occupancy (by omega)).add_right _
      _ ≡ (s.ring.ipos + zs.length) % s.cfg.cap [MOD s.cfg.cap] := (Nat.mod_modEq _ _).symm

/-- The entries written are the block. -/
theorem ringSpan_ringAccept_new {s : State} {zs : List F32} (h : zs.length ≤ s.cfg.cap) :
    ringSpan (ringAccept zs s) s.ring.ipos zs.length = zs := by
  apply List.ext_getElem (ringSpan_length _ _ _)
  intro k hk hk'
  simp only [ringSpan, List.getElem_map, List.getElem_range]
  exact Memory.read_putRing _ zs _ k h hk'

/-- A block that fits does not reach the entries waiting to be read. -/
theorem ringSpan_ringAccept_old {s : State} {zs : List F32} (h : zs.length + occupancy s + 1 ≤ s.cfg.cap) :
    ringSpan (ringAccept zs s) s.ring.opos (occupancy s) = ringContents s := by
  refine List.map_congr_left fun k hk => fifoRead_ringAccept_of_ne fun i hi heq => ?_
  have hk := List.mem_range.mp hk
  have hsame : s.ring.opos + k ≡ s.ring.opos + (occupancy s + i) [MOD s.cfg.cap] := by
    calc s.ring.opos + k
        ≡ s.ring.ipos + i [MOD s.cfg.cap] := heq
      _ ≡ s.ring.opos + occupancy s + i [MOD s.cfg.cap] := (opos_add_occupancy (by omega)).symm.add_right i
      _ = s.ring.opos + (occupancy s + i) := Nat.add_assoc _ _ _
  have := offset_unique (by omega) (by omega) hsame
  omega

theorem ringContents_ringAccept {s : State} {zs : List F32} (h : zs.length + occupancy s + 1 ≤ s.cfg.cap) :
    ringContents (ringAccept zs s) = ringContents s ++ zs := by
  calc ringContents (ringAccept zs s)
      = ringSpan (ringAccept zs s) s.ring.opos (occupancy s + zs.length) := by
        rw [ringContents_eq_ringSpan, occupancy_ringAccept h, ringAccept_ring]
    _ = ringContents s ++ ringSpan (ringAccept zs s) (s.ring.opos + occupancy s) zs.length := by
        rw [ringSpan_add, ringSpan_ringAccept_old h]
    _ = ringContents s ++ ringSpan (ringAccept zs s) s.ring.ipos zs.length := by
        rw [ringSpan_modEq (s := ringAccept zs s) zs.length (opos_add_occupancy (s := s) (by omega))]
    _ = ringContents s ++ zs := by rw [ringSpan_ringAccept_new (by omega)]

theorem argList_length (s : State) (m : Nat) : (argList s m).length = m := by rw [argList, List.length_map, List.length_range]

/-- `FIFO_WRITE` of a block that fits: the ring accepts the operands. -/
theorem exec_fifoWrite_fits {s : State} {m : Nat} (hcap : 0 < s.cfg.cap) (h : m + occupancy s + 1 ≤ s.cfg.cap) :
    exec (.fifoWrite m) s =
      .next { s with ring := (ringAccept (argList s m) s).ring, env := { s.env with res := [], dropped := false } } := by
  obtain ⟨-, hx⟩ | ⟨hfull, -⟩ := execFifoWrite_cases m s
  · exact hx
  · exact absurd ((le_freeSpace_iff hcap).mpr h) (by omega)

/-- Settles O20: the state after the write holds the ring of `ringAccept`, whose contents are `ringContents_ringAccept`. -/
theorem fifoWriteAppendsABlockThatFits : Obligations.FifoWriteAppendsABlockThatFits := by
  unfold Obligations.FifoWriteAppendsABlockThatFits
  intro s m occ hcap _ _ hfits
  have hlen := argList_length s m
  have hblock : (argList s m).length + occupancy s + 1 ≤ s.cfg.cap := by rwa [hlen]
  refine ⟨_, exec_fifoWrite_fits (by omega) hfits, ringContents_ringAccept hblock, ?_, rfl, ?_, rfl⟩
  · simp only [ringAccept_ring, hlen]
  · intro a ha
    exact fifoRead_ringAccept_of_ne (zs := argList s m) (by rwa [hlen])

/-! ### A block that does not fit (R281, R283) -/

/-- `FIFO_WRITE` of a block that does not fit: an overrun. -/
theorem exec_fifoWrite_full {s : State} {m : Nat} (hcap : 0 < s.cfg.cap) (h : s.cfg.cap < m + occupancy s + 1) :
    exec (.fifoWrite m) s =
      .next { s with csr := (overrun m s).csr, env := { s.env with res := [], dropped := true } } := by
  obtain ⟨hfits, -⟩ | ⟨-, hx⟩ := execFifoWrite_cases m s
  · exact absurd ((le_freeSpace_iff hcap).mp hfits) (by omega)
  · exact hx

theorem satInc_eq (n : Word) : satInc n = BitVec.ofNat 32 (min (n.toNat + 1) 0xFFFFFFFF) := by
  rw [← satInc_toNat, BitVec.ofNat_toNat, BitVec.setWidth_eq]

/-- `CAUSE` with the information capped at its 16 bits (R283, R292, 60_exceptions R382). -/
theorem causeWord_min (c : Code) (n : Nat) :
    causeWord c (min n 0xFFFF) = BitVec.ofNat 32 (min n 0xFFFF * 2 ^ 16 + codeNum c) :=
  causeWord_eq c _ (by omega)

/-- Settles O21: the registers after an overrun are `overrun_csr`, inside and outside calibration. -/
theorem fifoWriteDropsABlockThatDoesNotFit : Obligations.FifoWriteDropsABlockThatDoesNotFit := by
  unfold Obligations.FifoWriteDropsABlockThatDoesNotFit
  intro s m occ counted hcap hfull
  rw [exec_fifoWrite_full (by omega) hfull, overrun_csr, satInc_eq, causeWord_min]
  cases s.csr.ctrl.cal <;> rfl

/-! ### The lazy start (R285) -/

/-- Settles O22: the word is of class 9, and the lazy start is `startCheck_eq`. -/
theorem startCheckStartsAtTheDelay : Obligations.StartCheckStartsAtTheDelay := by
  unfold Obligations.StartCheckStartsAtTheDelay
  intro s
  refine ⟨rfl, decodePort_of_class_nine rfl, ?_⟩
  calc exec .startCheck s
      = .next (setResult [] (startCheck s)) := rfl
    _ = _ := by rw [startCheck_eq]; rfl

/-! ### A read: the chunk comes off the front of the queue (R290) -/

theorem consEnabled_iff (s : State) :
    consEnabled s = true ↔
      s.cons.phase = .idle ∧ s.csr.ctrl.run = true ∧ s.started = true ∧ s.csr.status.fatal = false := by
  simp only [consEnabled, Bool.and_eq_true, beq_iff_eq, Bool.not_eq_true', and_assoc]

/-- The contents of the ring are its `n` oldest samples, and then what a read of them leaves. -/
theorem ringContents_eq_append_ringRead {s : State} {n : Nat} (hcap : 0 < s.cfg.cap) (hn : n ≤ occupancy s) :
    ringContents s = ringOldest n s ++ ringContents (ringRead n s) := by
  have hlt := occupancy_lt hcap
  have hsplit : n + (occupancy s - n) = occupancy s := by omega
  have hnext : (s.ring.opos + n) % s.cfg.cap ≡ s.ring.opos + n [MOD s.cfg.cap] := Nat.mod_modEq _ _
  have hleft : occupancy (ringRead n s) = occupancy s - n := by
    apply occupancy_eq
    · rw [ringRead_cfg]
      omega
    · calc (s.ring.opos + n) % s.cfg.cap + (occupancy s - n)
          ≡ s.ring.opos + n + (occupancy s - n) [MOD s.cfg.cap] := hnext.add_right _
        _ = s.ring.opos + occupancy s := by omega
        _ ≡ s.ring.ipos [MOD s.cfg.cap] := opos_add_occupancy hcap
  calc ringContents s
      = ringSpan s s.ring.opos (n + (occupancy s - n)) := by rw [hsplit, ringContents_eq_ringSpan]
    _ = ringOldest n s ++ ringSpan s (s.ring.opos + n) (occupancy s - n) := ringSpan_add _ _ _ _
    _ = ringOldest n s ++ ringSpan s ((s.ring.opos + n) % s.cfg.cap) (occupancy s - n) := by rw [ringSpan_modEq _ hnext]
    _ = ringOldest n s ++ ringContents (ringRead n s) := by rw [← hleft]; rfl

/-- The chunk buffer after a read: the chunk in its first entries, and the others as before. -/
theorem cbufRead_ringRead {s : State} (n i : Nat) (hwf : Memory.wf (some fZero) s.cons.cbuf = true) :
    cbufRead (ringRead n s) i = if h : i < (ringOldest n s).length then (ringOldest n s)[i] else cbufRead s i := by
  have h := Memory.read_writeFrom fZero (ringOldest n s) 0 i hwf
  simp only [Nat.zero_le, true_and, Nat.zero_add, Nat.sub_zero] at h
  exact h

theorem chunkBuffer_ringRead {s : State} (n : Nat) (hwf : Memory.wf (some fZero) s.cons.cbuf = true) :
    chunkBuffer (ringRead n s) n = ringOldest n s := by
  have hlen : (chunkBuffer (ringRead n s) n).length = n := by rw [chunkBuffer, List.length_map, List.length_range]
  apply List.ext_getElem (hlen.trans (ringOldest_length n s).symm)
  intro i _ hi
  simp only [chunkBuffer, List.getElem_map, List.getElem_range]
  rw [cbufRead_ringRead n i hwf, dif_pos hi]

/-- An enabled `CONS_READ` with enough samples: the ring is read and the chunk begins. -/
theorem exec_consRead_enough {s : State} (hen : consEnabled s = true) (hn : s.csr.chunk.toNat ≤ occupancy s) :
    exec .consRead s = .next (beginChunk s.csr.chunk.toNat (ringRead s.csr.chunk.toNat s)) := by
  obtain ⟨hoff, -⟩ | ⟨-, ⟨-, hx⟩ | ⟨hfew, -⟩⟩ := execConsRead_cases s
  · exact absurd (hoff.symm.trans hen) Bool.false_ne_true
  · exact hx
  · omega

/-- Settles O23: the chunk and the rest of the ring are the two parts of `ringContents_eq_append_ringRead`, and the chunk buffer is
that of `cbufRead_ringRead`. -/
theorem consReadTakesTheOldestSamples : Obligations.ConsReadTakesTheOldestSamples := by
  unfold Obligations.ConsReadTakesTheOldestSamples
  intro s n occ hidle hrun hstarted hfatal hcap _ _ hwf hn
  have hqueue := ringContents_eq_append_ringRead (s := s) (by omega) hn
  have htake : (ringContents s).take n = ringOldest n s := by rw [hqueue, List.take_left' (ringOldest_length n s)]
  have hdrop : (ringContents s).drop n = ringContents (ringRead n s) := by rw [hqueue, List.drop_left' (ringOldest_length n s)]
  have hrest : ∀ a, n ≤ a → cbufRead (ringRead n s) a = cbufRead s a := fun a ha => by
    rw [cbufRead_ringRead n a hwf, dif_neg (by rw [ringOldest_length]; omega)]
  exact ⟨_, exec_consRead_enough ((consEnabled_iff s).mpr ⟨hidle, hrun, hstarted, hfatal⟩) hn,
    (chunkBuffer_ringRead n hwf).trans htake.symm, hdrop.symm, hrest, rfl, rfl, rfl, rfl⟩

/-! ### An underrun (R292) -/

/-- An enabled `CONS_READ` with too few samples: an underrun, and the chunk begins. -/
theorem exec_consRead_few {s : State} (hen : consEnabled s = true) (hfew : occupancy s < s.csr.chunk.toNat) :
    exec .consRead s = .next (beginChunk s.csr.chunk.toNat (underrun (occupancy s) s)) := by
  obtain ⟨hoff, -⟩ | ⟨-, ⟨hn, -⟩ | ⟨-, hx⟩⟩ := execConsRead_cases s
  · exact absurd (hoff.symm.trans hen) Bool.false_ne_true
  · omega
  · exact hx

theorem underrun_eq (n : Nat) (s : State) :
    underrun n s = { s with csr := { s.csr with
      unrCnt := BitVec.ofNat 32 (min (s.csr.unrCnt.toNat + 1) 0xFFFFFFFF)
      status := { s.csr.status with unr := true }
      cause := BitVec.ofNat 32 (min n 0xFFFF * 2 ^ 16 + 2) } } := by
  have hcause : causeWord .underrun (min n 0xFFFF) = BitVec.ofNat 32 (min n 0xFFFF * 2 ^ 16 + 2) := causeWord_min .underrun n
  rw [← satInc_eq, ← hcause]
  rfl

/-- Settles O24: the underrun is `underrun_eq`, and beginning the chunk leaves the buffer. -/
theorem consReadUnderrunRefeedsTheStaleChunk : Obligations.ConsReadUnderrunRefeedsTheStaleChunk := by
  unfold Obligations.ConsReadUnderrunRefeedsTheStaleChunk
  intro s n occ hidle hrun hstarted hfatal hfew
  rw [exec_consRead_few ((consEnabled_iff s).mpr ⟨hidle, hrun, hstarted, hfatal⟩) hfew, underrun_eq]
  rfl

/-! ### Holds (R290, 46_modulator R310, 60_exceptions R398) -/

theorem modEnabled_iff (s : State) :
    modEnabled s = true ↔
      s.cons.phase = .proc ∧ s.csr.status.fatal = false ∧ fLe fOne s.csr.cps = true ∧
        ¬(s.mod.slotPtr ≤ s.env.dmaCur ∧ s.env.dmaCur ≤ s.mod.slotPtr + 3) := by
  simp only [modEnabled, Bool.and_eq_true, beq_iff_eq, Bool.not_eq_true', decide_eq_false_iff_not, and_assoc]

theorem exec_consRead_hold {s : State} (hoff : consEnabled s = false) : exec .consRead s = .next s := by
  obtain ⟨-, hx⟩ | ⟨hen, -⟩ := execConsRead_cases s
  · exact hx
  · exact absurd (hoff.symm.trans hen) Bool.false_ne_true

theorem exec_modStep_hold {s : State} (hoff : modEnabled s = false) : exec .modStep s = .next s := by
  obtain ⟨-, hx⟩ | ⟨hen, -⟩ := execModStep_cases s
  · exact hx
  · exact absurd (hoff.symm.trans hen) Bool.false_ne_true

/-- Settles O25: each reason for a hold contradicts one of the enabling conditions (`consEnabled_iff`, `modEnabled_iff`). -/
theorem holdsChangeNothing : Obligations.HoldsChangeNothing := by
  unfold Obligations.HoldsChangeNothing
  refine fun s => ⟨fun h => exec_consRead_hold (Bool.eq_false_iff.mpr fun hen => ?_),
    fun h => exec_modStep_hold (Bool.eq_false_iff.mpr fun hen => ?_)⟩
  · obtain ⟨hidle, hrun, hstarted, hfatal⟩ := (consEnabled_iff s).mp hen
    obtain hphase | hstop | hwait | hhalted := h
    · exact hphase hidle
    · exact Bool.false_ne_true (hstop.symm.trans hrun)
    · exact Bool.false_ne_true (hwait.symm.trans hstarted)
    · exact Bool.false_ne_true (hfatal.symm.trans hhalted)
  · obtain ⟨hproc, hfatal, hcps, hfree⟩ := (modEnabled_iff s).mp hen
    obtain hphase | hhalted | hunset | hbusy := h
    · exact hphase hproc
    · exact Bool.false_ne_true (hfatal.symm.trans hhalted)
    · exact Bool.false_ne_true (hunset.symm.trans hcps)
    · exact hfree hbusy

end Sys2Proof.Machine
end

section
/-! `MOD_STEP` (46_modulator): when it is performed, the slot and the state it leaves by their formulas, and the descriptor words
it does not touch. -/

namespace Sys2Proof.Machine

/-! ### When it is performed (R310) -/

/-- A `MOD_STEP` that goes on was a hold, or was enabled and is performed. -/
theorem exec_modStep_next {s t : State} (h : exec .modStep s = .next t) :
    (modEnabled s = false ∧ t = s) ∨ (modEnabled s = true ∧ t = modCommit s) := by
  obtain ⟨hoff, hx⟩ | ⟨hen, ⟨-, hx⟩ | ⟨-, ⟨-, hx⟩ | ⟨-, hx⟩⟩⟩ := execModStep_cases s <;> cases hx.symm.trans h
  · exact .inl ⟨hoff, rfl⟩
  · exact .inr ⟨hen, rfl⟩

theorem exec_modStep_enabled {s : State} (hen : modEnabled s = true) (hbuf : s.cons.cidx < s.cfg.cap - 1)
    (hslot : s.mod.slotPtr + 4 ≤ s.cfg.kDesc) : exec .modStep s = .next (modCommit s) := by
  obtain ⟨hoff, -⟩ | ⟨-, ⟨hfull, -⟩ | ⟨-, ⟨hlast, -⟩ | ⟨-, hx⟩⟩⟩ := execModStep_cases s
  · exact absurd (hoff.symm.trans hen) Bool.false_ne_true
  · omega
  · omega
  · exact hx

/-! ### The clamps (R312, R315) -/

theorem clampInt_eq (lo hi n : Int) : clampInt lo hi n = min hi (max lo n) := by
  unfold clampInt
  omega

theorem modFv_eq (s : State) : modFv s = min (modFt s) (modFvRaw s) := by
  unfold modFv
  omega

/-! ### The words of the slot (R317) -/

theorem slotWords_length (s : State) : (slotWords s).length = 4 := rfl

/-- The word at an address after a performed `MOD_STEP`: one of the slot's four, or as before. -/
theorem slotRead_modCommit {s : State} (a : Nat) (hwf : Memory.wf (some 0#32) s.mod.slot = true) :
    slotRead (modCommit s) a =
      if h : s.mod.slotPtr ≤ a ∧ a < s.mod.slotPtr + (slotWords s).length then (slotWords s)[a - s.mod.slotPtr]
      else slotRead s a := by
  rw [slotRead, modCommit_mod]
  exact Memory.read_writeFrom 0#32 (slotWords s) s.mod.slotPtr a hwf

theorem slotRead_modCommit_slot {s : State} (k : Nat) (hk : k < 4) (hwf : Memory.wf (some 0#32) s.mod.slot = true) :
    slotRead (modCommit s) (s.mod.slotPtr + k) = (slotWords s)[k]'hk := by
  rw [slotRead_modCommit _ hwf, dif_pos ⟨Nat.le_add_right _ _, Nat.add_lt_add_left hk _⟩]
  exact getElem_congr_idx (Nat.add_sub_cancel_left _ _)

theorem slotRead_modCommit_of_outside {s : State} {a : Nat} (ha : a < s.mod.slotPtr ∨ s.mod.slotPtr + 4 ≤ a)
    (hwf : Memory.wf (some 0#32) s.mod.slot = true) : slotRead (modCommit s) a = slotRead s a := by
  have hlen := slotWords_length s
  rw [slotRead_modCommit a hwf, dif_neg (by omega)]

/-! ### The chunk and the saturation event (R315, R319) -/

theorem consAdvance_proc {c : Consumer} (h : c.phase = .proc) :
    consAdvance c = { c with cidx := c.cidx + 1, phase := if c.cidx + 1 = c.clen then .idle else .proc } := by
  rw [consAdvance, h]

theorem modSat_lt (s : State) : modSat s < 2 ^ 16 := by
  unfold modSat
  repeat' split
  all_goals omega

/-- The registers after a performed `MOD_STEP`: untouched, or with one saturation event recorded. -/
theorem modCommit_csr_eq (s : State) :
    (modCommit s).csr = if modSat s = 0 then s.csr
      else { s.csr with
        status := { s.csr.status with modSat := true }
        satCnt := BitVec.ofNat 32 (min (s.csr.satCnt.toNat + 1) 0xFFFFFFFF)
        cause := BitVec.ofNat 32 (modSat s * 2 ^ 16 + 3) } := by
  have hcause : causeWord .modSat (modSat s) = BitVec.ofNat 32 (modSat s * 2 ^ 16 + 3) := causeWord_eq .modSat _ (modSat_lt s)
  rw [modCommit_csr, saturated_csr, satInc_eq, hcause]

/-- A performed `MOD_STEP` changes the modulator, the consumer and the registers, and nothing else. -/
theorem modCommit_eq (s : State) :
    modCommit s = { s with mod := modAdvance s, cons := consAdvance s.cons, csr := (modCommit s).csr } := by
  unfold modCommit
  split <;> rfl

/-- Settles O26: each variable of the statement is the model's function of that name, once the two clamps are written as a minimum
and a maximum; the slot is read by `slotRead_modCommit_slot` and the rest is `modCommit_eq`. -/
theorem modStepFollowsItsFormulas : Obligations.ModStepFollowsItsFormulas := by
  unfold Obligations.ModStepFollowsItsFormulas
  intro s cps v vp0 vp iv frac0 frac te ft fv t3 ferr sat p hproc hfatal hcps hfree hbuf hslot hwf
  have hiv : iv = modIv s := (clampInt_eq _ _ _).symm
  have hfrac0 : frac0 = modFracRaw s := by simp only [frac0, hiv]; rfl
  have hfrac : frac = modFrac s := by simp only [frac, hfrac0]; rfl
  have hfvRaw : fRound (flMul frac cps) = modFvRaw s := by rw [hfrac]; rfl
  have hfv : fv = modFv s := by rw [modFv_eq, ← hfvRaw]; rfl
  have hferr : ferr = modFerr s := by simp only [ferr, t3, hfv, hfrac]; rfl
  have hsat : sat = modSat s := by simp only [sat, hfvRaw, hfrac0, modSat, Bool.or_eq_true]; rfl
  refine ⟨modCommit s, exec_modStep_enabled ((modEnabled_iff s).mpr ⟨hproc, hfatal, hcps, hfree⟩) hbuf hslot, ?_⟩
  rw [hiv, hfv, hferr, hsat, modCommit_mod, ← consAdvance_proc hproc, ← modCommit_csr_eq]
  exact ⟨slotRead_modCommit_slot 0 (by decide) hwf, slotRead_modCommit_slot 1 (by decide) hwf,
    slotRead_modCommit_slot 2 (by decide) hwf, slotRead_modCommit_slot 3 (by decide) hwf,
    fun a ha => slotRead_modCommit_of_outside ha hwf, rfl, rfl, rfl, modCommit_eq s⟩

/-! ### The divider-table indices (R312, R317) -/

/-- The clamped table offset leaves room for both indices on either side. -/
theorem modIv_range {s : State} (hl : s.cfg.LegalTables) :
    -((s.cfg.center : Int) - 1) ≤ modIv s ∧ modIv s ≤ (s.cfg.divN : Int) - 2 - s.cfg.center := by
  obtain ⟨-, -, -, -, hdivMin, -, hcenter, hroom, -⟩ := hl
  rw [modIv, clampInt_eq, Config.ivMin, Config.ivMax]
  omega

theorem toNat_ofInt_of_range {n : Int} (h0 : 0 ≤ n) (h1 : n < 2 ^ 32) : ((BitVec.ofInt 32 n).toNat : Int) = n := by
  rw [BitVec.toNat_ofInt]
  omega

/-- Settles O27: the offset is in `modIv_range`, so that neither index wraps. -/
theorem slotIndicesStayInTheTable : Obligations.SlotIndicesStayInTheTable := by
  unfold Obligations.SlotIndicesStayInTheTable
  intro s hl
  obtain ⟨hlow, hhigh⟩ := modIv_range hl
  obtain ⟨-, -, -, -, -, hdivMax, hcenter, -, hstep⟩ := hl
  have hfirst := toNat_ofInt_of_range (n := s.cfg.center + modIv s + s.cfg.divStep) (by omega) (by omega)
  have hsecond := toNat_ofInt_of_range (n := s.cfg.center + modIv s - s.cfg.divStep) (by omega) (by omega)
  exact ⟨_, _, _, _, rfl, by omega, by omega, by omega⟩

/-! ### The word the DMA controller reads (R320, 20_memory R119) -/

/-- Settles O32: a performed `MOD_STEP` was enabled, so `DMA_CUR` is outside the slot it writes. -/
theorem modStepSparesTheDescriptorBeingRead : Obligations.ModStepSparesTheDescriptorBeingRead := by
  unfold Obligations.ModStepSparesTheDescriptorBeingRead
  intro s t hwf h
  obtain ⟨-, rfl⟩ | ⟨hen, rfl⟩ := exec_modStep_next h
  · rfl
  · obtain ⟨-, -, -, hfree⟩ := (modEnabled_iff s).mp hen
    rw [dmaReads, modCommit_env]
    exact slotRead_modCommit_of_outside (by omega) hwf

end Sys2Proof.Machine
end

section
/-! Bounds of the modulator's values (46_modulator R312 to R315): the table offset, the split fraction, the sample-length
accumulator and the two dwell lengths. -/

namespace Sys2Proof.Machine

/-! ### A rounded result between representable bounds -/

/-- A result that every representable bound of the exact value bounds, as rounding gives it, is finite and keeps bounds of at most
24 bits. -/
theorem between_of_bounds {x : F32} {below above : Int → Prop} {m n : Int} {j : Nat}
    (h : fIsNaN x = false ∧ (∀ y, fFinite y = true → below (fUnits y) → fUnits y ≤ fUnits x) ∧
      ∀ y, fFinite y = true → above (fUnits y) → fUnits x ≤ fUnits y)
    (hm : m.natAbs < 2 ^ 24) (hn : n.natAbs < 2 ^ 24) (hj : j ≤ 253) (hlow : below (m * 2 ^ j)) (hhigh : above (n * 2 ^ j)) :
    fFinite x = true ∧ m * 2 ^ j ≤ fUnits x ∧ fUnits x ≤ n * 2 ^ j := by
  obtain ⟨hnan, hge, hle⟩ := h
  obtain ⟨lo, hlo, hloUnits⟩ := exists_units hm hj
  obtain ⟨hi, hhi, hhiUnits⟩ := exists_units hn hj
  rw [← hloUnits] at hlow ⊢
  rw [← hhiUnits] at hhigh ⊢
  have hmin := hge lo hlo hlow
  have hmax := hle hi hhi hhigh
  exact ⟨fFinite_of_between hnan hlo hhi hmin hmax, hmin, hmax⟩

theorem flSub_between {a b : F32} {m n : Int} {j : Nat} (ha : fFinite a = true) (hb : fFinite b = true) (hm : m.natAbs < 2 ^ 24)
    (hn : n.natAbs < 2 ^ 24) (hj : j ≤ 253) (hlow : m * 2 ^ j ≤ fUnits a - fUnits b) (hhigh : fUnits a - fUnits b ≤ n * 2 ^ j) :
    fFinite (flSub a b) = true ∧ m * 2 ^ j ≤ fUnits (flSub a b) ∧ fUnits (flSub a b) ≤ n * 2 ^ j :=
  between_of_bounds (below := (· ≤ fUnits a - fUnits b)) (above := (fUnits a - fUnits b ≤ ·)) (flSub_bounds ha hb) hm hn hj
    hlow hhigh

theorem flAdd_between {a b : F32} {m n : Int} {j : Nat} (ha : fFinite a = true) (hb : fFinite b = true) (hm : m.natAbs < 2 ^ 24)
    (hn : n.natAbs < 2 ^ 24) (hj : j ≤ 253) (hlow : m * 2 ^ j ≤ fUnits a + fUnits b) (hhigh : fUnits a + fUnits b ≤ n * 2 ^ j) :
    fFinite (flAdd a b) = true ∧ m * 2 ^ j ≤ fUnits (flAdd a b) ∧ fUnits (flAdd a b) ≤ n * 2 ^ j :=
  between_of_bounds (below := (· ≤ fUnits a + fUnits b)) (above := (fUnits a + fUnits b ≤ ·)) (flAdd_bounds ha hb) hm hn hj
    hlow hhigh

/-- The exact product has the units of `2^-298`. -/
theorem flMul_between {a b : F32} {m n : Int} {j : Nat} (ha : fFinite a = true) (hb : fFinite b = true) (hm : m.natAbs < 2 ^ 24)
    (hn : n.natAbs < 2 ^ 24) (hj : j ≤ 253) (hlow : m * 2 ^ j * 2 ^ 149 ≤ fUnits a * fUnits b)
    (hhigh : fUnits a * fUnits b ≤ n * 2 ^ j * 2 ^ 149) :
    fFinite (flMul a b) = true ∧ m * 2 ^ j ≤ fUnits (flMul a b) ∧ fUnits (flMul a b) ≤ n * 2 ^ j :=
  between_of_bounds (below := (· * 2 ^ 149 ≤ fUnits a * fUnits b)) (above := (fUnits a * fUnits b ≤ · * 2 ^ 149))
    (flMul_bounds ha hb) hm hn hj hlow hhigh

/-! ### Results that are no NaN -/

/-- Only two infinities have a NaN for a sum of numbers. -/
theorem flAdd_not_nan {a b : F32} (ha : fIsNaN a = false) (hb : fIsNaN b = false)
    (h : fFinite a = true ∨ fFinite b = true) : fIsNaN (flAdd a b) = false := by
  have hinf : ¬(fIsInf a = true ∧ fIsInf b = true) := by
    rintro ⟨hia, hib⟩
    obtain hf | hf := h
    · exact absurd ((fFinite_not_inf hf).symm.trans hia) Bool.false_ne_true
    · exact absurd ((fFinite_not_inf hf).symm.trans hib) Bool.false_ne_true
  unfold flAdd
  simp only [ha, hb, Bool.or_self, Bool.false_eq_true, if_false]
  split
  · rename_i hia
    rw [if_neg (by simp only [Bool.and_eq_true]; exact fun hc => hinf ⟨hia, hc.1⟩)]
    exact ha
  · split
    · exact hb
    · split
      · cases (fSign a && fSign b) <;> rfl
      · exact fPack_not_nan _ _ _

theorem flSub_not_nan {a b : F32} (ha : fFinite a = true) (hb : fIsNaN b = false) : fIsNaN (flSub a b) = false :=
  flAdd_not_nan (fFinite_not_nan ha) ((fIsNaN_fNeg b).trans hb) (.inl ha)

theorem flMul_fHalf_not_nan {a : F32} (ha : fIsNaN a = false) : fIsNaN (flMul a fHalf) = false := by
  have hnan : fIsNaN fHalf = false := by decide
  have hinf : fIsInf fHalf = false := by decide
  have hzero : fIsZero fHalf = false := by decide
  unfold flMul
  simp only [ha, hnan, hinf, hzero, Bool.or_self, Bool.or_false, Bool.false_eq_true, if_false]
  split
  · rename_i hia
    have hza : fIsZero a = false := by
      rw [fIsInf_iff] at hia
      simp only [fIsZero, hia]
      rfl
    rw [hza, if_neg Bool.false_ne_true]
    cases (fSign a != fSign fHalf) <;> rfl
  · exact fPack_not_nan _ _ _

/-! ### The table offset (R311, R312) -/

theorem fFinite_modVp (s : State) : fFinite (modVp s) = true := by
  unfold modVp
  split
  · assumption
  · rfl

/-- The clamped offset has at most 24 bits, so that `fl32` of it is exact. -/
theorem fl32_modIv {s : State} (hl : s.cfg.LegalTables) :
    fFinite (fl32 (modIv s)) = true ∧ fUnits (fl32 (modIv s)) = modIv s * 2 ^ 149 := by
  obtain ⟨hlow, hhigh⟩ := modIv_range hl
  obtain ⟨-, -, -, -, -, hdivMax, hcenter, hroom, -⟩ := hl
  obtain ⟨y, hy, hunits⟩ := exists_units (n := modIv s) (j := 149) (by omega) (by decide)
  exact fl32_exact hy hunits

theorem modIv_of_unclamped {s : State} (hlow : s.cfg.ivMin ≤ modIvRaw s) (hhigh : modIvRaw s ≤ s.cfg.ivMax) :
    modIv s = modIvRaw s := by
  rw [modIv, clampInt_eq]
  omega

/-! ### The split fraction (R313, R315) -/

theorem fHalf_units : fFinite fHalf = true ∧ fUnits fHalf = 2 ^ 148 := by decide

/-- Without a clamp of the offset the split fraction is in `[0.25, 0.75]`: the difference is in `[-0.5, 0.5]`, and every bound on
the way is representable, so that rounding cannot cross it. -/
theorem modFracRaw_bounds {s : State} (hl : s.cfg.LegalTables) (hlow : s.cfg.ivMin ≤ modIvRaw s)
    (hhigh : modIvRaw s ≤ s.cfg.ivMax) :
    fFinite (modFracRaw s) = true ∧ 2 ^ 147 ≤ fUnits (modFracRaw s) ∧ fUnits (modFracRaw s) ≤ 3 * 2 ^ 147 := by
  obtain ⟨hivFin, hivUnits⟩ := fl32_modIv hl
  obtain ⟨hhalfFin, hhalfUnits⟩ := fHalf_units
  have hround : modIv s * 2 ^ 149 - 2 ^ 148 ≤ fUnits (modVp s) ∧ fUnits (modVp s) ≤ modIv s * 2 ^ 149 + 2 ^ 148 := by
    rw [modIv_of_unclamped hlow hhigh]
    exact fRound_spec (fFinite_modVp s)
  obtain ⟨hdFin, hdLow, hdHigh⟩ := flSub_between (m := -1) (n := 1) (j := 148) (fFinite_modVp s) hivFin (by decide) (by decide)
    (by decide) (by linarith) (by linarith)
  obtain ⟨hsFin, hsLow, hsHigh⟩ := flAdd_between (m := 1) (n := 3) (j := 148) hdFin fFinite_fOne (by decide) (by decide)
    (by decide) (by rw [fUnits_fOne]; omega) (by rw [fUnits_fOne]; omega)
  obtain ⟨hfin, hmin, hmax⟩ := flMul_between (m := 1) (n := 3) (j := 147) hsFin hhalfFin (by decide) (by decide) (by decide)
    (by rw [hhalfUnits]; omega) (by rw [hhalfUnits]; omega)
  rw [one_mul] at hmin
  exact ⟨hfin, hmin, hmax⟩

/-- Settles O30: a fraction in `modFracRaw_bounds` needs no clamp of its own. -/
theorem unclampedFractionLiesInTheMiddle : Obligations.UnclampedFractionLiesInTheMiddle := by
  unfold Obligations.UnclampedFractionLiesInTheMiddle
  intro s hl hlow hhigh
  obtain ⟨hfin, hmin, hmax⟩ := modFracRaw_bounds hl hlow hhigh
  have hquarter : fFinite 0x3E800000#32 = true ∧ fUnits 0x3E800000#32 = 2 ^ 147 := by decide
  have hthree : fFinite 0x3F400000#32 = true ∧ fUnits 0x3F400000#32 = 3 * 2 ^ 147 := by decide
  have hneg : ¬fLt (modFracRaw s) fZero = true := by
    rw [fLt_iff hfin rfl]
    exact not_lt.mpr (show (0 : Int) ≤ _ by omega)
  have hbig : ¬fLt fOne (modFracRaw s) = true := by
    rw [fLt_iff fFinite_fOne hfin, fUnits_fOne]
    omega
  rw [modFrac, if_neg hneg, if_neg hbig, fLe_iff hquarter.1 hfin, fLe_iff hfin hthree.1, hquarter.2, hthree.2]
  omega

theorem modFracRaw_not_nan (s : State) : fIsNaN (modFracRaw s) = false :=
  flMul_fHalf_not_nan (flAdd_not_nan (flSub_not_nan (fFinite_modVp s) (fl32_bounds _).1) (fFinite_not_nan fFinite_fOne)
    (.inr fFinite_fOne))

/-- In every state the clamped fraction is a number from 0 to 1. -/
theorem modFrac_bounds (s : State) :
    fFinite (modFrac s) = true ∧ 0 ≤ fUnits (modFrac s) ∧ fUnits (modFrac s) ≤ 2 ^ 149 := by
  have hzero : fFinite fZero = true ∧ fUnits fZero = 0 := by decide
  have hnan := modFracRaw_not_nan s
  unfold modFrac
  split
  · rw [hzero.2]
    exact ⟨rfl, by omega, by omega⟩
  · split
    · rw [fUnits_fOne]
      exact ⟨rfl, by omega, by omega⟩
    · rename_i hlow hhigh
      simp only [fLt, hnan, fFinite_not_nan hzero.1, fFinite_not_nan fFinite_fOne, hzero.2, fUnits_fOne, Bool.not_false,
        Bool.true_and, decide_eq_true_eq] at hlow hhigh
      have hmin : fUnits fZero ≤ fUnits (modFracRaw s) := by rw [hzero.2]; omega
      have hmax : fUnits (modFracRaw s) ≤ fUnits fOne := by rw [fUnits_fOne]; omega
      exact ⟨fFinite_of_between hnan hzero.1 fFinite_fOne hmin hmax, by omega, by omega⟩

/-! ### The sample-length accumulator (R314) -/

theorem legalCps_iff (w : F32) : legalCps w = true ↔ fFinite w = true ∧ 2 ^ 149 ≤ fUnits w ∧ fUnits w ≤ 2 ^ 173 := by
  have hmax : fFinite fCpsMax = true := by decide
  simp only [legalCps, Bool.and_eq_true, and_assoc]
  refine and_congr_right fun hw => ?_
  rw [fLe_iff fFinite_fOne hw, fLe_iff hw hmax, fUnits_fOne, fUnits_fCpsMax]

/-- A value of at least `2^23` is an integer: its significand has 24 bits. -/
theorem dvd_fMag_of_large {x : F32} (h : 2 ^ 172 ≤ fMag x) : 2 ^ 149 ∣ fMag x := by
  have hfrac : fFrac x < 2 ^ 23 := Nat.mod_lt _ (by decide)
  unfold fMag at h ⊢
  split at h
  · omega
  · rename_i hexp
    rw [if_neg hexp]
    have hlarge : 149 ≤ fExp x - 1 := by
      by_contra hsmall
      have hpow : 2 ^ (fExp x - 1) ≤ 2 ^ 148 := Nat.pow_le_pow_right (by decide) (by omega)
      have hle : (2 ^ 23 + fFrac x) * 2 ^ (fExp x - 1) ≤ (2 ^ 24 - 1) * 2 ^ 148 := Nat.mul_le_mul (by omega) hpow
      omega
    exact Dvd.dvd.mul_left (pow_dvd_pow 2 hlarge) _

/-- The floor of a finite value is itself a binary32 value. -/
theorem exists_fFloor {x : F32} (hx : fFinite x = true) : ∃ y : F32, fFinite y = true ∧ fUnits y = fFloor x * 2 ^ 149 := by
  obtain ⟨hlow, hhigh⟩ := fFloor_spec hx
  by_cases hsmall : (fFloor x).natAbs < 2 ^ 24
  · exact exists_units hsmall (by decide)
  · have hdvd : (2 ^ 149 : Int) ∣ fUnits x := by
      have habs := natAbs_fUnits x
      have hmag := dvd_fMag_of_large (x := x) (by omega)
      rw [← habs] at hmag
      exact_mod_cast Int.natCast_dvd.mpr hmag
    exact ⟨x, hx, by omega⟩

/-- The fractional part that the accumulator keeps is from 0 to 1. -/
theorem flSub_fFloor_bounds {x : F32} (hx : fFinite x = true) :
    fFinite (flSub x (fl32 (fFloor x))) = true ∧ 0 ≤ fUnits (flSub x (fl32 (fFloor x))) ∧
      fUnits (flSub x (fl32 (fFloor x))) ≤ 2 ^ 149 := by
  obtain ⟨y, hy, hunits⟩ := exists_fFloor hx
  obtain ⟨hfin, hfloor⟩ := fl32_exact hy hunits
  obtain ⟨hlow, hhigh⟩ := fFloor_spec hx
  obtain ⟨hdFin, hdMin, hdMax⟩ := flSub_between (m := 0) (n := 1) (j := 149) hx hfin (by decide) (by decide) (by decide)
    (by omega) (by omega)
  exact ⟨hdFin, by omega, by omega⟩

/-- The accumulator after a step is from 1 to `2^24`: `2^24 + 1`, the most the exact sum can be, is a tie and rounds down. -/
theorem modTe_bounds {s : State} (hcps : legalCps s.csr.cps = true) (hte : fFinite s.mod.te = true) :
    fFinite (modTe s) = true ∧ 2 ^ 149 ≤ fUnits (modTe s) ∧ fUnits (modTe s) ≤ 2 ^ 173 := by
  obtain ⟨hcFin, hcMin, hcMax⟩ := (legalCps_iff _).mp hcps
  obtain ⟨hfFin, hfMin, hfMax⟩ := flSub_fFloor_bounds hte
  obtain ⟨hnan, hge, -⟩ := flAdd_bounds hfFin hcFin
  have htop : fVal 0x4B800000 = 2 ^ 173 ∧ fVal (0x4B800000 + 1) = 2 ^ 173 + 2 ^ 150 := by decide
  have hmax : fFinite fCpsMax = true := by decide
  have hlow : fUnits fOne ≤ fUnits (modTe s) := hge fOne fFinite_fOne (by rw [fUnits_fOne]; omega)
  have hhigh : fUnits (modTe s) ≤ fVal 0x4B800000 :=
    flAdd_le_half hfFin hcFin (by decide) (by omega) (by rw [htop.1, htop.2]; push_cast; omega)
  rw [htop.1] at hhigh
  push_cast at hhigh
  refine ⟨fFinite_of_between hnan fFinite_fOne hmax hlow (by rw [fUnits_fCpsMax]; exact hhigh), ?_, hhigh⟩
  rwa [fUnits_fOne] at hlow

theorem modFt_bounds {s : State} (hcps : legalCps s.csr.cps = true) (hte : fFinite s.mod.te = true) :
    1 ≤ modFt s ∧ modFt s ≤ 2 ^ 24 := by
  obtain ⟨hfin, hmin, hmax⟩ := modTe_bounds hcps hte
  have hfloor := fFloor_spec hfin
  unfold modFt
  omega

/-! ### The dwell lengths (R314, R315) -/

theorem modFvRaw_nonneg {s : State} (hcps : legalCps s.csr.cps = true) : 0 ≤ modFvRaw s := by
  obtain ⟨hcFin, hcMin, hcMax⟩ := (legalCps_iff _).mp hcps
  obtain ⟨hfFin, hfMin, hfMax⟩ := modFrac_bounds s
  have hprod : fUnits (modFrac s) * fUnits s.csr.cps ≤ 2 ^ 149 * 2 ^ 173 := mul_le_mul hfMax hcMax (by omega) (by decide)
  have hpos : 0 ≤ fUnits (modFrac s) * fUnits s.csr.cps := mul_nonneg hfMin (by omega)
  obtain ⟨hfin, hmin, -⟩ := flMul_between (m := 0) (n := 1) (j := 173) hfFin hcFin (by decide) (by decide) (by decide) (by omega)
    (by omega)
  have hround := fRound_spec hfin
  unfold modFvRaw
  omega

/-- Settles O28: `fv` is from 0 to `ft`, so that neither dwell length wraps. -/
theorem dwellsAddUpToTheSampleLength : Obligations.DwellsAddUpToTheSampleLength := by
  unfold Obligations.DwellsAddUpToTheSampleLength
  intro s hcps hte
  have hft := modFt_bounds hcps hte
  have hraw := modFvRaw_nonneg hcps
  have hfv := modFv_eq s
  have hlow := toNat_ofInt_of_range (n := modFv s) (by omega) (by omega)
  have hhigh := toNat_ofInt_of_range (n := modFt s - modFv s) (by omega) (by omega)
  refine ⟨_, _, _, _, rfl, ?_, hft⟩
  rw [hlow, hhigh]
  exact add_sub_cancel _ _

end Sys2Proof.Machine
end

section
/-! What moves the modulator (46_modulator R314, R318): only a performed `MOD_STEP` and the resets, so that the accumulator stays
in range and the slot pointer goes round the descriptor ring. -/

namespace Sys2Proof.Machine

/-! ### The operations that leave the modulator -/

@[simp] theorem fifoWrite_mod (m : Nat) (zs : List F32) (s : State) : (fifoWrite m zs s).1.mod = s.mod := by
  obtain ⟨-, hw⟩ | ⟨-, hw⟩ := fifoWrite_cases m zs s <;> simp [hw]

@[simp] theorem pushBlock_mod (n : Nat) (ls rs : List F32) (s : State) : (pushBlock n ls rs s).mod = s.mod := by
  simp [pushBlock_eq]

theorem execCsrRd_mod {off : BitVec 12} {s t : State} (h : execCsrRd off s = .next t) : t.mod = s.mod := by
  obtain ⟨-, hx⟩ | ⟨-, hx⟩ := execCsrRd_cases off s <;> cases hx.symm.trans h
  · exact refuse_mod ..
  · rw [respond_mod, csrReadEffect_mod]

theorem execPush_mod {n : Nat} {s t : State} (h : execPush n s = .next t) : t.mod = s.mod := by
  obtain ⟨-, hx⟩ | ⟨-, ⟨-, hx⟩ | ⟨-, ⟨-, hx⟩ | ⟨-, ⟨-, hx⟩ | ⟨-, ⟨-, -, hx⟩ | ⟨-, ⟨-, hx⟩ | ⟨-, hx⟩⟩⟩⟩⟩⟩ :=
    execPush_cases n s <;> cases hx.symm.trans h
  · rfl
  · exact refuse_mod ..
  · exact refuse_mod ..
  · exact refuse_mod ..
  · exact fatalStop_mod ..
  · exact pushBlock_mod ..

theorem execConsRead_mod {s t : State} (h : execConsRead s = .next t) : t.mod = s.mod := by
  obtain ⟨-, hx⟩ | ⟨-, ⟨-, hx⟩ | ⟨-, hx⟩⟩ := execConsRead_cases s <;> cases hx.symm.trans h
  all_goals rfl

theorem execEncStep_mod {s t : State} (h : execEncStep s = .next t) : t.mod = s.mod := by
  obtain ⟨-, hx⟩ | ⟨-, ⟨-, hx⟩ | ⟨-, hx⟩⟩ := execEncStep_cases s <;> cases hx.symm.trans h
  all_goals rfl

theorem execFifoWrite_mod {m : Nat} {s t : State} (h : execFifoWrite m s = .next t) : t.mod = s.mod := by
  obtain ⟨-, hx⟩ | ⟨-, hx⟩ := execFifoWrite_cases m s <;> cases hx.symm.trans h
  all_goals rfl

/-- A register write leaves the modulator, or is the soft reset. -/
theorem execCsrWr_mod {off : BitVec 12} {w : Word} {s t : State} (h : execCsrWr off w s = .next t) :
    t.mod = s.mod ∨ (isReset (.csrWr off w) = true ∧ t.mod = Modulator.reset) := by
  obtain ⟨-, hx⟩ | ⟨-, -, -, hx⟩ | ⟨hal, -, ⟨u, hu, hx⟩ | ⟨c, -, hx⟩ | ⟨c, -, hx⟩⟩ := execCsrWr_cases off w s <;>
    cases hx.symm.trans h
  case inr.inr.inl =>
    rw [respond_mod]
    obtain ⟨hctrl, hbit, rfl⟩ | ⟨hu', -⟩ := csrWrite_accepted hu
    · have hsoft : isSoftReset off w = true := isSoftReset_iff.mpr ⟨hctrl, hbit⟩
      exact .inr ⟨by simp only [isReset, hal, hsoft, Bool.and_self], softReset_mod s⟩
    · exact .inl (by rw [hu'])
  case inr.inr.inr.inr => exact .inl (fatalStop_mod ..)
  all_goals exact .inl (refuse_mod ..)

/-- What an operation makes of the modulator: it leaves it, resets it, or is a performed `MOD_STEP`. -/
theorem exec_mod_cases {i : Instr} {s t : State} (h : exec i s = .next t) :
    t.mod = s.mod ∨ (isReset i = true ∧ t.mod = Modulator.reset) ∨
      (i = .modStep ∧ modEnabled s = true ∧ t = modCommit s) := by
  cases i with
  | csrRd off => exact .inl (execCsrRd_mod h)
  | csrWr off w => exact (execCsrWr_mod h).imp_right .inl
  | push n => exact .inl (execPush_mod h)
  | consRead => exact .inl (execConsRead_mod h)
  | modStep =>
    obtain ⟨-, rfl⟩ | ⟨hen, rfl⟩ := exec_modStep_next h
    · exact .inl rfl
    · exact .inr (.inr ⟨rfl, hen, rfl⟩)
  | encStep => exact .inl (execEncStep_mod h)
  | fifoWrite m => exact .inl (execFifoWrite_mod h)
  | startCheck => cases h; exact .inl (by rw [setResult_mod, startCheck_mod])
  | hwReset => cases h; exact .inr (.inl ⟨rfl, hardReset_mod s⟩)
  | preStep | rsmPush | muxStep | monoStep | dmaAdv => cases h; exact .inl rfl

/-! ### The next step: a reset, a performed `MOD_STEP`, or neither -/

theorem takesReset_of_run {s u : State} {i : Instr} (h : fetch s = .run i u) : takesReset s = isReset i := by
  rw [takesReset, h]

theorem performsModStep_of_run {s u : State} (h : fetch s = .run .modStep u) : performsModStep s = modEnabled u := by
  rw [performsModStep, h]

theorem exists_run_of_performsModStep {s : State} (h : performsModStep s = true) :
    ∃ u, fetch s = .run .modStep u ∧ modEnabled u = true := by
  unfold performsModStep at h
  split at h
  · exact ⟨_, ‹_›, h⟩
  · cases h

theorem fetch_mod {s u : State} (h : (fetch s).state? = some u) : u.mod = s.mod := by
  rw [fetch_state h]

/-- What a step makes of the modulator, where `u` is the state the fetch hands on. -/
theorem step_mod_cases {s t : State} (h : step s = .next t) :
    t.mod = s.mod ∨ (takesReset s = true ∧ t.mod = Modulator.reset) ∨
      ∃ u, fetch s = .run .modStep u ∧ modEnabled u = true ∧ t = modCommit u := by
  obtain ⟨i, u, hf, he⟩ | ⟨p, w, u, hf, rfl⟩ | hf := step_next h
  · obtain hkeep | ⟨hr, hreset⟩ | ⟨rfl, hen, rfl⟩ := exec_mod_cases he
    · exact .inl (hkeep.trans (fetch_mod (by rw [hf]; rfl)))
    · exact .inr (.inl ⟨(takesReset_of_run hf).trans hr, hreset⟩)
    · exact .inr (.inr ⟨u, hf, hen, rfl⟩)
  · exact .inl ((illegalOp_mod p w u).trans (fetch_mod (by rw [hf]; rfl)))
  · exact .inl (fetch_mod (by rw [hf]; rfl))

/-! ### The accumulator stays in range (R314) -/

theorem invAccumulator_of_bounds {s : State} (hfin : fFinite s.mod.te = true) (hlow : 0 ≤ fUnits s.mod.te)
    (hhigh : fUnits s.mod.te ≤ 2 ^ 173) : InvAccumulator s := by
  have hmax : fFinite fCpsMax = true := by decide
  refine ⟨hfin, (fLe_iff rfl hfin).mpr hlow, (fLe_iff hfin hmax).mpr ?_⟩
  rw [fUnits_fCpsMax]
  exact hhigh

/-- An enabled `MOD_STEP` sees a `CPS` that has been written (10_state R54). -/
theorem legalCps_of_modEnabled {s : State} (hb : BlockInv s) (hen : modEnabled s = true) : legalCps s.csr.cps = true := by
  obtain ⟨-, -, hcps, -⟩ := (modEnabled_iff s).mp hen
  obtain hzero | hlegal := hb.cps_legal
  · rw [hzero] at hcps
    exact absurd hcps (by decide)
  · exact hlegal

theorem modCommit_invAccumulator {s : State} (hb : BlockInv s) (h : InvAccumulator s) (hen : modEnabled s = true) :
    InvAccumulator (modCommit s) := by
  obtain ⟨hfin, -, -⟩ := h
  obtain ⟨htFin, htMin, htMax⟩ := modTe_bounds (legalCps_of_modEnabled hb hen) hfin
  have hte : (modCommit s).mod.te = modTe s := by rw [modCommit_mod]; rfl
  exact invAccumulator_of_bounds (hte ▸ htFin) (by rw [hte]; omega) (hte ▸ htMax)

theorem invAccumulator_of_mod {s t : State} (h : InvAccumulator s) (hm : t.mod = s.mod) : InvAccumulator t := by
  rw [InvAccumulator, hm]
  exact h

/-- Settles O29: a reset puts the accumulator to 0, and a performed `MOD_STEP` into the bounds of `modTe_bounds`. -/
theorem stepKeepsTheAccumulatorInRange : Obligations.StepKeepsTheAccumulatorInRange := by
  unfold Obligations.StepKeepsTheAccumulatorInRange
  intro s t hb h hstep
  obtain hkeep | ⟨-, hreset⟩ | ⟨u, hf, hen, rfl⟩ := step_mod_cases hstep
  · exact invAccumulator_of_mod h hkeep
  · exact invAccumulator_of_mod (invAccumulator_resetOf t.cfg) hreset
  · have hu : (fetch s).state? = some u := by rw [hf]; rfl
    exact modCommit_invAccumulator (fetch_blockInv hb hu) (invAccumulator_of_mod h (fetch_mod hu)) hen

/-! ### The slot pointer goes round (R318) -/

theorem step_slotPtr_of_modStep {s t : State} (h : step s = .next t) (hp : performsModStep s = true) :
    t.mod.slotPtr = (s.mod.slotPtr + 4) % s.cfg.kDesc := by
  obtain ⟨u, hf, hen⟩ := exists_run_of_performsModStep hp
  have hu : (fetch s).state? = some u := by rw [hf]; rfl
  obtain ⟨hoff, -⟩ | ⟨-, rfl⟩ := exec_modStep_next ((step_of_run hf).symm.trans h)
  · exact absurd (hoff.symm.trans hen) Bool.false_ne_true
  · rw [modCommit_mod, ← fetch_mod hu, ← fetch_cfg hu]
    rfl

theorem step_slotPtr_of_no_modStep {s t : State} (h : step s = .next t) (hr : takesReset s = false)
    (hp : performsModStep s = false) : t.mod.slotPtr = s.mod.slotPtr := by
  obtain hkeep | ⟨hreset, -⟩ | ⟨u, hf, hen, -⟩ := step_mod_cases h
  · rw [hkeep]
  · exact absurd (hr.symm.trans hreset) Bool.false_ne_true
  · exact absurd (hp.symm.trans ((performsModStep_of_run hf).trans hen)) Bool.false_ne_true

/-- A run keeps the parameters. -/
theorem run_cfg {st : Nat → State} {n : Nat} (h : ∀ j < n, step (st j) = .next (st (j + 1))) : (st n).cfg = (st 0).cfg := by
  induction n with
  | zero => rfl
  | succ n ih => exact (step_cfg (h n (Nat.lt_succ_self n))).trans (ih fun j hj => h j (Nat.lt_succ_of_lt hj))

/-- In a run with no reset each performed `MOD_STEP` moves the pointer by four, round the ring, and nothing else moves it. -/
theorem run_slotPtr {st : Nat → State} {n : Nat} (hptr : (st 0).mod.slotPtr < (st 0).cfg.kDesc)
    (h : ∀ j < n, step (st j) = .next (st (j + 1)) ∧ takesReset (st j) = false) :
    (st n).mod.slotPtr =
      ((st 0).mod.slotPtr + 4 * (List.range n).countP fun j => performsModStep (st j)) % (st 0).cfg.kDesc := by
  induction n with
  | zero => exact (Nat.mod_eq_of_lt hptr).symm
  | succ n ih =>
    have hrun : ∀ j < n, step (st j) = .next (st (j + 1)) ∧ takesReset (st j) = false := fun j hj => h j (Nat.lt_succ_of_lt hj)
    have hcfg := run_cfg fun j hj => (hrun j hj).1
    obtain ⟨hstep, hreset⟩ := h n (Nat.lt_succ_self n)
    rw [List.range_succ, List.countP_append, List.countP_singleton]
    cases hp : performsModStep (st n) with
    | false => rw [step_slotPtr_of_no_modStep hstep hreset hp, ih hrun]; rfl
    | true => rw [step_slotPtr_of_modStep hstep hp, ih hrun, hcfg, Nat.mod_add_mod]; rfl

/-- Settles O31: what an operation does to the pointer is `exec_mod_cases`, and a run of them is `run_slotPtr`; `K_DESC/4` steps
make one whole turn. -/
theorem slotPointerReturnsAfterTheRing : Obligations.SlotPointerReturnsAfterTheRing := by
  unfold Obligations.SlotPointerReturnsAfterTheRing
  constructor
  · intro s t i hi hr h
    obtain hkeep | ⟨hreset, -⟩ | ⟨hmod, -⟩ := exec_mod_cases h
    · rw [hkeep]
    · exact absurd (hr.symm.trans hreset) Bool.false_ne_true
    · exact absurd hmod hi
  · intro n st k _ hptr hrun
    have hround := run_slotPtr hptr hrun
    refine ⟨hround, fun hk => ?_⟩
    calc (st n).mod.slotPtr
        = ((st 0).mod.slotPtr + 4 * k) % (st 0).cfg.kDesc := hround
      _ = (st 0).mod.slotPtr := by rw [hk, Nat.add_mod_right, Nat.mod_eq_of_lt hptr]

end Sys2Proof.Machine
end

section
/-! `DMA_ADV` (46_modulator R325). -/

namespace Sys2Proof.Machine

/-- Neither port takes a word of class E. -/
theorem decodePort_of_class_environment {w : Word} (h : w.extractLsb' 28 4 = 0xE#4) (p : Port) :
    decodePort p w = .illegal .none := by
  obtain ⟨-, -, -, -, -, -, -, -, internal⟩ := portsRefuseOtherWords w
  exact internal p (.inr (.inr h))

/-- Settles O33: the word is of class E, and the meaning has one case. -/
theorem dmaAdvMovesToTheNextDescriptor : Obligations.DmaAdvMovesToTheNextDescriptor := by
  unfold Obligations.DmaAdvMovesToTheNextDescriptor
  exact fun s => ⟨rfl, decodePort_of_class_environment rfl, rfl⟩

end Sys2Proof.Machine
end

section
/-! Register reads (47_host_interface R342): the flag words as sums of their bits, the registers of the map by offset, and what
a read without a side effect answers. -/

namespace Sys2Proof.Machine

/-! ### The registers by offset (10_state R42, R63) -/

/-- A read of a memory returns a listed element, or what an unlisted address reads as. -/
theorem Memory.read_eq_or_mem {α : Type} (d : α) (m : List (Nat × α)) (i : Nat) :
    Memory.read d m i = d ∨ (i, Memory.read d m i) ∈ m := by
  induction m with
  | nil => exact .inl rfl
  | cons e m ih =>
    obtain ⟨j, v⟩ := e
    by_cases hij : i = j
    · refine .inr (List.mem_cons.mpr (.inl ?_))
      simp [Memory.read, Memory.get?, hij]
    · have htail : Memory.read d ((j, v) :: m) i = Memory.read d m i := by simp [Memory.read, Memory.get?, hij]
      rw [htail]
      exact ih.imp_right (List.mem_cons_of_mem _)

theorem csrAt_eq_reserved_or_mem (off : BitVec 12) : csrAt off = .reserved ∨ (off.toNat, csrAt off) ∈ csrMap :=
  Memory.read_eq_or_mem _ _ _

/-- Every offset from `0x06C` on is reserved. -/
theorem csrAt_reserved {off : BitVec 12} (h : 0x06C ≤ off.toNat) : csrAt off = .reserved := by
  have hmap : ∀ e ∈ csrMap, e.1 < 0x06C := by decide
  obtain hres | hmem := csrAt_eq_reserved_or_mem off
  · exact hres
  · exact absurd (hmap _ hmem) (by omega)

theorem aligned_of_mod {off : BitVec 12} (h : off.toNat % 4 = 0) : aligned off = true := by
  rw [aligned, h]
  rfl

/-! ### The flag words -/

theorem eq_ofNat_of_toNat {n k : Nat} {x : BitVec n} (h : x.toNat = k) : x = BitVec.ofNat n k := by
  rw [← h, BitVec.ofNat_toNat, BitVec.setWidth_eq]

theorem toNat_append_ofBool {n : Nat} (x : BitVec n) (b : Bool) : (x ++ BitVec.ofBool b).toNat = 2 * x.toNat + b.toNat := by
  rw [BitVec.toNat_append, BitVec.toNat_ofBool, ← Nat.shiftLeft_add_eq_or_of_lt b.toNat_lt, Nat.shiftLeft_eq]
  omega

theorem toNat_bitVec_zero (n : Nat) : (BitVec.zero n).toNat = 0 := Nat.zero_mod (2 ^ n)

/-- `CTRL` as it reads is the sum of its bits (10_state R44). -/
theorem ctrlWord_eq (c : Ctrl) :
    ctrlWord c = BitVec.ofNat 32 (c.stereoEn.toNat + 2 * c.resampEn.toNat + 4 * c.encEn.toNat + 8 * c.nch2.toNat
      + 16 * c.cal.toNat + 32 * c.run.toNat) := by
  apply eq_ofNat_of_toNat
  simp only [ctrlWord, toNat_append_ofBool, toNat_bitVec_zero]
  omega

/-- `STATUS` as it reads is the sum of its bits (10_state R45). -/
theorem statusWord_eq (s : State) :
    statusWord s = BitVec.ofNat 32 (s.csr.status.ovr.toNat + 2 * s.csr.status.unr.toNat + 4 * s.started.toNat
      + 8 * s.csr.status.modSat.toNat + 16 * s.csr.status.cfgErr.toNat + 32 * s.csr.status.fatal.toNat
      + 64 * (consBusy s).toNat) := by
  apply eq_ofNat_of_toNat
  simp only [statusWord, toNat_append_ofBool, toNat_bitVec_zero]
  simp [statusBit]
  omega

theorem consBusy_toNat (s : State) : (consBusy s).toNat = if s.cons.phase = .proc then 1 else 0 := by
  unfold consBusy
  cases s.cons.phase <;> rfl

/-! ### What a read answers -/

/-- A read of a register other than `PAYLOAD_DATA` answers its value and changes nothing (20_memory R109). -/
theorem exec_csrRd {off : BitVec 12} {r : Csr} {s : State} (ha : aligned off = true) (hr : csrAt off = r)
    (hp : r ≠ .payloadData) : exec (.csrRd off) s = .next (respond .control false (csrValue r s) s) := by
  have heffect : csrReadEffect r s = s := if_neg fun h => hp h.1
  obtain ⟨hmis, -⟩ | ⟨-, hx⟩ := execCsrRd_cases off s
  · exact absurd (ha.symm.trans hmis) Bool.true_eq_false.mp
  · rw [hr, heffect] at hx
    exact hx

/-- The same by the offset and the value as numbers. -/
theorem exec_csrRd_number {off n : Nat} (r : Csr) {s : State} (ha : aligned (BitVec.ofNat 12 off) = true)
    (hr : csrAt (BitVec.ofNat 12 off) = r) (hv : csrValue r s = BitVec.ofNat 32 n) (hp : r ≠ .payloadData := by decide) :
    exec (.csrRd (BitVec.ofNat 12 off)) s = .next (respond .control false (BitVec.ofNat 32 n) s) :=
  hv ▸ exec_csrRd ha hr hp

/-! ### The fields narrower than a word -/

theorem setWidth_word {n : Nat} (x : BitVec n) : x.setWidth 32 = BitVec.ofNat 32 x.toNat := (BitVec.ofNat_toNat 32 x).symm

/-- A number that fits its register reads as itself. -/
theorem setWidth_ofNat_word {n k : Nat} (hn : n ≤ 32) (hk : k < 2 ^ n) : (BitVec.ofNat n k).setWidth 32 = BitVec.ofNat 32 k :=
  BitVec.setWidth_ofNat_of_le_of_lt hn hk

theorem BlockInv.occupancy_lt {s : State} (h : BlockInv s) : occupancy s < 2 ^ 24 :=
  Nat.lt_of_lt_of_le (Machine.occupancy_lt h.cap_pos) h.cap_le

theorem BlockInv.slotPtr_lt {s : State} (h : BlockInv s) : s.mod.slotPtr < 2 ^ 16 := by
  obtain ⟨⟨⟨-, -, -, -, hring, -⟩, -⟩, -, -, -, ⟨-, hptr, -⟩, -⟩ := h
  omega

theorem BlockInv.latchedN_lt {s : State} (h : BlockInv s) : s.latchedN < 2 ^ 17 := by
  obtain ⟨-, -, -, -, -, -, -, -, -, -, -, -, -, -, -, -, hlatched⟩ := h
  omega

/-- Settles O34, register by register: each row names its register, and the value is that register's. -/
theorem registerReadsReturnTheirValues : Obligations.RegisterReadsReturnTheirValues := by
  unfold Obligations.RegisterReadsReturnTheirValues
  intro s h c u occ ctrl status
  have hword (x : Word) : x = BitVec.ofNat 32 x.toNat := eq_ofNat_of_toNat rfl
  have hstatus : csrValue .status s = BitVec.ofNat 32 status := by
    rw [csrValue, statusWord_eq, consBusy_toNat]
  refine ⟨?rows, ?reserved⟩
  case rows =>
    simp only [List.forall_mem_cons]
    exact ⟨exec_csrRd_number .id rfl rfl rfl, exec_csrRd_number .ctrl rfl rfl (ctrlWord_eq c),
      exec_csrRd_number .status rfl rfl hstatus, exec_csrRd_number .irqEn rfl rfl (setWidth_word _),
      exec_csrRd_number .cause rfl rfl (hword _),
      exec_csrRd_number .occ rfl rfl (setWidth_ofNat_word (by decide) h.occupancy_lt), exec_csrRd_number .cap rfl rfl rfl,
      exec_csrRd_number .delay rfl rfl (setWidth_word _), exec_csrRd_number .chunk rfl rfl (setWidth_word _),
      exec_csrRd_number .srcRate rfl rfl (hword _), exec_csrRd_number .ratio rfl rfl (hword _),
      exec_csrRd_number .cps rfl rfl (hword _), exec_csrRd_number .modIndex rfl rfl (hword _),
      exec_csrRd_number .payloadLen rfl rfl (setWidth_word _), exec_csrRd_number .payloadAddr rfl rfl (hword _),
      exec_csrRd_number .slotPtr rfl rfl (setWidth_ofNat_word (by decide) h.slotPtr_lt),
      exec_csrRd_number .ovrCnt rfl rfl (hword _), exec_csrRd_number .unrCnt rfl rfl (hword _),
      exec_csrRd_number .satCnt rfl rfl (hword _), exec_csrRd_number .paramQ rfl rfl rfl, exec_csrRd_number .paramS rfl rfl rfl,
      exec_csrRd_number .paramK rfl rfl rfl, exec_csrRd_number .paramPmax rfl rfl rfl, exec_csrRd_number .paramDivn rfl rfl rfl,
      exec_csrRd_number .paramCenter rfl rfl rfl,
      exec_csrRd_number .blklen rfl rfl (setWidth_ofNat_word (by decide) h.latchedN_lt), List.forall_mem_nil _⟩
  case reserved =>
    intro off ha hoff
    exact exec_csrRd (aligned_of_mod ha) (csrAt_reserved hoff) (by decide)

end Sys2Proof.Machine
end

section
/-! Register writes (47_host_interface R344 to R349): what the host sees of a write its row accepts, refuses or halts on, each
row's checks, and the registers one by one. -/

namespace Sys2Proof.Machine

/-! ### Refusing and halting, the whole of each (60_exceptions R381, R388, R389) -/

/-- The whole of a halt for a port's operation. -/
theorem fatalStop_eq (p : Port) (c : Code) {n : Nat} (s : State) (hn : n < 2 ^ 16) :
    fatalStop p c n s =
      respond p true (codeWord c) { s with
        csr := { s.csr with
          status := { s.csr.status with fatal := true }
          ctrl := { s.csr.ctrl with run := false }
          cause := BitVec.ofNat 32 (n * 2 ^ 16 + codeNum c) } } := by
  rw [fatalStop, ← causeWord_eq c n hn]
  rfl

/-! ### A write that is aligned, of a block that is not halted (R341) -/

section
variable {off : BitVec 12} {w : Word} {s : State}

/-- Past the checks of R341, the register's row decides. -/
theorem execCsrWr_live (ha : aligned off = true) (hlive : s.csr.status.fatal = false) :
    (∃ t, csrWrite (csrAt off) w s = .accepted t ∧ execCsrWr off w s = .next (respond .control false 0#32 t)) ∨
      (∃ c, csrWrite (csrAt off) w s = .refused c ∧ execCsrWr off w s = .next (refuse .control c off.toNat s)) ∨
      (∃ c, csrWrite (csrAt off) w s = .fatal c ∧ execCsrWr off w s = .next (fatalStop .control c off.toNat s)) := by
  obtain ⟨hmis, -⟩ | ⟨-, hhalt, -⟩ | ⟨-, -, hrow⟩ := execCsrWr_cases off w s
  · exact absurd (hmis.symm.trans ha) Bool.false_ne_true
  · exact absurd (hlive.symm.trans hhalt) Bool.false_ne_true
  · exact hrow

theorem exec_csrWr_accepted {t : State} (ha : aligned off = true) (hlive : s.csr.status.fatal = false)
    (hw : csrWrite (csrAt off) w s = .accepted t) : exec (.csrWr off w) s = .next (respond .control false 0#32 t) := by
  obtain ⟨u, hu, hx⟩ | ⟨c, hc, -⟩ | ⟨c, hc, -⟩ := execCsrWr_live (w := w) ha hlive
  · cases hu.symm.trans hw
    exact hx
  · cases hc.symm.trans hw
  · cases hc.symm.trans hw

theorem exec_csrWr_refused {c : Code} (ha : aligned off = true) (hlive : s.csr.status.fatal = false)
    (hw : csrWrite (csrAt off) w s = .refused c) :
    exec (.csrWr off w) s = .next
      { s with
        csr := { s.csr with
          status := { s.csr.status with cfgErr := true }
          cause := BitVec.ofNat 32 (off.toNat * 2 ^ 16 + codeNum c) }
        env := { s.env with ctlOut := some ⟨true, codeWord c⟩ } } := by
  have hrefusal := refuse_control_eq c s (show off.toNat < 2 ^ 16 by omega)
  rw [if_neg (Bool.eq_false_iff.mp hlive)] at hrefusal
  obtain ⟨u, hu, -⟩ | ⟨d, hd, hx⟩ | ⟨d, hd, -⟩ := execCsrWr_live (w := w) ha hlive
  · cases hu.symm.trans hw
  · cases hd.symm.trans hw
    exact hx.trans (congrArg Host.Outcome.next hrefusal)
  · cases hd.symm.trans hw

theorem exec_csrWr_fatal {c : Code} (ha : aligned off = true) (hlive : s.csr.status.fatal = false)
    (hw : csrWrite (csrAt off) w s = .fatal c) :
    exec (.csrWr off w) s = .next
      { s with
        csr := { s.csr with
          status := { s.csr.status with fatal := true }
          ctrl := { s.csr.ctrl with run := false }
          cause := BitVec.ofNat 32 (off.toNat * 2 ^ 16 + codeNum c) }
        env := { s.env with ctlOut := some ⟨true, codeWord c⟩ } } := by
  have hstop := fatalStop_eq .control c s (show off.toNat < 2 ^ 16 by omega)
  obtain ⟨u, hu, -⟩ | ⟨d, hd, -⟩ | ⟨d, hd, hx⟩ := execCsrWr_live (w := w) ha hlive
  · cases hu.symm.trans hw
  · cases hd.symm.trans hw
  · cases hd.symm.trans hw
    exact hx.trans (congrArg Host.Outcome.next hstop)

end

/-! ### The checks of a row, in their order (R345 to R348) -/

theorem checkedWrite_legal {l k : Bool} {t : State} (hl : l = true) (hk : k = false) : checkedWrite l k t = .accepted t := by
  rw [hl, hk]
  rfl

theorem checkedWrite_illegal {l k : Bool} {t : State} (hl : l = false) : checkedWrite l k t = .refused .cfgIllegal := by
  rw [hl]
  rfl

theorem checkedWrite_locked {l k : Bool} {t : State} (hl : l = true) (hk : k = true) :
    checkedWrite l k t = .refused .cfgLocked := by
  rw [hl, hk]
  rfl

theorem rateWrite_legal {l k : Bool} {t : State} (hl : l = true) (hk : k = false) : rateWrite l k t = .accepted t := by
  rw [hl, hk]
  rfl

theorem rateWrite_illegal {l k : Bool} {t : State} (hl : l = false) : rateWrite l k t = .refused .cfgIllegal := by
  rw [hl]
  rfl

theorem rateWrite_changed {l k : Bool} {t : State} (hl : l = true) (hk : k = true) : rateWrite l k t = .fatal .fatalRate := by
  rw [hl, hk]
  rfl

/-- A rate, and `CTRL[3:0]`, is held to its value while running. -/
theorem changed_eq_false {α : Type} [DecidableEq α] {run : Bool} {a b : α} (h : run = false ∨ a = b) :
    (run && decide (a ≠ b)) = false := by
  obtain hstop | hsame := h
  · rw [hstop, Bool.false_and]
  · rw [decide_eq_false (not_not_intro hsame), Bool.and_false]

theorem changed_eq_true {α : Type} [DecidableEq α] {run : Bool} {a b : α} (hrun : run = true) (h : a ≠ b) :
    (run && decide (a ≠ b)) = true := by
  rw [hrun, decide_eq_true h]
  rfl

/-! ### `CTRL` (10_state R44) -/

theorem ctrlLow_ctrlOf_eq_iff (w : Word) (c : Ctrl) :
    ctrlLow (ctrlOf w) = ctrlLow c ↔ w.getLsbD 0 = c.stereoEn ∧ w.getLsbD 1 = c.resampEn ∧ w.getLsbD 2 = c.encEn ∧
      w.getLsbD 3 = c.nch2 := by
  simp only [ctrlLow, ctrlOf, Prod.mk.injEq]

theorem legalCtrl_iff (w : Word) : legalCtrl w = true ↔ (w.getLsbD 0 = true → w.getLsbD 3 = true) := by
  rw [legalCtrl]
  cases w.getLsbD 0 <;> simp

theorem csrWrite_ctrl {w : Word} {s : State} (h : w.getLsbD 31 = false) :
    csrWrite .ctrl w s =
      checkedWrite (legalCtrl w) (s.csr.ctrl.run && decide (ctrlLow (ctrlOf w) ≠ ctrlLow s.csr.ctrl)) (writeCtrl w s) := by
  simp only [csrWrite, h, Bool.false_eq_true, if_false]

/-- The whole of an accepted `CTRL` write. -/
theorem writeCtrl_eq (w : Word) (s : State) :
    writeCtrl w s = { s with
      csr := { s.csr with ctrl := ctrlOf w }
      dp := if ctrlLow (ctrlOf w) = ctrlLow s.csr.ctrl then s.dp else Datapath.reset s.cfg } := by
  unfold writeCtrl
  split <;> rfl

/-- Settles O37: the lock looks at `CTRL[3:0]` only, and an accepted write is `writeCtrl_eq`. -/
theorem ctrlWritesStoreAndReinitialise : Obligations.CtrlWritesStoreAndReinitialise := by
  unfold Obligations.CtrlWritesStoreAndReinitialise
  intro s w c same clean hlive h31 hlegal hsame
  have hlow : ctrlLow (ctrlOf w) = ctrlLow s.csr.ctrl ↔ same := ctrlLow_ctrlOf_eq_iff w c
  have hheld : s.csr.ctrl.run = false ∨ ctrlLow (ctrlOf w) = ctrlLow s.csr.ctrl := by
    cases hrun : s.csr.ctrl.run
    · exact .inl rfl
    · exact .inr (hlow.mpr (hsame hrun))
  have haccepted : csrWrite (csrAt 0x004#12) w s = .accepted (writeCtrl w s) :=
    (csrWrite_ctrl h31).trans (checkedWrite_legal ((legalCtrl_iff w).mpr hlegal) (changed_eq_false hheld))
  rw [exec_csrWr_accepted rfl hlive haccepted, writeCtrl_eq]
  simp only [hlow]
  rfl

/-! ### Writes that no check refuses (R345) -/

/-- The registers a write of the host does not reach (10_state R42, R63). -/
def isReadOnly : Csr → Bool
  | .id | .occ | .cap | .slotPtr | .ovrCnt | .unrCnt | .satCnt | .paramQ | .paramS | .paramK | .paramPmax | .paramDivn
  | .paramCenter | .blklen | .reserved => true
  | _ => false

/-- A write of a read-only register is accepted and ignored. -/
theorem csrWrite_of_isReadOnly {r : Csr} (w : Word) (s : State) (h : isReadOnly r = true) : csrWrite r w s = .accepted s := by
  cases r <;> simp only [isReadOnly, Bool.false_eq_true] at h <;> rfl

/-- From `0x040` on the map holds no register that can be written. -/
theorem isReadOnly_csrAt {off : BitVec 12} (h : 0x040 ≤ off.toNat) : isReadOnly (csrAt off) = true := by
  have hmap : ∀ e ∈ csrMap, 0x040 ≤ e.1 → isReadOnly e.2 = true := by decide
  obtain hres | hmem := csrAt_eq_reserved_or_mem off
  · rw [hres]
    rfl
  · exact hmap _ hmem h

/-- Settles O38: each row accepts the write, and the read-only offsets are found by `isReadOnly_csrAt`. -/
theorem uncheckedWritesTakeEffect : Obligations.UncheckedWritesTakeEffect := by
  unfold Obligations.UncheckedWritesTakeEffect
  intro s w hlive u
  refine ⟨exec_csrWr_accepted rfl hlive rfl, ?irqEn, exec_csrWr_accepted rfl hlive rfl,
    exec_csrWr_accepted rfl hlive rfl, ?readOnly⟩
  case irqEn =>
    rw [BitVec.ofNat_toNat]
    exact exec_csrWr_accepted rfl hlive rfl
  case readOnly =>
    intro off ha hoff
    have hreadOnly : isReadOnly (csrAt off) = true := by
      obtain rfl | rfl | rfl | hhigh := hoff
      · rfl
      · rfl
      · rfl
      · exact isReadOnly_csrAt hhigh
    exact exec_csrWr_accepted (aligned_of_mod ha) hlive (csrWrite_of_isReadOnly w s hreadOnly)

/-! ### Registers locked while running (R345, R346) -/

theorem legalDelay_iff (cfg : Config) (w : Word) : legalDelay cfg w = true ↔ w.toNat ≤ cfg.cap - 1 := decide_eq_true_iff

theorem legalChunk_iff (cfg : Config) (w : Word) : legalChunk cfg w = true ↔ 1 ≤ w.toNat ∧ w.toNat ≤ cfg.cap - 1 :=
  decide_eq_true_iff

theorem legalPayloadLen_iff (cfg : Config) (w : Word) : legalPayloadLen cfg w = true ↔ w.toNat ≤ cfg.payloadMax :=
  decide_eq_true_iff

/-- Settles O39: nothing is locked while stopped; the byte `PAYLOAD_DATA` stores is the only one of the memory that changes. -/
theorem lockableWritesTakeEffectWhileStopped : Obligations.LockableWritesTakeEffectWhileStopped := by
  unfold Obligations.LockableWritesTakeEffectWhileStopped
  intro s w _ hlive hstop
  refine ⟨?delay, ?chunk, ?payloadLen, ?payloadData⟩
  case delay =>
    intro hw
    rw [BitVec.ofNat_toNat]
    exact exec_csrWr_accepted rfl hlive (checkedWrite_legal ((legalDelay_iff ..).mpr hw) hstop)
  case chunk =>
    intro hone hmax
    rw [BitVec.ofNat_toNat]
    exact exec_csrWr_accepted rfl hlive (checkedWrite_legal ((legalChunk_iff ..).mpr ⟨hone, hmax⟩) hstop)
  case payloadLen =>
    intro hw
    rw [BitVec.ofNat_toNat]
    exact exec_csrWr_accepted rfl hlive (checkedWrite_legal ((legalPayloadLen_iff ..).mpr hw) hstop)
  case payloadData =>
    intro hin hwf
    refine ⟨_, exec_csrWr_accepted rfl hlive (checkedWrite_legal (decide_eq_true hin) hstop), ?_, ?_, rfl⟩
    · rw [BitVec.ofNat_toNat]
      exact Memory.read_write_self _ _ _ hwf
    · exact fun a ha => Memory.read_write_ne _ _ _ ha

/-- Settles O42, by the register: each is legal and locked. -/
theorem lockedWritesAreRefused : Obligations.LockedWritesAreRefused := by
  unfold Obligations.LockedWritesAreRefused
  intro s off w hlive hrun hoff
  obtain ⟨ha, hrow⟩ : aligned off = true ∧ csrWrite (csrAt off) w s = .refused .cfgLocked := by
    obtain ⟨rfl, h31, hlegal, hchange⟩ | ⟨rfl, hw⟩ | ⟨rfl, hw⟩ | ⟨rfl, hw⟩ | ⟨rfl, hin⟩ := hoff
    · have hlow : ctrlLow (ctrlOf w) ≠ ctrlLow s.csr.ctrl := fun h => hchange ((ctrlLow_ctrlOf_eq_iff w _).mp h)
      exact ⟨rfl, (csrWrite_ctrl h31).trans (checkedWrite_locked ((legalCtrl_iff w).mpr hlegal) (changed_eq_true hrun hlow))⟩
    · exact ⟨rfl, checkedWrite_locked ((legalDelay_iff ..).mpr hw) hrun⟩
    · exact ⟨rfl, checkedWrite_locked ((legalChunk_iff ..).mpr hw) hrun⟩
    · exact ⟨rfl, checkedWrite_locked ((legalPayloadLen_iff ..).mpr hw) hrun⟩
    · exact ⟨rfl, checkedWrite_locked (decide_eq_true hin) hrun⟩
  exact exec_csrWr_refused ha hlive hrow

/-! ### The rates and the modulation (R345, R348) -/

/-- Settles O40: the two rates take a value that does not change while running, the two of the modulation any legal value. -/
theorem rateAndModulationWritesTakeEffect : Obligations.RateAndModulationWritesTakeEffect := by
  unfold Obligations.RateAndModulationWritesTakeEffect
  intro s w hlive
  refine ⟨?srcRate, ?ratio, ?cps, ?modIndex⟩
  case srcRate => exact fun hsame => exec_csrWr_accepted rfl hlive (rateWrite_legal rfl (changed_eq_false hsame))
  case ratio =>
    intro hfin hmin hmax hsame
    have hlegal : legalRatio w = true := by simp only [legalRatio, hfin, fRatioMin, hmin, fRatioMax, hmax, Bool.and_self]
    exact exec_csrWr_accepted rfl hlive (rateWrite_legal hlegal (changed_eq_false hsame))
  case cps =>
    intro hfin hmin hmax
    have hlegal : legalCps w = true := by simp only [legalCps, hfin, fOne, hmin, fCpsMax, hmax, Bool.and_self]
    exact exec_csrWr_accepted rfl hlive (checkedWrite_legal hlegal rfl)
  case modIndex => exact fun hfin => exec_csrWr_accepted rfl hlive (checkedWrite_legal hfin rfl)

/-- Settles O43: both rows answer a change while running with the fatal code. -/
theorem rateChangesWhileRunningHalt : Obligations.RateChangesWhileRunningHalt := by
  unfold Obligations.RateChangesWhileRunningHalt
  intro s off w hlive hrun hoff
  obtain ⟨ha, hrow⟩ : aligned off = true ∧ csrWrite (csrAt off) w s = .fatal .fatalRate := by
    obtain ⟨rfl, hchange⟩ | ⟨rfl, hlegal, hchange⟩ := hoff
    · exact ⟨rfl, rateWrite_changed rfl (changed_eq_true hrun hchange)⟩
    · exact ⟨rfl, rateWrite_changed hlegal (changed_eq_true hrun hchange)⟩
  exact exec_csrWr_fatal ha hlive hrow

/-! ### Illegal values (R347) -/

theorem fLe_eq_false_of_fLt {a b : F32} (h : fLt a b = true) : fLe b a = false := by
  simp only [fLt, Bool.and_eq_true, decide_eq_true_eq] at h
  rw [fLe, decide_eq_false (Int.not_le.mpr h.2), Bool.and_false]

/-- A value is outside a range of finite values when it is not finite, below the range, or above it. -/
theorem range_eq_false {lo hi x : F32} (h : fFinite x = false ∨ fLt x lo = true ∨ fLt hi x = true) :
    (fFinite x && fLe lo x && fLe x hi) = false := by
  obtain hinf | hlow | hhigh := h
  · rw [hinf, Bool.false_and, Bool.false_and]
  · rw [fLe_eq_false_of_fLt hlow, Bool.and_false, Bool.false_and]
  · rw [fLe_eq_false_of_fLt hhigh, Bool.and_false]

/-- Settles O41, by the register: the check of the value comes first in each row. -/
theorem illegalValuesAreRefused : Obligations.IllegalValuesAreRefused := by
  unfold Obligations.IllegalValuesAreRefused
  intro s off w hlive hoff
  obtain ⟨ha, hrow⟩ : aligned off = true ∧ csrWrite (csrAt off) w s = .refused .cfgIllegal := by
    obtain ⟨rfl, h31, h0, h3⟩ | ⟨rfl, hw⟩ | ⟨rfl, hw⟩ | ⟨rfl, hw⟩ | ⟨rfl, hw⟩ | ⟨rfl, hw⟩ | ⟨rfl, hw⟩ | ⟨rfl, hw⟩ := hoff
    · have hillegal : legalCtrl w = false := by rw [legalCtrl, h0, h3]; rfl
      exact ⟨rfl, (csrWrite_ctrl h31).trans (checkedWrite_illegal hillegal)⟩
    · exact ⟨rfl, checkedWrite_illegal (decide_eq_false (by omega))⟩
    · exact ⟨rfl, checkedWrite_illegal (decide_eq_false (by omega))⟩
    · exact ⟨rfl, rateWrite_illegal (range_eq_false hw)⟩
    · exact ⟨rfl, checkedWrite_illegal (range_eq_false hw)⟩
    · exact ⟨rfl, checkedWrite_illegal hw⟩
    · exact ⟨rfl, checkedWrite_illegal (decide_eq_false (by omega))⟩
    · exact ⟨rfl, checkedWrite_illegal (decide_eq_false (by omega))⟩
  exact exec_csrWr_refused ha hlive hrow

end Sys2Proof.Machine
end

section
/-! The checks of a `PUSH` in their order (47_host_interface R351, R352), and what each of them does. -/

namespace Sys2Proof.Machine

/-- The whole of a refusal on a port, of a block that is not halted (60_exceptions R381, R388). -/
theorem refuse_live (p : Port) (c : Code) {n : Nat} (s : State) (hn : n < 2 ^ 16) (hlive : s.csr.status.fatal = false) :
    refuse p c n s =
      respond p true (codeWord c) { s with
        csr := { s.csr with
          status := { s.csr.status with cfgErr := true }
          cause := BitVec.ofNat 32 (n * 2 ^ 16 + codeNum c) } } := by
  rw [refuse, recordRefusal_eq, if_neg (Bool.eq_false_iff.mp hlive), causeWord_eq c n hn]

/-- A halted block answers and records nothing (60_exceptions R389). -/
theorem refuse_halted (p : Port) (c : Code) (n : Nat) (s : State) (hhalt : s.csr.status.fatal = true) :
    refuse p c n s = respond p true (codeWord c) s := by
  rw [refuse, recordRefusal_eq, if_pos hhalt]

section
variable {s : State} {n : Nat}

/-- A `PUSH` whose data words are there, by its checks in their order. -/
theorem exec_push (hwords : pushWords s n ≤ s.env.audIn.length) :
    exec (.push n) s =
      if s.csr.status.fatal then .next (refuse .audio .halted 0 (dropPushWords s n))
      else if !s.csr.ctrl.run then .next (refuse .audio .pushNotRunning 0 (dropPushWords s n))
      else if n = 0 then .next (refuse .audio .pushBadLen 0 (dropPushWords s n))
      else if s.latchedN ≠ 0 ∧ s.latchedN ≠ n then .next (fatalStop .audio .fatalBlocklen n (dropPushWords s n))
      else if !encoderOk s then .fault .cursorRange
      else .next (pushBlock n (pushLeft s n) (pushRight s n) (dropPushWords s n)) :=
  if_neg (Nat.not_lt.mpr hwords)

theorem exec_push_halted (hwords : pushWords s n ≤ s.env.audIn.length) (hhalt : s.csr.status.fatal = true) :
    exec (.push n) s = .next (refuse .audio .halted 0 (dropPushWords s n)) := by
  rw [exec_push hwords, if_pos hhalt]

variable (hwords : pushWords s n ≤ s.env.audIn.length) (hlive : s.csr.status.fatal = false)
include hwords hlive

theorem exec_push_notRunning (hstop : s.csr.ctrl.run = false) :
    exec (.push n) s = .next (refuse .audio .pushNotRunning 0 (dropPushWords s n)) := by
  simp [exec_push hwords, hlive, hstop]

variable (hrun : s.csr.ctrl.run = true)
include hrun

theorem exec_push_badLen (hn : n = 0) : exec (.push n) s = .next (refuse .audio .pushBadLen 0 (dropPushWords s n)) := by
  simp [exec_push hwords, hlive, hrun, if_pos hn]

theorem exec_push_blocklen (hn : n ≠ 0) (hlatched : s.latchedN ≠ 0) (hother : s.latchedN ≠ n) :
    exec (.push n) s = .next (fatalStop .audio .fatalBlocklen n (dropPushWords s n)) := by
  simp [exec_push hwords, hlive, hrun, hn, hlatched, hother]

theorem exec_push_performed (hn : n ≠ 0) (hlatched : s.latchedN = 0 ∨ s.latchedN = n) (henc : encoderOk s = true) :
    exec (.push n) s = .next (pushBlock n (pushLeft s n) (pushRight s n) (dropPushWords s n)) := by
  have hsame : ¬(s.latchedN ≠ 0 ∧ s.latchedN ≠ n) := by omega
  simp [exec_push hwords, hlive, hrun, hn, hsame, henc]

end

/-- Settles O46: each check refuses or halts once those before it pass. -/
theorem pushChecksRefuseInOrder : Obligations.PushChecksRefuseInOrder := by
  unfold Obligations.PushChecksRefuseInOrder
  intro s n words env refused hwords
  refine ⟨?halted, ?notRunning, ?badLen, ?blocklen⟩
  case halted =>
    intro hhalt
    rw [exec_push_halted hwords hhalt, refuse_halted _ _ _ (dropPushWords s n) hhalt]
    rfl
  case notRunning =>
    intro hlive hstop
    rw [exec_push_notRunning hwords hlive hstop, refuse_live _ _ (dropPushWords s n) (by decide) hlive]
    rfl
  case badLen =>
    intro hlive hrun hn
    rw [exec_push_badLen hwords hlive hrun hn, refuse_live _ _ (dropPushWords s n) (by decide) hlive]
    rfl
  case blocklen =>
    intro hlive hrun hn hfits hlatched hother
    rw [exec_push_blocklen hwords hlive hrun hn hlatched hother, fatalStop_eq _ _ _ hfits]
    rfl

end Sys2Proof.Machine
end

section
/-! A `PUSH` that passes its checks performs the class-9 operations of 47_host_interface R350: each operation as a function of
the datapath, the stages they add up to, the ring write and the lazy start. -/

namespace Sys2Proof.Machine

/-! ### The operands of an operation (log entry 3) -/

theorem arg_handArgs (xs : List F32) (s : State) {j : Nat} (hj : j < xs.length) : arg (handArgs xs s) j = xs[j] := by
  rw [arg, handArgs_env, Memory.read_writeFrom fZero xs 0 j rfl, dif_pos ⟨Nat.zero_le j, by omega⟩]
  rfl

theorem arg_handArgs_one (x : F32) (s : State) : arg (handArgs [x] s) 0 = x := arg_handArgs [x] s Nat.zero_lt_one

theorem arg_handArgs_two (x y : F32) (s : State) : (arg (handArgs [x, y] s) 0, arg (handArgs [x, y] s) 1) = (x, y) :=
  Prod.ext (arg_handArgs [x, y] s Nat.zero_lt_two) (arg_handArgs [x, y] s Nat.one_lt_two)

theorem argList_handArgs (xs : List F32) (s : State) : argList (handArgs xs s) xs.length = xs := by
  apply List.ext_getElem (argList_length _ _)
  intro j hj hj'
  simp only [argList, List.getElem_map, List.getElem_range]
  exact arg_handArgs xs s hj'

/-! ### What an operation of the cascade gives: samples and a datapath, the rest of the block as it was -/

/-- The state in another environment. -/
def withEnv (s : State) (e : Env) : State := { s with env := e }

/-- The state with another datapath, in another environment. -/
def withDatapath (s : State) (dp : Datapath) (e : Env) : State := withEnv { s with dp := dp } e

/-- The outcome is the samples and the datapath of `p`; apart from these and the environment the state is `s`. -/
def Yields (s : State) (p : List F32 × Datapath) (o : Option (List F32 × State)) : Prop :=
  ∃ e, o = some (p.1, withDatapath s p.2 e)

theorem Yields.of_exec {s : State} {dp : Datapath} {e : Env} {i : Instr} {xs : List F32} {p : List F32 × Datapath}
    (h : exec i (handArgs xs (withDatapath s dp e)) =
      .next (setResult p.1 (withDatapath s p.2 (handArgs xs (withDatapath s dp e)).env))) :
    Yields s p (perform i xs (withDatapath s dp e)) :=
  ⟨_, by rw [perform, h]; rfl⟩

/-- One operation after the other: the second starts from the samples and the datapath the first leaves. -/
theorem Yields.bind {s : State} {p q : List F32 × Datapath} {o : Option (List F32 × State)}
    {f : List F32 × State → Option (List F32 × State)} (h : Yields s p o)
    (hf : ∀ e, Yields s q (f (p.1, withDatapath s p.2 e))) : Yields s q (o.bind f) := by
  obtain ⟨e, rfl⟩ := h
  exact hf e

/-- The operation `i` on the operands `args x` is the function `g` of the datapath, on datapaths of which `P` holds, and `P` is
kept. -/
def ActsAs {α : Type} (s : State) (P : Datapath → Prop) (i : Instr) (args : α → List F32)
    (g : Datapath → α → List F32 × Datapath) : Prop :=
  ∀ dp e x, P dp → P (g dp x).2 ∧ Yields s (g dp x) (perform i (args x) (withDatapath s dp e))

/-- A stage over a block, of which each element gives any number of samples. -/
def stage {α : Type} (g : Datapath → α → List F32 × Datapath) (dp : Datapath) (xs : List α) : List F32 × Datapath :=
  ((mapState g dp xs).1.flatten, (mapState g dp xs).2)

/-- Performed once for each element of a block, the operation is the stage. -/
theorem ActsAs.each {α : Type} {s : State} {P : Datapath → Prop} {i : Instr} {args : α → List F32}
    {g : Datapath → α → List F32 × Datapath} (h : ActsAs s P i args g) (xs : List α) {dp : Datapath} (e : Env) (hP : P dp) :
    Yields s (stage g dp xs) (performEach i (xs.map args) (withDatapath s dp e)) := by
  induction xs generalizing dp e with
  | nil => exact ⟨e, rfl⟩
  | cons x xs ih =>
    obtain ⟨hkept, e1, hx⟩ := h dp e x hP
    obtain ⟨e2, hxs⟩ := ih e1 hkept
    exact ⟨e2, performEach_cons hx hxs⟩

/-- On each sample of a block, or not at all. -/
theorem ActsAs.onlyIf {s : State} {P : Datapath → Prop} {i : Instr} {g : Datapath → F32 → List F32 × Datapath} {b : Bool}
    (h : b = true → ActsAs s P i (fun x => [x]) g) (xs : List F32) {dp : Datapath} (e : Env) (hP : b = true → P dp) :
    Yields s (if b then stage g dp xs else (xs, dp)) (performIf b i xs (withDatapath s dp e)) := by
  cases b
  · exact ⟨e, rfl⟩
  · exact (h rfl).each xs e (hP rfl)

/-- A function that gives one sample for each element, in the form of one that gives a list. -/
def oneSample {α : Type} (f : Datapath → α → F32 × Datapath) (dp : Datapath) (x : α) : List F32 × Datapath :=
  ([(f dp x).1], (f dp x).2)

theorem stage_oneSample {α : Type} (f : Datapath → α → F32 × Datapath) (dp : Datapath) (xs : List α) :
    stage (oneSample f) dp xs = mapState f dp xs := by
  induction xs generalizing dp with
  | nil => rfl
  | cons x xs ih =>
    have htail := ih (f dp x).2
    rw [mapState_cons, ← htail]
    rfl

/-- A stage that does not move the datapath. -/
theorem mapState_map {σ α β : Type} (f : α → β) (st : σ) (xs : List α) :
    mapState (fun st x => (f x, st)) st xs = (xs.map f, st) := by
  induction xs with
  | nil => rfl
  | cons x xs ih => simp [ih]

/-! ### The operations of one channel (41_preemphasis, 42_resampler) -/

/-- A function of a channel's state, as a function of the datapath. -/
def onChan {α β : Type} (c : Chan) (f : Channel → α → β × Channel) (dp : Datapath) (x : α) : β × Datapath :=
  ((f (chanOf dp c) x).1, setChan dp c (f (chanOf dp c) x).2)

theorem setChan_chanOf (dp : Datapath) (c : Chan) : setChan dp c (chanOf dp c) = dp := by cases c <;> rfl

theorem setChan_setChan (dp : Datapath) (c : Chan) (a b : Channel) : setChan (setChan dp c a) c b = setChan dp c b := by
  cases c <;> rfl

/-- A stage of one channel over a block moves that channel only. -/
theorem mapState_onChan {α β : Type} (c : Chan) (f : Channel → α → β × Channel) (dp : Datapath) (xs : List α) :
    mapState (onChan c f) dp xs = onChan c (mapState f) dp xs := by
  induction xs generalizing dp with
  | nil => simp [onChan, setChan_chanOf]
  | cons x xs ih => simp [ih, onChan, setChan_setChan]

theorem actsAs_preStep (s : State) (c : Chan) :
    ActsAs s (fun _ => True) (.preStep c) (fun x => [x]) (oneSample (onChan c (preStep s.cfg s.csr.srcRate))) := by
  refine fun dp e x _ => ⟨trivial, .of_exec ((exec_preStep c _).trans ?_)⟩
  rw [arg_handArgs_one]
  rfl

theorem actsAs_rsmPush (s : State) (c : Chan) :
    ActsAs s (fun _ => True) (.rsmPush c) (fun x => [x]) (onChan c (rsmPush s.cfg s.csr.ratio)) := by
  refine fun dp e x _ => ⟨trivial, .of_exec ((exec_rsmPush c _).trans ?_)⟩
  rw [arg_handArgs_one]
  simp only [onChan, withDatapath, withEnv, handArgs]

/-! ### The operations of a frame and of a composite sample (43_stereo_mux, 44_data_encoder) -/

theorem actsAs_muxStep (s : State) :
    ActsAs s (fun _ => True) .muxStep (fun f => [f.1, f.2]) (oneSample (muxStep s.cfg)) := by
  refine fun dp e f _ => ⟨trivial, .of_exec ((exec_muxStep _).trans ?_)⟩
  obtain ⟨hleft, hright⟩ := Prod.mk.inj (arg_handArgs_two f.1 f.2 (withDatapath s dp e))
  rw [hleft, hright]
  rfl

theorem actsAs_monoStep (s : State) :
    ActsAs s (fun _ => True) .monoStep (fun f => [f.1, f.2])
      (oneSample fun dp f => (monoStep (channels s.csr.ctrl) f, dp)) := by
  refine fun dp e f _ => ⟨trivial, .of_exec ((exec_monoStep _).trans ?_)⟩
  rw [arg_handArgs_two]
  rfl

/-- The cursor stays inside the payload, because it moves modulo the payload's length in bits (44_data_encoder R260). -/
theorem encReady_encStep {cfg : Config} {csr : Csrs} {dp : Datapath} (payload : List Host.Cell) (x : F32)
    (h : encReady cfg csr dp = true) : encReady cfg csr (encStep cfg payload csr.payloadLen.toNat dp x).2 = true := by
  obtain ⟨hlen, hcursor⟩ := of_decide_eq_true h
  refine decide_eq_true ⟨hlen, ?_⟩
  rw [encStep_cursor]
  split
  · exact Nat.mod_lt _ (by omega)
  · exact hcursor

theorem actsAs_encStep {s : State} (hact : encActive s.csr = true) :
    ActsAs s (fun dp => encReady s.cfg s.csr dp = true) .encStep (fun x => [x])
      (oneSample (encStep s.cfg s.payload s.csr.payloadLen.toNat)) := by
  refine fun dp e x hready => ⟨encReady_encStep s.payload x hready,
    .of_exec ((exec_encStep (s := handArgs [x] (withDatapath s dp e)) hact hready).trans ?_)⟩
  rw [arg_handArgs_one]
  rfl

/-! ### The stages of the cascade (R350) -/

theorem encReady_congr {cfg : Config} {csr : Csrs} {a b : Datapath} (h : a.cursor = b.cursor) :
    encReady cfg csr a = encReady cfg csr b := by rw [encReady, encReady, h]

/-- The multiplexer or the mono path performed on each frame is the composite stage. -/
theorem yields_composite (s : State) (fs : List (F32 × F32)) (dp : Datapath) (e : Env) :
    Yields s (compositeStage s dp fs)
      (performEach (if s.csr.ctrl.stereoEn then .muxStep else .monoStep) (fs.map fun f => [f.1, f.2])
        (withDatapath s dp e)) := by
  unfold compositeStage
  split
  · rw [← stage_oneSample]
    exact (actsAs_muxStep s).each fs e trivial
  · rw [← mapState_map, ← stage_oneSample]
    exact (actsAs_monoStep s).each fs e trivial

/-- The encoder performed on each composite sample while it is active is the encoder's stage. -/
theorem yields_encoder {s : State} (zs : List F32) {dp : Datapath} (e : Env)
    (h : encActive s.csr = true → encReady s.cfg s.csr dp = true) :
    Yields s (encoderStage s dp zs) (performIf (encActive s.csr) .encStep zs (withDatapath s dp e)) := by
  unfold encoderStage
  rw [← stage_oneSample]
  exact ActsAs.onlyIf actsAs_encStep zs e h

/-- The pre-emphasis of one channel over a block, as a function of the datapath. -/
def preStage (s : State) (c : Chan) : Datapath → List F32 → List F32 × Datapath :=
  stage (oneSample (onChan c (preStep s.cfg s.csr.srcRate)))

/-- The resampling of one channel over a block, as a function of the datapath. -/
def rsmStage (s : State) (c : Chan) : Datapath → List F32 → List F32 × Datapath :=
  stage (onChan c (rsmPush s.cfg s.csr.ratio))

theorem preStage_eq (s : State) (c : Chan) (dp : Datapath) (xs : List F32) :
    preStage s c dp xs = onChan c (mapState (preStep s.cfg s.csr.srcRate)) dp xs := by
  rw [preStage, stage_oneSample, mapState_onChan]

theorem rsmStage_eq (s : State) (c : Chan) (dp : Datapath) (xs : List F32) :
    rsmStage s c dp xs = onChan c (fun ch xs => ((mapState (rsmPush s.cfg s.csr.ratio) ch xs).1.flatten,
      (mapState (rsmPush s.cfg s.csr.ratio) ch xs).2)) dp xs := by
  rw [rsmStage, stage, mapState_onChan]
  rfl

/-- The samples of both channels and the datapath after the four operations on channels, in the order of R350. -/
def channelStages (s : State) (ls rs : List F32) : (List F32 × List F32) × Datapath :=
  let c := s.csr.ctrl
  let p0 := preStage s .ch0 s.dp ls
  let p1 := if c.nch2 then preStage s .ch1 p0.2 (if c.nch2 then rs else []) else (if c.nch2 then rs else [], p0.2)
  let q0 := if c.resampEn then rsmStage s .ch0 p1.2 p0.1 else (p0.1, p1.2)
  let q1 := if c.resampEn && c.nch2 then rsmStage s .ch1 q0.2 p1.1 else (p1.1, q0.2)
  ((q0.1, q1.1), q1.2)

/-- A channel's operations do not see the other channel, so they may be taken channel by channel. -/
theorem channelStages_eq (s : State) (ls rs : List F32) :
    channelStages s ls rs =
      let q0 := channelStage s s.dp.ch0 ls
      let q1 := if s.csr.ctrl.nch2 then channelStage s s.dp.ch1 rs else ([], s.dp.ch1)
      ((q0.1, q1.1), { s.dp with ch0 := q0.2, ch1 := q1.2 }) := by
  simp only [channelStages, preStage_eq, rsmStage_eq, channelStage_eq]
  cases s.csr.ctrl.nch2 <;> cases s.csr.ctrl.resampEn <;> rfl

theorem cascade_eq_stages (s : State) (ls rs : List F32) :
    cascade s ls rs =
      let q := channelStages s ls rs
      let p := compositeStage s q.2 (frames q.1.1 q.1.2)
      encoderStage s p.2 p.1 := by
  rw [channelStages_eq, cascade_eq]

theorem channelStages_cursor (s : State) (ls rs : List F32) : (channelStages s ls rs).2.cursor = s.dp.cursor := by
  rw [channelStages_eq]

/-- The whole cascade by the operations R350 names. -/
theorem yields_cascade {s : State} (ls rs : List F32) (henc : encoderOk s = true) :
    Yields s (cascade s ls rs) (cascadeByParts ls rs s) := by
  have hready {fs : List (F32 × F32)} (hact : encActive s.csr = true) :
      encReady s.cfg s.csr (compositeStage s (channelStages s ls rs).2 fs).2 = true := by
    rw [encoderOk, hact] at henc
    rw [compositeStage_dp, ← henc]
    exact encReady_congr (channelStages_cursor s ls rs)
  rw [cascade_eq_stages]
  unfold cascadeByParts
  refine (ActsAs.onlyIf (b := true) (fun _ => actsAs_preStep s .ch0) ls s.env fun _ => trivial).bind fun e1 => ?_
  refine (ActsAs.onlyIf (fun _ => actsAs_preStep s .ch1) _ e1 fun _ => trivial).bind fun e2 => ?_
  refine (ActsAs.onlyIf (fun _ => actsAs_rsmPush s .ch0) _ e2 fun _ => trivial).bind fun e3 => ?_
  refine (ActsAs.onlyIf (fun _ => actsAs_rsmPush s .ch1) _ e3 fun _ => trivial).bind fun e4 => ?_
  refine (yields_composite s _ _ e4).bind fun e5 => ?_
  exact yields_encoder _ e5 hready

/-! ### The ring write and the lazy start (R281, R285) -/

theorem overrun_withEnv (m : Nat) (s : State) (e : Env) : overrun m (withEnv s e) = withEnv (overrun m s) e := by
  unfold overrun withEnv
  split <;> rfl

/-- The ring write does not look at the environment. -/
theorem fifoWrite_withEnv (m : Nat) (zs : List F32) (s : State) (e : Env) :
    fifoWrite m zs (withEnv s e) = (withEnv (fifoWrite m zs s).1 e, (fifoWrite m zs s).2) := by
  have hfree : freeSpace (withEnv s e) = freeSpace s := rfl
  rw [fifoWrite, fifoWrite, hfree, overrun_withEnv]
  split <;> rfl

/-- Nor does the lazy start. -/
theorem startCheck_withEnv (s : State) (e : Env) : startCheck (withEnv s e) = withEnv (startCheck s) e := by
  rw [startCheck_eq, startCheck_eq]
  rfl

/-- `FIFO_WRITE` performed on a block writes the block, and says whether it was dropped. -/
theorem perform_fifoWrite (zs : List F32) (s : State) (e : Env) :
    ∃ e', perform (.fifoWrite zs.length) zs (withEnv s e) = some ([], withEnv (fifoWrite zs.length zs s).1 e') ∧
      e'.dropped = (fifoWrite zs.length zs s).2 := by
  have hwrite : fifoWrite zs.length (argList (handArgs zs (withEnv s e)) zs.length) (handArgs zs (withEnv s e)) =
      (withEnv (fifoWrite zs.length zs s).1 (handArgs zs (withEnv s e)).env, (fifoWrite zs.length zs s).2) := by
    rw [argList_handArgs]
    exact fifoWrite_withEnv _ _ s (handArgs zs (withEnv s e)).env
  have hexec : exec (.fifoWrite zs.length) (handArgs zs (withEnv s e)) = .next (withEnv (fifoWrite zs.length zs s).1
      { (handArgs zs (withEnv s e)).env with res := [], dropped := (fifoWrite zs.length zs s).2 }) := by
    simp only [exec, execFifoWrite, hwrite]
    rfl
  exact ⟨_, by rw [perform, hexec]; rfl, rfl⟩

/-- `START_CHECK` performed is the lazy start. -/
theorem perform_startCheck (s : State) (e : Env) :
    ∃ e', perform .startCheck [] (withEnv s e) = some ([], withEnv (startCheck s) e') := by
  have hexec : exec .startCheck (handArgs [] (withEnv s e)) =
      .next (setResult [] (withEnv (startCheck s) (handArgs [] (withEnv s e)).env)) :=
    congrArg (fun t => Host.Outcome.next (setResult [] t)) (startCheck_withEnv s (handArgs [] (withEnv s e)).env)
  exact ⟨_, by rw [perform, hexec]; rfl⟩

/-! ### The whole `PUSH` (R350) -/

section
variable {s : State} {ls rs : List F32} {p : List F32 × Datapath} {q : State × Bool} {n : Nat}
  (hp : cascade s ls rs = p) (hq : fifoWrite p.1.length p.1 { s with dp := p.2, latchedN := n } = q)
include hp hq

/-- A `PUSH` by its operations: the cascade, the ring write, the lazy start. -/
theorem pushByParts_eq (henc : encoderOk s = true) :
    ∃ e, pushByParts n ls rs s = some (withEnv (startCheck q.1) e, p.1.length, q.2) := by
  obtain ⟨e1, hcascade⟩ :
      ∃ e, cascadeByParts ls rs { s with latchedN := n } = some (p.1, withEnv { s with dp := p.2, latchedN := n } e) :=
    hp ▸ yields_cascade (s := { s with latchedN := n }) ls rs henc
  obtain ⟨e2, hwrite, hdropped⟩ := perform_fifoWrite p.1 { s with dp := p.2, latchedN := n } e1
  rw [hq] at hwrite hdropped
  obtain ⟨e3, hstart⟩ := perform_startCheck q.1 e2
  exact ⟨e3, by simp only [pushByParts, hcascade, Option.bind_some, hwrite, hstart, Option.map_some, ← hdropped]; rfl⟩

/-- The same `PUSH` as one step, from the state with its data words taken. -/
theorem pushBlock_withEnv (e : Env) :
    pushBlock n ls rs (withEnv s e) = respond .audio false (pushData q.2 p.1.length) (withEnv (startCheck q.1) e) := by
  have hcascade : cascade (withEnv s e) ls rs = p := hp
  have hwrite : fifoWrite p.1.length p.1 { withEnv s e with dp := p.2, latchedN := n } = (withEnv q.1 e, q.2) := by
    rw [← hq]
    exact fifoWrite_withEnv _ _ { s with dp := p.2, latchedN := n } e
  simp only [pushBlock_eq, hcascade, hwrite, startCheck_withEnv]

end

theorem pushRight_eq {s : State} {n : Nat} (htwo : s.csr.ctrl.nch2 = true) :
    pushRight s n = (s.env.audIn.drop n).take n := by
  have hwords : pushWords s n = n + n := by rw [pushWords, channels, if_pos htwo, Nat.mul_two]
  rw [pushRight, hwords, List.drop_take, Nat.add_sub_cancel]

/-- With one channel the cascade does not look at channel 1's samples. -/
theorem cascade_of_one_channel {s : State} (h : s.csr.ctrl.nch2 = false) (ls rs rs' : List F32) :
    cascade s ls rs = cascade s ls rs' := by
  simp only [cascade_eq, h]
  rfl

theorem cascade_pushRight (s : State) (n : Nat) (ls : List F32) :
    cascade s ls (pushRight s n) = cascade s ls ((s.env.audIn.drop n).take n) := by
  cases h : s.csr.ctrl.nch2
  · exact cascade_of_one_channel h _ _ _
  · rw [pushRight_eq h]

/-- The precondition of `ENC_STEP` is asked for only while the encoder is active (44_data_encoder R260, R261). -/
theorem encoderOk_iff (s : State) :
    encoderOk s = true ↔ (s.csr.ctrl.encEn = true → s.csr.payloadLen ≠ 0 →
      s.csr.payloadLen.toNat ≤ s.cfg.payloadMax ∧ s.dp.cursor < 8 * s.csr.payloadLen.toNat) := by
  rw [← and_imp, ← encActive_iff, ← decide_eq_true_iff (p := _ ∧ _)]
  show (!encActive s.csr || encReady s.cfg s.csr s.dp) = true ↔ (encActive s.csr = true → encReady s.cfg s.csr s.dp = true)
  cases encActive s.csr <;> simp

/-- Settles O47: by its checks the `PUSH` is `pushBlock`, and by `pushByParts_eq` that is its operations in order. -/
theorem pushPerformsItsDatapathOperations : Obligations.PushPerformsItsDatapathOperations := by
  unfold Obligations.PushPerformsItsDatapathOperations
  intro s n words hwords hlive hrun hn hlatched hready
  have henc := (encoderOk_iff s).mpr hready
  obtain ⟨p, hp⟩ : ∃ p, cascade s (pushLeft s n) ((s.env.audIn.drop n).take n) = p := ⟨_, rfl⟩
  obtain ⟨q, hq⟩ : ∃ q, fifoWrite p.1.length p.1 { s with dp := p.2, latchedN := n } = q := ⟨_, rfl⟩
  obtain ⟨e, hparts⟩ := pushByParts_eq hp hq henc
  have hblock := pushBlock_withEnv ((cascade_pushRight s n _).trans hp) hq (dropPushWords s n).env
  have hpush := (exec_push_performed hwords hlive hrun hn hlatched henc).trans (congrArg Host.Outcome.next hblock)
  exact ⟨_, _, _, _, hparts, hpush, rfl, rfl⟩

end Sys2Proof.Machine
end

section
/-! A `PUSH` of one channel through the pre-emphasis alone (41_preemphasis R205, 43_stereo_mux R245): what it appends
to the ring. -/

namespace Sys2Proof.Machine

/-- The pre-emphasis over a block: each sample from its input and the input before it. -/
theorem mapState_preStep (cfg : Config) (srcRate : Word) (ch : Channel) (xs : List F32) :
    mapState (preStep cfg srcRate) ch xs =
      (((ch.last :: xs).zip xs).map fun p => flAdd p.2 (flDiv (flSub p.1 p.2) (preDen cfg srcRate)),
        { ch with last := xs.getLastD ch.last }) := by
  induction xs generalizing ch with
  | nil => rfl
  | cons x xs ih =>
    rw [mapState_cons, ih, List.getLastD_cons]
    rfl

/-- The mono path of one channel passes the samples (43_stereo_mux R245). -/
theorem frames_map_monoStep_one (ys rs : List F32) : (frames ys rs).map (monoStep 1) = ys := by
  induction ys generalizing rs with
  | nil => rfl
  | cons y ys ih => rw [frames, List.map_cons, ih]; rfl

/-- With one channel and every stage but the pre-emphasis off, the cascade is the pre-emphasis of channel 0. -/
theorem cascade_of_preEmphasis {s : State} (ls rs : List F32) (hmono : s.csr.ctrl.stereoEn = false)
    (hrate : s.csr.ctrl.resampEn = false) (henc : s.csr.ctrl.encEn = false) (hone : s.csr.ctrl.nch2 = false) :
    cascade s ls rs =
      ((mapState (preStep s.cfg s.csr.srcRate) s.dp.ch0 ls).1,
        { s.dp with ch0 := (mapState (preStep s.cfg s.csr.srcRate) s.dp.ch0 ls).2 }) := by
  have hact : encActive s.csr = false := encActive_eq_false (.inl henc)
  have hnch : channels s.csr.ctrl = 1 := by rw [channels, hone]; rfl
  simp [cascade_eq, channelStage_eq, compositeStage, encoderStage, hmono, hrate, hact, hone, hnch, frames_map_monoStep_one]

/-- The response to a block that the ring took is its number of samples (R353). -/
theorem pushData_false {m : Nat} (hm : m < 2 ^ 24) : pushData false m = BitVec.ofNat 32 m := by
  apply eq_ofNat_of_toNat
  rw [pushData, BitVec.toNat_append, BitVec.toNat_ofNat, Nat.mod_eq_of_lt hm]
  exact Nat.zero_or m

/-- A `PUSH` whose block fits: the ring takes it. -/
theorem pushBlock_fits {s : State} {ls rs : List F32} {p : List F32 × Datapath} (n : Nat) (hp : cascade s ls rs = p)
    (hcap : 0 < s.cfg.cap) (hfits : p.1.length + occupancy s + 1 ≤ s.cfg.cap) :
    pushBlock n ls rs s = respond .audio false (pushData false p.1.length)
      (startCheck (ringAccept p.1 { s with dp := p.2, latchedN := n })) := by
  have hfree : p.1.length ≤ freeSpace { s with dp := p.2, latchedN := n } := (le_freeSpace_iff hcap).mpr hfits
  simp only [pushBlock_eq, hp, fifoWrite, if_pos hfree]

/-- Settles O48: the cascade is `cascade_of_preEmphasis`, and its samples go to the end of the queue
(`ringContents_ringAccept`). -/
theorem monoPushAppendsThePreEmphasisedBlock : Obligations.MonoPushAppendsThePreEmphasisedBlock := by
  unfold Obligations.MonoPushAppendsThePreEmphasisedBlock
  intro s n xs den occ c hwords hlive hrun hn hn16 hlatched hmono hrate henc hone hcap _ _ hfits
  have hpushWords : pushWords s n = n := by rw [pushWords, channels, hone]; exact Nat.mul_one n
  have hok : encoderOk s = true := by rw [encoderOk, encActive_eq_false (.inl henc)]; rfl
  obtain ⟨ys, hys⟩ : ∃ ys, ys = ((s.dp.ch0.last :: xs).zip xs).map fun p => flAdd p.2 (flDiv (flSub p.1 p.2) den) := ⟨_, rfl⟩
  have hcascade : cascade (dropPushWords s n) xs (pushRight s n) =
      (ys, { s.dp with ch0 := { s.dp.ch0 with last := xs.getLastD s.dp.ch0.last } }) := by
    rw [cascade_of_preEmphasis (s := dropPushWords s n) _ _ hmono hrate henc hone, mapState_preStep, hys]
    rfl
  have hlen : ys.length = n := by simp [hys, xs, hwords]
  have hroom : ys.length + occupancy s + 1 ≤ s.cfg.cap := hlen.symm ▸ hfits
  have hpush := exec_push_performed (hpushWords.symm ▸ hwords) hlive hrun hn hlatched hok
  have hblock := pushBlock_fits n hcascade (Nat.zero_lt_of_lt hcap) hroom
  rw [startCheck_eq, hlen, pushData_false (by omega)] at hblock
  refine ⟨_, hpush.trans (congrArg Host.Outcome.next hblock), rfl, ?contents, rfl, rfl, rfl, rfl, rfl, rfl⟩
  case contents =>
    rw [← hys]
    exact ringContents_ringAccept (s := { s with latchedN := n }) hroom

end Sys2Proof.Machine
end

section
/-! The halted state (60_exceptions R389): what a halted block refuses, that it stands still, and that only a reset leaves it. -/

namespace Sys2Proof.Machine

/-! ### Writes to a halted block (47_host_interface R341) -/

/-- The register map has `CTRL` at offset `0x004` only (10_state R42). -/
theorem csrAt_eq_ctrl {off : BitVec 12} (h : csrAt off = .ctrl) : off = 0x004#12 := by
  have hmap : ∀ e ∈ csrMap, e.2 = .ctrl → e.1 = 0x004 := by decide
  obtain hres | hmem := csrAt_eq_reserved_or_mem off
  · cases h.symm.trans hres
  · exact eq_ofNat_of_toNat (hmap _ hmem h)

theorem isReset_csrWr {off : BitVec 12} {w : Word} (ha : aligned off = true) :
    isReset (.csrWr off w) = isSoftReset off w := by
  rw [isReset, ha, Bool.true_and]

/-- A halted block refuses a write that is no reset, and answers with the code of one of two refusals. -/
theorem exec_csrWr_halted {off : BitVec 12} {w : Word} {s : State} (hhalt : s.csr.status.fatal = true)
    (hr : isReset (.csrWr off w) = false) :
    exec (.csrWr off w) s =
      .next (respond .control true (codeWord (if aligned off then .halted else .busMisaligned)) s) := by
  have hrefuse (c : Code) := refuse_halted .control c off.toNat s hhalt
  obtain ⟨ha, hx⟩ | ⟨ha, -, -, hx⟩ | ⟨ha, hsoft, -⟩ := execCsrWr_cases off w s
  · exact hx.trans (by rw [hrefuse, ha]; rfl)
  · exact hx.trans (by rw [hrefuse, ha]; rfl)
  · rw [isReset_csrWr ha] at hr
    exact absurd (hr.symm.trans (hsoft hhalt)) Bool.false_ne_true

/-- Settles O44: the only reset among the aligned writes is the excluded one (`csrAt_eq_ctrl`). -/
theorem haltedBlockRefusesWrites : Obligations.HaltedBlockRefusesWrites := by
  unfold Obligations.HaltedBlockRefusesWrites
  intro s off w hhalt hoff hsoft
  have ha := aligned_of_mod hoff
  have hr : isReset (.csrWr off w) = false := by
    rw [isReset_csrWr ha, Bool.eq_false_iff]
    intro hreset
    obtain ⟨hctrl, hbit⟩ := isSoftReset_iff.mp hreset
    exact hsoft ⟨csrAt_eq_ctrl hctrl, hbit⟩
  rw [exec_csrWr_halted hhalt hr, ha]
  rfl

/-! ### A halted block stands still -/

/-- Of the block only the payload read pointer may differ. -/
def StandsStill (s t : State) : Prop :=
  t = { s with csr := { s.csr with payloadAddr := t.csr.payloadAddr }, env := t.env }

theorem standsStill_refl (s : State) : StandsStill s s := rfl

theorem StandsStill.respond {s t : State} (p : Port) (e : Bool) (d : Word) (h : StandsStill s t) :
    StandsStill s (respond p e d t) := by
  unfold StandsStill at h
  rw [h]
  cases p <;> rfl

theorem standsStill_csrReadEffect (r : Csr) (s : State) : StandsStill s (csrReadEffect r s) := by
  unfold csrReadEffect
  split <;> rfl

theorem standsStill_dropPushWords (s : State) (n : Nat) : StandsStill s (dropPushWords s n) := rfl

theorem exec_csrRd_standsStill {off : BitVec 12} {s t : State} (hhalt : s.csr.status.fatal = true)
    (h : exec (.csrRd off) s = .next t) : StandsStill s t := by
  obtain ⟨-, hx⟩ | ⟨-, hx⟩ := execCsrRd_cases off s <;> cases hx.symm.trans h
  · rw [refuse_halted _ _ _ _ hhalt]
    exact (standsStill_refl s).respond ..
  · exact (standsStill_csrReadEffect _ s).respond ..

theorem exec_push_standsStill {n : Nat} {s t : State} (hhalt : s.csr.status.fatal = true)
    (h : exec (.push n) s = .next t) : StandsStill s t := by
  obtain ⟨-, hx⟩ | ⟨-, ⟨-, hx⟩ | ⟨hlive, -⟩⟩ := execPush_cases n s
  · cases hx.symm.trans h
    exact standsStill_refl s
  · cases hx.symm.trans h
    rw [refuse_halted _ _ _ (dropPushWords s n) hhalt]
    exact (standsStill_dropPushWords s n).respond ..
  · exact absurd (hlive.symm.trans hhalt) Bool.false_ne_true

/-- The consumer's operations hold while the block is halted (O25), and every other agent's is refused or reads. -/
theorem exec_standsStill {i : Instr} {s t : State} (hhalt : s.csr.status.fatal = true) (hd : isDatapath i = false)
    (hr : isReset i = false) (h : exec i s = .next t) : StandsStill s t := by
  obtain ⟨hcons, hmod⟩ := holdsChangeNothing s
  cases i with
  | csrRd off => exact exec_csrRd_standsStill hhalt h
  | csrWr off w =>
    cases (exec_csrWr_halted hhalt hr).symm.trans h
    exact (standsStill_refl s).respond ..
  | push n => exact exec_push_standsStill hhalt h
  | consRead =>
    cases (hcons (.inr (.inr (.inr hhalt)))).symm.trans h
    exact standsStill_refl s
  | modStep =>
    cases (hmod (.inr (.inl hhalt))).symm.trans h
    exact standsStill_refl s
  | dmaAdv => cases h; rfl
  | hwReset => cases hr
  | preStep | rsmPush | muxStep | monoStep | encStep | fifoWrite | startCheck => cases hd

/-- Settles O50: `exec_standsStill`, which is the statement. -/
theorem haltedBlockStandsStill : Obligations.HaltedBlockStandsStill := by
  unfold Obligations.HaltedBlockStandsStill
  exact fun s t i hhalt hd hr h => exec_standsStill hhalt hd hr h

/-! ### What the datapath's operations do to the registers and the payload (45_fifo R283) -/

/-- The payload is left, and the registers are left or record one overrun. -/
def RecordsAtMostOverrun (s t : State) : Prop :=
  t.payload = s.payload ∧ (t.csr = s.csr ∨ ∃ m, t.csr = (overrun m s).csr)

theorem recordsAtMostOverrun_of_eq {s t : State} (hp : t.payload = s.payload) (hc : t.csr = s.csr) :
    RecordsAtMostOverrun s t := ⟨hp, .inl hc⟩

theorem RecordsAtMostOverrun.fatal {s t : State} (h : RecordsAtMostOverrun s t) :
    t.csr.status.fatal = s.csr.status.fatal := by
  obtain ⟨-, hc | ⟨m, hc⟩⟩ := h
  · rw [hc]
  · rw [hc, overrun_csr]
    cases s.csr.ctrl.cal <;> rfl

theorem RecordsAtMostOverrun.payloadLen {s t : State} (h : RecordsAtMostOverrun s t) :
    t.csr.payloadLen = s.csr.payloadLen := by
  obtain ⟨-, hc | ⟨m, hc⟩⟩ := h
  · rw [hc]
  · rw [hc, overrun_csr]

theorem pushBlock_recordsAtMostOverrun (n : Nat) (ls rs : List F32) (s : State) :
    RecordsAtMostOverrun s (pushBlock n ls rs s) := by
  refine ⟨?_, pushBlock_csr n ls rs s⟩
  rw [pushBlock_eq, respond_payload, startCheck_payload]
  obtain ⟨-, hw⟩ | ⟨-, hw⟩ := fifoWrite_cases (cascade s ls rs).1.length (cascade s ls rs).1
    { s with dp := (cascade s ls rs).2, latchedN := n } <;> rw [hw]
  · rw [ringAccept_payload]
  · rw [overrun_payload]

theorem execEncStep_recordsAtMostOverrun {s t : State} (h : execEncStep s = .next t) : RecordsAtMostOverrun s t := by
  obtain ⟨-, hx⟩ | ⟨-, ⟨-, hx⟩ | ⟨-, hx⟩⟩ := execEncStep_cases s <;> cases hx.symm.trans h
  all_goals exact recordsAtMostOverrun_of_eq rfl rfl

theorem execFifoWrite_recordsAtMostOverrun {m : Nat} {s t : State} (h : execFifoWrite m s = .next t) :
    RecordsAtMostOverrun s t := by
  obtain ⟨-, hx⟩ | ⟨-, hx⟩ := execFifoWrite_cases m s <;> cases hx.symm.trans h
  · exact recordsAtMostOverrun_of_eq rfl rfl
  · exact ⟨rfl, .inr ⟨m, rfl⟩⟩

theorem exec_recordsAtMostOverrun {i : Instr} {s t : State} (hd : isDatapath i = true) (h : exec i s = .next t) :
    RecordsAtMostOverrun s t := by
  cases i with
  | encStep => exact execEncStep_recordsAtMostOverrun h
  | fifoWrite m => exact execFifoWrite_recordsAtMostOverrun h
  | startCheck =>
    cases h
    exact recordsAtMostOverrun_of_eq ((setResult_payload ..).trans (startCheck_payload s))
      ((setResult_csr ..).trans (startCheck_csr s))
  | preStep | rsmPush | muxStep | monoStep => cases h; exact recordsAtMostOverrun_of_eq rfl rfl
  | csrRd | csrWr | push | consRead | modStep | dmaAdv | hwReset => cases hd

/-! ### Leaving the halted state -/

/-- The datapath's operations do not touch `FATAL`, and those of the agents find a block that stands still. -/
theorem exec_stays_halted {i : Instr} {s t : State} (hhalt : s.csr.status.fatal = true) (hr : isReset i = false)
    (h : exec i s = .next t) : t.csr.status.fatal = true := by
  cases hd : isDatapath i with
  | false => rw [exec_standsStill hhalt hd hr h]; exact hhalt
  | true => exact (exec_recordsAtMostOverrun hd h).fatal.trans hhalt

theorem illegalOp_stays_halted (p : Port) (w : Word) {s : State} (hhalt : s.csr.status.fatal = true) :
    (illegalOp p w s).csr.status.fatal = true := by
  rw [illegalOp, refuse_halted _ _ _ _ hhalt, respond_csr, hhalt]

theorem fetch_csr {s u : State} (h : (fetch s).state? = some u) : u.csr = s.csr := by
  rw [fetch_state h]

/-- Settles O49: of what a step can do, only a reset is not excluded by `exec_stays_halted` and `illegalOp_stays_halted`. -/
theorem onlyResetLeavesTheHaltedState : Obligations.OnlyResetLeavesTheHaltedState := by
  unfold Obligations.OnlyResetLeavesTheHaltedState
  intro s t hhalt hstep hleft
  have hfetched {u : State} (hu : (fetch s).state? = some u) : u.csr.status.fatal = true := by rw [fetch_csr hu, hhalt]
  obtain ⟨i, u, hf, he⟩ | ⟨p, w, u, hf, rfl⟩ | hf := step_next hstep
  · refine ⟨i, u, hf, Bool.of_not_eq_false fun hr => ?_⟩
    have hstays := exec_stays_halted (hfetched (by rw [hf]; rfl)) hr he
    exact Bool.false_ne_true (hleft.symm.trans hstays)
  · have hstays := illegalOp_stays_halted p w (hfetched (by rw [hf]; rfl))
    exact absurd (hleft.symm.trans hstays) Bool.false_ne_true
  · exact absurd (hleft.symm.trans (hfetched (by rw [hf]; rfl))) Bool.false_ne_true

end Sys2Proof.Machine
end

section
/-! The interrupt line (60_exceptions R392). -/

namespace Sys2Proof.Machine

theorem getLsbD_append_ofBool_zero {n : Nat} (x : BitVec n) (b : Bool) : (x ++ BitVec.ofBool b).getLsbD 0 = b := by
  rw [BitVec.getLsbD_append, if_pos Nat.zero_lt_one]
  cases b <;> rfl

theorem getLsbD_append_ofBool_succ {n : Nat} (x : BitVec n) (b : Bool) (k : Nat) :
    (x ++ BitVec.ofBool b).getLsbD (k + 1) = x.getLsbD k := by
  rw [BitVec.getLsbD_append, if_neg (by omega), Nat.add_sub_cancel]

/-- `STATUS` reads as its bits (10_state R45). -/
theorem statusWord_getLsbD (s : State) (i : Fin 7) : (statusWord s).getLsbD i = statusBit s i := by
  unfold statusWord
  fin_cases i <;> simp only [getLsbD_append_ofBool_zero, getLsbD_append_ofBool_succ] <;> rfl

/-- Settles O51: the bits `irq` looks at are those `STATUS` reads as (`statusWord_getLsbD`). -/
theorem irqIsTheOrOfEnabledStatusBits : Obligations.IrqIsTheOrOfEnabledStatusBits := by
  unfold Obligations.IrqIsTheOrOfEnabledStatusBits
  intro s
  calc irq s = true
    _ ↔ ∃ i : Fin 7, statusBit s i = true ∧ s.csr.irqEn.getLsbD i = true := by
      simp only [irq, List.any_eq_true, List.mem_finRange, true_and, Bool.and_eq_true]
    _ ↔ ∃ i : Fin 7, (statusWord s).getLsbD i = true ∧ s.csr.irqEn.getLsbD i = true := by
      simp only [statusWord_getLsbD]
    _ ↔ ∃ i < 7, (statusWord s).getLsbD i = true ∧ s.csr.irqEn.getLsbD i = true := by
      simp only [Fin.exists_iff, exists_prop]

end Sys2Proof.Machine
end

section
/-! The payload while the block runs (70_reset_and_hazards R431, 47_host_interface R346). -/

namespace Sys2Proof.Machine

/-- The bytes of the payload and its length are the same. -/
def KeepsPayload (s t : State) : Prop := t.payload = s.payload ∧ t.csr.payloadLen = s.csr.payloadLen

theorem RecordsAtMostOverrun.keepsPayload {s t : State} (h : RecordsAtMostOverrun s t) : KeepsPayload s t :=
  ⟨h.1, h.payloadLen⟩

theorem keepsPayload_refuse (p : Port) (c : Code) (n : Nat) (s : State) : KeepsPayload s (refuse p c n s) :=
  ⟨refuse_payload .., by rw [refuse_csr, recordRefusal_csr]⟩

theorem keepsPayload_fatalStop (p : Port) (c : Code) (n : Nat) (s : State) : KeepsPayload s (fatalStop p c n s) :=
  ⟨fatalStop_payload .., by rw [fatalStop_csr, halt_csr]⟩

/-- The lock: while running, a register's row accepts no write that reaches the payload or its length, but for the soft reset. -/
theorem csrWrite_accepted_running {r : Csr} {w : Word} {s t : State} (hrun : s.csr.ctrl.run = true)
    (h : csrWrite r w s = .accepted t) : (r = .ctrl ∧ w.getLsbD 31 = true) ∨ KeepsPayload s t := by
  cases r
  case ctrl =>
    cases hbit : w.getLsbD 31 with
    | true => exact .inl ⟨rfl, rfl⟩
    | false =>
      rw [csrWrite_ctrl hbit] at h
      obtain ⟨-, -, rfl⟩ := checkedWrite_accepted h
      exact .inr ⟨writeCtrl_payload .., by rw [writeCtrl_csr]⟩
  case payloadLen | payloadData =>
    obtain ⟨-, hstopped, -⟩ := checkedWrite_accepted h
    exact absurd (hstopped.symm.trans hrun) Bool.false_ne_true
  case delay | chunk | cps | modIndex =>
    obtain ⟨-, -, rfl⟩ := checkedWrite_accepted h
    exact .inr ⟨rfl, rfl⟩
  case srcRate | ratio =>
    obtain ⟨-, -, rfl⟩ := rateWrite_accepted h
    exact .inr ⟨rfl, rfl⟩
  all_goals
    cases h
    exact .inr ⟨rfl, rfl⟩

theorem execCsrRd_keepsPayload {off : BitVec 12} {s t : State} (h : execCsrRd off s = .next t) : KeepsPayload s t := by
  obtain ⟨-, hx⟩ | ⟨-, hx⟩ := execCsrRd_cases off s <;> cases hx.symm.trans h
  · exact keepsPayload_refuse ..
  · exact ⟨(respond_payload ..).trans (csrReadEffect_payload ..), by rw [respond_csr, csrReadEffect_csr]⟩

theorem execCsrWr_keepsPayload {off : BitVec 12} {w : Word} {s t : State} (hrun : s.csr.ctrl.run = true)
    (hr : isReset (.csrWr off w) = false) (h : execCsrWr off w s = .next t) : KeepsPayload s t := by
  obtain ⟨-, hx⟩ | ⟨-, -, -, hx⟩ | ⟨ha, -, ⟨u, hu, hx⟩ | ⟨c, -, hx⟩ | ⟨c, -, hx⟩⟩ := execCsrWr_cases off w s <;>
    cases hx.symm.trans h
  case inr.inr.inl =>
    obtain hsoft | ⟨hp, hlen⟩ := csrWrite_accepted_running hrun hu
    · have hreset : isReset (.csrWr off w) = true := (isReset_csrWr ha).trans (isSoftReset_iff.mpr hsoft)
      exact absurd (hr.symm.trans hreset) Bool.false_ne_true
    · exact ⟨(respond_payload ..).trans hp, by rw [respond_csr, hlen]⟩
  case inr.inr.inr.inr => exact keepsPayload_fatalStop ..
  all_goals exact keepsPayload_refuse ..

theorem execPush_keepsPayload {n : Nat} {s t : State} (h : execPush n s = .next t) : KeepsPayload s t := by
  obtain ⟨-, hx⟩ | ⟨-, ⟨-, hx⟩ | ⟨-, ⟨-, hx⟩ | ⟨-, ⟨-, hx⟩ | ⟨-, ⟨-, -, hx⟩ | ⟨-, ⟨-, hx⟩ | ⟨-, hx⟩⟩⟩⟩⟩⟩ :=
    execPush_cases n s <;> cases hx.symm.trans h
  · exact ⟨rfl, rfl⟩
  · exact keepsPayload_refuse _ _ _ (dropPushWords s n)
  · exact keepsPayload_refuse _ _ _ (dropPushWords s n)
  · exact keepsPayload_refuse _ _ _ (dropPushWords s n)
  · exact keepsPayload_fatalStop _ _ _ (dropPushWords s n)
  · exact (pushBlock_recordsAtMostOverrun _ _ _ (dropPushWords s n)).keepsPayload

theorem execConsRead_keepsPayload {s t : State} (h : execConsRead s = .next t) : KeepsPayload s t := by
  obtain ⟨-, hx⟩ | ⟨-, ⟨-, hx⟩ | ⟨-, hx⟩⟩ := execConsRead_cases s <;> cases hx.symm.trans h
  all_goals exact ⟨rfl, rfl⟩

theorem exec_modStep_keepsPayload {s t : State} (h : exec .modStep s = .next t) : KeepsPayload s t := by
  obtain ⟨-, rfl⟩ | ⟨-, rfl⟩ := exec_modStep_next h
  · exact ⟨rfl, rfl⟩
  · refine ⟨modCommit_payload s, ?_⟩
    rw [modCommit_csr_eq]
    split <;> rfl

theorem exec_keepsPayload {i : Instr} {s t : State} (hrun : s.csr.ctrl.run = true) (hr : isReset i = false)
    (h : exec i s = .next t) : KeepsPayload s t := by
  cases i with
  | csrRd off => exact execCsrRd_keepsPayload h
  | csrWr off w => exact execCsrWr_keepsPayload hrun hr h
  | push n => exact execPush_keepsPayload h
  | consRead => exact execConsRead_keepsPayload h
  | modStep => exact exec_modStep_keepsPayload h
  | dmaAdv => cases h; exact ⟨rfl, rfl⟩
  | hwReset => cases hr
  | preStep | rsmPush | muxStep | monoStep | encStep | fifoWrite | startCheck =>
    exact (exec_recordsAtMostOverrun rfl h).keepsPayload

/-- Settles O53: `exec_keepsPayload`, whose two parts are the statement's. -/
theorem payloadIsImmutableWhileRunning : Obligations.PayloadIsImmutableWhileRunning := by
  unfold Obligations.PayloadIsImmutableWhileRunning
  exact fun s t i hrun hr h => exec_keepsPayload hrun hr h

end Sys2Proof.Machine
end

section
/-! The two resets and the values they give (70_reset_and_hazards R420 to R422, 10_state R42). -/

namespace Sys2Proof.Machine

/-- The soft reset is performed in every state, a halted one too (47_host_interface R341, 60_exceptions R389). -/
theorem exec_softReset {off : BitVec 12} {w : Word} (s : State) (ha : aligned off = true) (hctrl : csrAt off = .ctrl)
    (hbit : w.getLsbD 31 = true) : exec (.csrWr off w) s = .next (respond .control false 0#32 (softReset s)) := by
  have hsoft : isSoftReset off w = true := isSoftReset_iff.mpr ⟨hctrl, hbit⟩
  have hrow : csrWrite (csrAt off) w s = .accepted (softReset s) := by rw [hctrl]; exact if_pos hbit
  obtain ⟨hmis, -⟩ | ⟨-, -, hno, -⟩ | ⟨-, -, ⟨u, hu, hx⟩ | ⟨c, hc, -⟩ | ⟨c, hc, -⟩⟩ := execCsrWr_cases off w s
  · exact absurd (hmis.symm.trans ha) Bool.false_ne_true
  · exact absurd (hno.symm.trans hsoft) Bool.false_ne_true
  · cases hrow.symm.trans hu
    exact hx
  · cases hrow.symm.trans hc
  · cases hrow.symm.trans hc

/-- Settles O45: `hardReset` is the whole of `HW_RESET`, and `exec_softReset` that of the `CTRL` write. -/
theorem bothResetsRestoreTheResetState : Obligations.BothResetsRestoreTheResetState := by
  unfold Obligations.BothResetsRestoreTheResetState
  intro s w hbit
  have hhard : exec .hwReset s = .next (hardReset s) := rfl
  exact ⟨hhard, exec_softReset s rfl rfl hbit⟩

/-- No entry of the memories is listed after reset, so each reads as 0. -/
theorem memories_read_zero_at_reset (cfg : Config) (i : Nat) :
    cbufRead (State.resetOf cfg) i = 0x00000000#32 ∧ slotRead (State.resetOf cfg) i = 0#32 ∧
      payloadRead (State.resetOf cfg).payload i = 0x00#8 := ⟨rfl, rfl, rfl⟩

/-- Settles O54: the values are those `State.resetOf` writes down, and the memories read by `memories_read_zero_at_reset`. -/
theorem resetGivesTheStatedValues : Obligations.ResetGivesTheStatedValues := by
  unfold Obligations.ResetGivesTheStatedValues
  have hirq : irq State.reset = false := by decide
  refine ⟨rfl, rfl, rfl, rfl, rfl, rfl, rfl, rfl, rfl, rfl, rfl, rfl, rfl, rfl, rfl, rfl, rfl, memories_read_zero_at_reset {},
    ?registers⟩
  case registers =>
    exact ⟨rfl, rfl, rfl, rfl, rfl, rfl, rfl, rfl, rfl, rfl, rfl, rfl, rfl, rfl, rfl, hirq, rfl⟩

end Sys2Proof.Machine
end
